-- ==== Sys2Proof/Word.lean ====
section
/-!
DEFINITION. The block's two word types and the plainest bit operations over them (00_scope.md R8, 30_encoding.md R84).
No value of the block is signed; times, deadlines and lengths are natural numbers and are kept as `Nat` (R8, R41).
-/

namespace Sys2Proof

/-- An 8-bit value: a line register, a byte on the wire, a status byte (R6 `REG_W`, R8). -/
abbrev Byte := BitVec 8

/-- A 24-bit flash address, sent on the wire as three bytes (R84, R96). -/
abbrev Addr := BitVec 24

end Sys2Proof
end

