-- ==== Sys2Proof/Syntax.lean ====
section
/-!
DEFINITION. What the block is told and what it says: its instructions (one constructor per row of
spec/opcode_table.json), the host request and response records (30_encoding.md R84, R91), the fault reasons
(60_exceptions.md R255) and the events of TRACE (00_scope.md R9, 10_state.md R44).
-/

namespace Sys2Proof

/-- What a frame whose opcode comes from the request carries after that opcode (30_encoding.md R94, rows other than
write-enable): the host operation sets the shape (R89, opcode table row `caller_opcode`). -/
inductive FrameShape where
  /-- `statusRead(op, n)`: receive `n` bytes (43_transactions.md R170). -/
  | statusRead (n : Nat)
  /-- `regWriteTxn(op, data)`: send the payload (R172). -/
  | regWrite (data : List Byte)
  /-- `readTxn(op, a, n)`: send the address, receive `n` bytes (R173). -/
  | dataRead (addr : Addr) (n : Nat)
  /-- `progTxn(op, a, data)`: send the address and the payload (R174). -/
  | dataProgram (addr : Addr) (data : List Byte)
  /-- `eraseTxn(op, a)`: send the address (R175). -/
  | dataErase (addr : Addr)
  deriving DecidableEq, Repr

/-- The instructions: the eight host-request rows (format HOSTREQ) and the four wire-command rows (format WIRE_CMD) of
spec/opcode_table.json, in the table's order. A host request carries the fields its operation uses and no other: an
unused field has no effect (30_encoding.md R86). -/
inductive Instr where
  /-- OPEN, op 000 (45_facade.md R221). -/
  | hostOpen
  /-- CLOSE, op 001 (R222). -/
  | hostClose
  /-- READ_REG, op 010: opcode, len (R223). -/
  | readReg (opcode : Byte) (len : Nat)
  /-- WRITE_REG, op 011: opcode, data (R224). -/
  | writeReg (opcode : Byte) (data : List Byte)
  /-- READ, op 100: opcode, addr, len (R225). -/
  | readData (opcode : Byte) (addr : Addr) (len : Nat)
  /-- PROGRAM, op 101: opcode, addr, data (R226). -/
  | program (opcode : Byte) (addr : Addr) (data : List Byte)
  /-- ERASE, op 110: opcode, addr (R227). -/
  | erase (opcode : Byte) (addr : Addr)
  /-- The reserved tag, op 111 (R228). -/
  | reserved
  /-- OP_WREN 0x06: the write-enable frame (43_transactions.md R171). -/
  | opWren
  /-- OP_RDSR 0x05: the status-register read frame of a poll (44_busy_poll.md R201). -/
  | opRdsr
  /-- OP_RFSR 0x70: the flag-status read frame of a poll or of an error check (R201, R226, R227). -/
  | opRfsr
  /-- A frame that starts with an opcode of the request, sent unchanged (30_encoding.md R89). -/
  | callerOpcode (opcode : Byte) (shape : FrameShape)
  deriving DecidableEq, Repr

/-- A host request: the record of five fields (30_encoding.md R84). -/
structure Request where
  op : BitVec 3
  opcode : Byte
  addr : Addr
  len : Nat
  data : List Byte
  deriving DecidableEq, Repr

/-- The `status` field of a response; code 11 is never produced (30_encoding.md R91, 60_exceptions.md R250). -/
inductive Status where
  | ok
  | timeout
  | programError
  deriving DecidableEq, Repr

/-- A response: the record of four fields (30_encoding.md R91). -/
structure Response where
  status : Status
  rdata : List Byte
  count : Nat
  eerr : Bool
  deriving DecidableEq, Repr

/-- The reasons of a model fault, raised at request acceptance only (60_exceptions.md R255). -/
inductive FaultReason where
  /-- F_BUSY: a request offered while BUSY. -/
  | busy
  /-- F_BAD_OP: op = 111. -/
  | badOp
  /-- F_NOT_OPEN: a data operation while LIFE = CLOSED. -/
  | notOpen
  /-- F_LEN: a length above MAX_LEN. -/
  | len
  deriving DecidableEq, Repr

/-- The events of TRACE (00_scope.md R9, 10_state.md R44, 30_encoding.md R100). -/
inductive Event where
  /-- `REQ q`: the host's step hands over a request. -/
  | req (q : Request)
  /-- `CR v`: a read of CTRL returned `v`. -/
  | cr (v : Byte)
  /-- `CW v`: `v` was written to CTRL. -/
  | cw (v : Byte)
  /-- `DR v`: a read of DIN returned `v`. -/
  | dr (v : Byte)
  /-- `EW v`: `v` was written to EN. -/
  | ew (v : Byte)
  /-- `TR t`: the time source answered `t` milliseconds. -/
  | tr (t : Nat)
  /-- `RSP`: the response delivered to the host. -/
  | rsp (r : Response)
  /-- `FLT reason`: the block entered the sticky fault state. -/
  | flt (r : FaultReason)
  deriving DecidableEq, Repr

end Sys2Proof
end

