-- ==== Sys2Proof/Config.lean ====
section
/-!
DEFINITION. What an implementation or the environment fixes and the spec leaves open: the parameters of 00_scope.md R7,
which State carries as plain data (log entry 2), and the free values, opaque constants with no body, so that no proof
can see which value they have.
-/

namespace Sys2Proof

/-- DATA_OUT_BIT: the position of the output data bit in CTRL, one of 4, 5, 6, 7 (10_state.md R28, 92_eei_decisions.md
D1). -/
inductive DataOutBit where
  | bit4
  | bit5
  | bit6
  | bit7
  deriving DecidableEq, Repr, Inhabited

/-- The open parameters of 00_scope.md R7 that are values. DEVICE and TIME are agents and have State fields of their
own. -/
structure Params where
  /-- BASE: the bus address of the line registers (R60). -/
  base : Nat
  /-- DATA_OUT_BIT (R28). -/
  dataOutBit : DataOutBit
  /-- MAX_LEN: the largest payload length a request may carry (R87). -/
  maxLen : Nat
  /-- CTRL_POR: the power-on value of CTRL, every bit unspecified (R46). -/
  ctrlPor : Byte
  deriving DecidableEq, Repr

/-- BASE of the block, left to the binding layer (92_eei_decisions.md D37). -/
opaque Config.base : Nat

/-- DATA_OUT_BIT of the block (D1). -/
opaque Config.dataOutBit : DataOutBit

/-- MAX_LEN of the block less one: R7 asks MAX_LEN >= 1 (D17). -/
opaque Config.maxLenPred : Nat

/-- CTRL_POR of the block (D20). -/
opaque Config.ctrlPor : Byte

/-- EN's power-on value, any value and never read by the block (D20, 93_implementation_defined.md item 8). -/
opaque Config.enPor : Byte

/-- The byte a DinRead returns when no scripted answer is left: a draw of the device agent, which may depend on the
whole TRACE so far (10_state.md R40, D24); bits 7 to 1 are any value as well (R33). -/
opaque Config.deviceDin : List Event → Byte

/-- By how many milliseconds time has passed since the last answer of the time source when no scripted advance is left:
any natural number, so that the answers are monotone and otherwise free (R41, D9). -/
opaque Config.timeAdvance : List Event → Nat

/-- What the free host does at its `n`-th opportunity, knowing TRACE: nothing, or the offer of a request (R266: "in a
model the host may offer a request at any time"). -/
opaque Config.hostMove : Nat → List Event → Option Request

end Sys2Proof
end

