-- ==== Sys2Proof/WellFormed.lean ====
section
/-!
DEFINITION. Which instructions are well formed: the field ranges of 30_encoding.md R87 that the field's own type does
not already give (an opcode is any byte, an address any 24-bit value; a length is at most MAX_LEN, and 0 is legal).
A request outside them is still offered and faults with F_LEN (45_facade.md R220): nothing is refused for it.
-/

namespace Sys2Proof

/-- The lengths of a frame's operands (R87, R170 to R174: `n` and `N` are 0..MAX_LEN). -/
abbrev FrameShape.WellFormed (p : Params) : FrameShape → Prop
  | .statusRead n => n ≤ p.maxLen
  | .regWrite data => data.length ≤ p.maxLen
  | .dataRead _ n => n ≤ p.maxLen
  | .dataProgram _ data => data.length ≤ p.maxLen
  | .dataErase _ => True

/-- The field ranges of R87. -/
abbrev Instr.WellFormed (p : Params) : Instr → Prop
  | .hostOpen => True
  | .hostClose => True
  | .readReg _ len => len ≤ p.maxLen
  | .writeReg _ data => data.length ≤ p.maxLen
  | .readData _ _ len => len ≤ p.maxLen
  | .program _ _ data => data.length ≤ p.maxLen
  | .erase _ _ => True
  | .reserved => True
  | .opWren => True
  | .opRdsr => True
  | .opRfsr => True
  | .callerOpcode _ shape => shape.WellFormed p

/-- R87 for a request record as the host offers it: a field its operation does not use is ignored (R86). -/
abbrev Request.WellFormed (p : Params) (q : Request) : Prop :=
  (q.op = 0b010#3 ∨ q.op = 0b100#3 → q.len ≤ p.maxLen) ∧
    (q.op = 0b011#3 ∨ q.op = 0b101#3 → q.data.length ≤ p.maxLen)

end Sys2Proof
end

