-- ==== Sys2Proof/Decode.lean ====
section
/-!
DEFINITION. The two encodings the spec gives instructions: the host request record with its 3-bit operation tag
(30_encoding.md R84 to R87) and the frame on the wire (R93 to R98). A decoder, total on every record and on every list
of bytes, rejecting a malformed frame by name, and after it the encoder, written from the same tables.
-/

namespace Sys2Proof

/-! ### The operation tags and the fixed wire opcodes -/

/-- Tag of OPEN (R85). -/
def tagOpen : BitVec 3 := 0b000#3
/-- Tag of CLOSE (R85). -/
def tagClose : BitVec 3 := 0b001#3
/-- Tag of READ_REG (R85). -/
def tagReadReg : BitVec 3 := 0b010#3
/-- Tag of WRITE_REG (R85). -/
def tagWriteReg : BitVec 3 := 0b011#3
/-- Tag of READ (R85). -/
def tagRead : BitVec 3 := 0b100#3
/-- Tag of PROGRAM (R85). -/
def tagProgram : BitVec 3 := 0b101#3
/-- Tag of ERASE (R85). -/
def tagErase : BitVec 3 := 0b110#3
/-- The reserved tag (R85, R101). -/
def tagReserved : BitVec 3 := 0b111#3

/-- OP_WREN, WRITE_ENABLE (00_scope.md R6, 30_encoding.md R88). -/
def wrenByte : Byte := 0x06#8
/-- OP_RDSR, READ_STATUS_REGISTER (R6, R88). -/
def rdsrByte : Byte := 0x05#8
/-- OP_RFSR, READ_FLAG_STATUS_REGISTER (R6, R88). -/
def rfsrByte : Byte := 0x70#8

/-! ### Address bytes (R96) -/

/-- The three bytes of a flash address in wire order: a[23:16], a[15:8], a[7:0] (R96). -/
def addrBytes (a : Addr) : List Byte :=
  [a.extractLsb' 16 8, a.extractLsb' 8 8, a.extractLsb' 0 8]

/-- The address whose wire bytes, first to last, are `hi`, `mid`, `lo` (R96). -/
def addrOfBytes (hi mid lo : Byte) : Addr := hi ++ mid ++ lo

/-! ### Frames (R93, R94) -/

/-- The six frame formats of R94. On the wire the opcode alone does not say which one a frame has (R89, R98). -/
inductive FrameFormat where
  | statusRead
  | writeEnable
  | registerWrite
  | dataRead
  | dataProgram
  | erase
  deriving DecidableEq, Repr

/-- A frame as the wire carries it: its format, the bytes from controller to device in order, and how many bytes come
back (R94, columns "out bytes" and "in bytes"). -/
structure Frame where
  format : FrameFormat
  out : List Byte
  nIn : Nat
  deriving DecidableEq, Repr

/-- An encoded instruction: a host request or a wire frame. -/
inductive Encoded where
  | hostReq (q : Request)
  | wireFrame (f : Frame)
  deriving DecidableEq, Repr

/-- Why a frame is no frame of R94. -/
inductive DecodeError where
  /-- No byte at all: every frame starts with an opcode (R93). -/
  | noOpcode
  /-- A write-enable frame is the byte 0x06 alone (R94, R171). -/
  | notWriteEnable
  /-- Fewer than three address bytes where the format has an address. -/
  | shortAddress
  /-- Bytes sent after the last one the format has. -/
  | extraBytes
  /-- Bytes received in a format that receives none. -/
  | unexpectedInput
  deriving DecidableEq, Repr

/-- What decoding answers. -/
inductive Decoded where
  | instr (i : Instr)
  | bad (e : DecodeError)
  deriving DecidableEq, Repr

/-- The instruction a decode answers, if it answers one. -/
def Decoded.toOption : Decoded → Option Instr
  | .instr i => some i
  | .bad _ => none

/-! ### The decoder -/

/-- A host request to its instruction by the operation tag (R85). It is total: tag 111 is the reserved row, and the
fields an operation does not use are dropped (R86). -/
def decodeRequest (q : Request) : Instr :=
  if q.op = tagOpen then .hostOpen
  else if q.op = tagClose then .hostClose
  else if q.op = tagReadReg then .readReg q.opcode q.len
  else if q.op = tagWriteReg then .writeReg q.opcode q.data
  else if q.op = tagRead then .readData q.opcode q.addr q.len
  else if q.op = tagProgram then .program q.opcode q.addr q.data
  else if q.op = tagErase then .erase q.opcode q.addr
  else .reserved

/-- The status-read frame with opcode `op` that receives `n` bytes: the rows OP_RDSR and OP_RFSR of the table where it
receives the one status byte they name, the row `caller_opcode` otherwise (R89, R94, R201). -/
def decodeStatusRead (op : Byte) (n : Nat) : Instr :=
  if op = rdsrByte ∧ n = 1 then .opRdsr
  else if op = rfsrByte ∧ n = 1 then .opRfsr
  else .callerOpcode op (.statusRead n)

/-- The frame `op, a[23:16], a[15:8], a[7:0], rest` of a format with an address, `k` saying what its operands are. -/
def decodeAddressed (k : Addr → List Byte → Decoded) : List Byte → Decoded
  | hi :: mid :: lo :: rest => k (addrOfBytes hi mid lo) rest
  | _ => .bad .shortAddress

/-- A wire frame to its instruction (R94). -/
def decodeFrame (f : Frame) : Decoded :=
  match f.out with
  | [] => .bad .noOpcode
  | op :: rest =>
    match f.format with
    | .statusRead => if rest = [] then .instr (decodeStatusRead op f.nIn) else .bad .extraBytes
    | .writeEnable =>
      if f.nIn ≠ 0 then .bad .unexpectedInput
      else if rest ≠ [] then .bad .extraBytes
      else if op = wrenByte then .instr .opWren else .bad .notWriteEnable
    | .registerWrite =>
      if f.nIn ≠ 0 then .bad .unexpectedInput else .instr (.callerOpcode op (.regWrite rest))
    | .dataRead =>
      decodeAddressed (fun a tail =>
        if tail = [] then .instr (.callerOpcode op (.dataRead a f.nIn)) else .bad .extraBytes) rest
    | .dataProgram =>
      if f.nIn ≠ 0 then .bad .unexpectedInput
      else decodeAddressed (fun a tail => .instr (.callerOpcode op (.dataProgram a tail))) rest
    | .erase =>
      if f.nIn ≠ 0 then .bad .unexpectedInput
      else decodeAddressed (fun a tail =>
        if tail = [] then .instr (.callerOpcode op (.dataErase a)) else .bad .extraBytes) rest

/-- The decoder of both encodings. -/
def decode : Encoded → Decoded
  | .hostReq q => .instr (decodeRequest q)
  | .wireFrame f => decodeFrame f

/-! ### The encoder -/

/-- A request with tag `op` and every other field 0: what encoding leaves in the fields an operation does not use
(R86). -/
def bareRequest (op : BitVec 3) : Request :=
  { op := op, opcode := 0#8, addr := 0#24, len := 0, data := [] }

/-- `READ_REG opcode, len` (R85, R99). -/
def readRegRequest (opcode : Byte) (len : Nat) : Request :=
  { bareRequest tagReadReg with opcode := opcode, len := len }

/-- `WRITE_REG opcode, data` (R85, R99). -/
def writeRegRequest (opcode : Byte) (data : List Byte) : Request :=
  { bareRequest tagWriteReg with opcode := opcode, data := data }

/-- `READ opcode, addr, len` (R85, R99). -/
def readRequest (opcode : Byte) (addr : Addr) (len : Nat) : Request :=
  { bareRequest tagRead with opcode := opcode, addr := addr, len := len }

/-- `PROGRAM opcode, addr, data` (R85, R99). -/
def programRequest (opcode : Byte) (addr : Addr) (data : List Byte) : Request :=
  { bareRequest tagProgram with opcode := opcode, addr := addr, data := data }

/-- `ERASE opcode, addr` (R85, R99). -/
def eraseRequest (opcode : Byte) (addr : Addr) : Request :=
  { bareRequest tagErase with opcode := opcode, addr := addr }

/-- The write-enable frame (R94, R171). -/
def wrenFrame : Frame := { format := .writeEnable, out := [wrenByte], nIn := 0 }

/-- The status-read frame (R94, R170). -/
def statusReadFrame (op : Byte) (n : Nat) : Frame := { format := .statusRead, out := [op], nIn := n }

/-- The frame of an opcode the request supplies (R89, R94). -/
def shapeFrame (op : Byte) : FrameShape → Frame
  | .statusRead n => statusReadFrame op n
  | .regWrite data => { format := .registerWrite, out := op :: data, nIn := 0 }
  | .dataRead a n => { format := .dataRead, out := op :: addrBytes a, nIn := n }
  | .dataProgram a data => { format := .dataProgram, out := op :: (addrBytes a ++ data), nIn := 0 }
  | .dataErase a => { format := .erase, out := op :: addrBytes a, nIn := 0 }

/-- The encoder of both encodings. -/
def encode : Instr → Encoded
  | .hostOpen => .hostReq (bareRequest tagOpen)
  | .hostClose => .hostReq (bareRequest tagClose)
  | .readReg opcode len => .hostReq (readRegRequest opcode len)
  | .writeReg opcode data => .hostReq (writeRegRequest opcode data)
  | .readData opcode addr len => .hostReq (readRequest opcode addr len)
  | .program opcode addr data => .hostReq (programRequest opcode addr data)
  | .erase opcode addr => .hostReq (eraseRequest opcode addr)
  | .reserved => .hostReq (bareRequest tagReserved)
  | .opWren => .wireFrame wrenFrame
  | .opRdsr => .wireFrame (statusReadFrame rdsrByte 1)
  | .opRfsr => .wireFrame (statusReadFrame rfsrByte 1)
  | .callerOpcode opcode shape => .wireFrame (shapeFrame opcode shape)

/-- A request record with the fields its operation does not use set to 0: they have no effect (R86), and `REQ q` in
TRACE and the register REQ hold the record in this form. -/
def usedFields (q : Request) : Request :=
  match encode (decodeRequest q) with
  | .hostReq q' => q'
  | .wireFrame _ => q

/-! ### The opcode table's words -/

/-- A wire opcode by itself, its operands all zero: the frame of a WIRE_CMD row of spec/opcode_table.json. -/
def opcodeFrame (op : Byte) : Frame :=
  if op = wrenByte then wrenFrame
  else if op = rdsrByte ∨ op = rfsrByte then statusReadFrame op 1
  else statusReadFrame op 0

/-- What a table word of `nbits` bits encodes. The table numbers two formats in the same bits, the 3-bit tag of a host
request and the 8-bit opcode of a wire frame, and a word does not say which it is: a value below 8 is read as a tag,
any other 8-bit value as a wire opcode (log entry 9). -/
def tableWord (nbits w : Nat) : Option Encoded :=
  if w < 8 then some (.hostReq (bareRequest (BitVec.ofNat 3 w)))
  else if nbits ≤ 8 ∧ w < 256 then some (.wireFrame (opcodeFrame (BitVec.ofNat 8 w)))
  else none

/-- The instruction the decoder reads from a word of the opcode table (see `tableWord`). -/
def decodeTableWord (nbits w : Nat) : Option Instr :=
  match tableWord nbits w with
  | some e => (decode e).toOption
  | none => none

end Sys2Proof
end

