-- ==== Sys2Proof/Machine/State.lean ====
section
/-!
DEFINITION. The machine's state as plain data: the line registers, the internal datapath registers, the controller's
phase, LIFE, FAULT and TRACE (10_state.md R20 to R46), the open parameters, and the three agents of the environment
(R20): the host, the device and the time source.
-/

namespace Sys2Proof.Machine

/-! ### The controller's position -/

/-- The lines of CTRL the block writes (30_encoding.md R81, 40_line_access.md R120). -/
inductive Line where
  /-- CLK, bit 0. -/
  | clk
  /-- DIR, bit 1. -/
  | dir
  /-- CS_N, bit 2. -/
  | csN
  /-- CAP, bit 3. -/
  | cap
  /-- DOUT, bit DATA_OUT_BIT. -/
  | dout
  deriving DecidableEq, Repr

/-- The three line registers (30_encoding.md R80). -/
inductive LineReg where
  | ctrl
  | din
  | en
  deriving DecidableEq, Repr

/-- LIFE (10_state.md R36). -/
inductive Life where
  | closed
  | opened
  deriving DecidableEq, Repr

/-- WRES, the result of a wait (R21, 44_busy_poll.md R200). -/
inductive WaitResult where
  | ok
  | timeout
  deriving DecidableEq, Repr

/-- The register assignments that stand between two primitives of the pseudocode. They take no step of their own
(R32). -/
inductive Assign where
  /-- SHIFT <- v (42_byte_framer.md R150, and R151's `acc <- 0x00`). -/
  | shift (v : Byte)
  /-- BITIDX <- i (R150, R151). -/
  | bitIdx (i : Fin 8)
  /-- BYTEIDX <- k (43_transactions.md R170 to R174). -/
  | byteIdx (k : Nat)
  /-- RBUF <- [] (R170, R173). -/
  | clearRbuf
  /-- RBUF <- RBUF ++ [SHIFT], the byte a receive returns (R170, R173). -/
  | pushRbuf
  /-- PSTAT <- RBUF[0], the byte a one-byte status read returns (44_busy_poll.md R200, 45_facade.md R226, R227). -/
  | pstat
  /-- LIFE <- l (R221, R222). -/
  | life (l : Life)
  deriving DecidableEq, Repr

/-- Which response ends an operation (45_facade.md R221 to R227). -/
inductive Reply where
  /-- `respond(OK, [], 0, 0)`. -/
  | ok
  /-- `respond(OK, bytes, 0, 0)`, the bytes received (R223, R225). -/
  | okData
  /-- `respond(TIMEOUT, [], 0, 0)` (60_exceptions.md R251). -/
  | timeout
  /-- PROGRAM's last two responses, by PSTAT bit 4 (R226). -/
  | program
  /-- ERASE's last response, with PSTAT bit 5 (R227). -/
  | erase
  deriving DecidableEq, Repr

/-- The primitives of 00_scope.md R9, each one indivisible step of the controller, at the places the pseudocode has
them. -/
inductive Prim where
  /-- The CtrlRead of `setBit(l, v)` (40_line_access.md R120). -/
  | setRead (l : Line) (v : Bool)
  /-- The CtrlWrite of `setBit(l, v)`; `r` is the value its CtrlRead returned (R120). -/
  | setWrite (l : Line) (v : Bool) (r : Byte)
  /-- The CtrlRead of `setData(SHIFT[BITIDX])` (R123, 42_byte_framer.md R150). -/
  | dataRead
  /-- The CtrlRead of `dirOutIfNeeded()` (R128). -/
  | dirRead
  /-- The DinRead of `clockIn()`, whose bit 0 goes to SHIFT[BITIDX] (41_bit_clock.md R141, R151). -/
  | sample
  /-- `EnWrite(v)` (R221, R222). -/
  | enWrite (v : Byte)
  /-- The `Now()` at the entry of a wait of `ms` milliseconds (44_busy_poll.md R200). -/
  | waitEntry (ms : Nat)
  /-- The `Now()` after a poll of `wait(sop, mask, ms)` that found the flag set (R200). -/
  | pollTime (sop mask : Byte)
  /-- `respond(...)`. -/
  | respond (r : Reply)
  deriving DecidableEq, Repr

/-- One item of the phase: a primitive, a procedure call that is a whole frame, or something that takes no step. -/
inductive Micro where
  | assign (a : Assign)
  /-- `if (PSTAT & mask) == 0x00` of `wait(sop, mask, ms)` (R200). -/
  | test (sop mask : Byte)
  /-- `if wait(...) == TIMEOUT: respond(TIMEOUT, [], 0, 0); stop` (R224, R226, R227). -/
  | abortIfTimeout
  | prim (p : Prim)
  /-- The call of the transaction whose wire command is `i` (43_transactions.md R170 to R175). -/
  | frame (i : Instr)
  deriving DecidableEq, Repr

/-! ### The environment's agents (R20) -/

/-- The host (60_exceptions.md R266): who offers requests, and when. -/
inductive HostAgent where
  /-- Any host: at its `n`-th opportunity it does what the free value `Config.hostMove` says. -/
  | free (n : Nat)
  /-- One move for each coming step: an offer, or nothing; nothing after the last. -/
  | script (moves : List (Option Request))
  /-- The host that keeps R286: it offers the next request only when the block is idle. -/
  | serial (requests : List Request)
  deriving DecidableEq, Repr

/-- The device (10_state.md R40): who answers a DinRead. -/
inductive Device where
  /-- The bytes the coming DinReads return; past the last one the answer is the free value `Config.deviceDin`. -/
  | scripted (answers : List Byte)
  /-- The reference loopback device of 92_eei_decisions.md D24: its shift register L and the bit it presents. -/
  | loopback (l : Byte) (presented : Bool)
  deriving DecidableEq, Repr

/-- The time source (R41): its last answer, and by how much each coming answer is later; past the last one the advance
is the free value `Config.timeAdvance`. Its answers are monotone by construction. -/
structure TimeSource where
  last : Nat
  advances : List Nat
  deriving DecidableEq, Repr

/-! ### The state -/

/-- The state of the block and of its environment. BUSY is no field: it is `phase ≠ []` (R37). DIN is no field: each
read of it is a draw (R46). -/
structure State where
  /-- The open parameters, never written (00_scope.md R7). -/
  params : Params
  /-- CTRL (10_state.md R23). -/
  ctrl : Byte
  /-- EN (R34). -/
  en : Byte
  /-- LAST_EN: the last value written to EN, none before the first write (R35). -/
  lastEn : Option Byte
  /-- LIFE (R36). -/
  life : Life
  /-- The phase: what is left to do of the operation in progress, next item first; `[]` is IDLE (R31). -/
  phase : List Micro
  /-- REQ (R21). -/
  req : Request
  /-- SHIFT (R21). -/
  shift : Byte
  /-- BITIDX (R21). -/
  bitIdx : Fin 8
  /-- BYTEIDX (R21). -/
  byteIdx : Nat
  /-- RBUF (R21). -/
  rbuf : List Byte
  /-- PSTAT (R21, R38). -/
  pstat : Byte
  /-- DEADLINE (R21). -/
  deadline : Nat
  /-- WRES (R21). -/
  wres : WaitResult
  /-- FAULT, the sticky fault mark (R42). -/
  fault : Option FaultReason
  /-- TRACE, oldest event first (R44). -/
  trace : List Event
  /-- The device agent (R40). -/
  device : Device
  /-- The time agent (R41). -/
  time : TimeSource
  /-- The host agent (R266). -/
  host : HostAgent
  deriving DecidableEq, Repr

/-- Why a step ends without a next state. -/
inductive Fault where
  /-- FAULT is set: "a block with FAULT set takes no further step, accepts no request and sends no response"
  (10_state.md R42, 60_exceptions.md R257). Raised by every meaning and by `step`. Safe: the machine stops where a chip
  might go on, as the spec asks. -/
  | stopped (r : FaultReason)
  deriving DecidableEq, Repr

/-- Why a step refuses. -/
inductive Refusal where
  /-- An instruction the model gives no meaning. Raised by `exec`'s arm of such an instruction; no arm does so. Safe. -/
  | notModelled (mnemonic : String)
  deriving DecidableEq, Repr

/-- Power-on (10_state.md R46, 70_reset_and_hazards.md R280). CTRL is the open parameter CTRL_POR and EN any value; the
datapath registers, unspecified and never read before written, are 0 (log entry 3); the environment is free. -/
def State.reset : State :=
  { params :=
      { base := Config.base, dataOutBit := Config.dataOutBit, maxLen := Config.maxLenPred + 1,
        ctrlPor := Config.ctrlPor }
    ctrl := Config.ctrlPor
    en := Config.enPor
    lastEn := none
    life := .closed
    phase := []
    req := bareRequest tagOpen
    shift := 0#8
    bitIdx := 0
    byteIdx := 0
    rbuf := []
    pstat := 0#8
    deadline := 0
    wres := .ok
    fault := none
    trace := []
    device := .scripted []
    time := { last := 0, advances := [] }
    host := .free 0 }

end Sys2Proof.Machine
end

