-- ==== Sys2Proof/Machine/Flags.lean ====
section
/-!
DEFINITION. Bit fields: the lines of CTRL (30_encoding.md R81), DIN bit 0 (R82), the status bits the block tests (R90),
the status codes (R91, R250), and the constants of 00_scope.md R6 that go with them.
-/

namespace Sys2Proof.Machine

/-! ### Constants (00_scope.md R6) -/

/-- EN_ON, written by OPEN (R6, R83). -/
def enOn : Byte := 0x01#8
/-- EN_OFF, written by CLOSE (R6, R83). -/
def enOff : Byte := 0x00#8
/-- M_WIP, WORK_IN_PROGRESS, bit 0 of SR (R6, R90). -/
def maskWip : Byte := 0x01#8
/-- M_EBUSY, ERASE_BUSY, bit 7 of FSR (R6, R90). -/
def maskEraseBusy : Byte := 0x80#8
/-- T_SHORT in milliseconds (R6, R295). -/
def tShort : Nat := 50
/-- T_LONG in milliseconds (R6, R295). -/
def tLong : Nat := 3000

/-! ### The register map (R60, R80) -/

/-- OFF_CTRL, OFF_DIN and OFF_EN (R6, R80). -/
def regOffset : LineReg → Nat
  | .ctrl => 0x0
  | .din => 0x4
  | .en => 0x8

/-- The bus address of a line register (R60). -/
def regAddress (p : Params) (r : LineReg) : Nat := p.base + regOffset r

/-! ### CTRL -/

/-- DATA_OUT_BIT as a bit number (R28). -/
def doutIndex : DataOutBit → Nat
  | .bit4 => 4
  | .bit5 => 5
  | .bit6 => 6
  | .bit7 => 7

/-- The bit number of a line of CTRL (R81). -/
def lineIndex (p : Params) : Line → Nat
  | .clk => 0
  | .dir => 1
  | .csN => 2
  | .cap => 3
  | .dout => doutIndex p.dataOutBit

/-- The mask of a line of CTRL: CLK 0x01, DIR 0x02, CS_N 0x04, CAP 0x08, DOUT = 1 << DATA_OUT_BIT (R6, R7, R120). -/
def lineMask (p : Params) (l : Line) : Byte := 1#8 <<< lineIndex p l

/-- `v & mask` is not zero: line `l` of the CTRL value `v` is 1. -/
def lineOf (p : Params) (l : Line) (v : Byte) : Bool := v.getLsbD (lineIndex p l)

/-- The CTRL value `r` with line `l` set to `v`, every other bit kept (40_line_access.md R120). -/
def setLine (p : Params) (l : Line) (v : Bool) (r : Byte) : Byte :=
  if v then r ||| lineMask p l else r &&& ~~~(lineMask p l)

/-- The three bits of CTRL that have no meaning and that the block never changes (10_state.md R29). -/
def reservedMask (p : Params) : Byte := 0xF0#8 &&& ~~~(lineMask p .dout)

/-! ### Bytes bit by bit -/

/-- The byte `v` with bit `i` replaced by `b`: the receive's `acc[i] <- b` (42_byte_framer.md R151). -/
def putBit (v : Byte) (i : Fin 8) (b : Bool) : Byte :=
  if b then v ||| (1#8 <<< i.val) else v &&& ~~~(1#8 <<< i.val)

/-- Bit 0 of a DinRead, the sampled data line (R82, 40_line_access.md R121). -/
def dinBit (d : Byte) : Bool := d.getLsbD 0

/-! ### The status bits (R38, R90) -/

/-- `(PSTAT & mask) == 0x00`: the polled flag is clear (44_busy_poll.md R200). -/
def flagClear (pstat mask : Byte) : Bool := (pstat &&& mask) == 0x00#8

/-- PROGRAM_ERROR, M_PERR: bit 4 of FSR (R90, 45_facade.md R226). -/
def programErrorBit (fsr : Byte) : Bool := fsr.getLsbD 4

/-- ERASE_ERROR, M_EERR: bit 5 of FSR (R90, 45_facade.md R227). -/
def eraseErrorBit (fsr : Byte) : Bool := fsr.getLsbD 5

/-- The 2-bit code of a response's status (R91, 60_exceptions.md R250). -/
def statusCode : Status → BitVec 2
  | .ok => 0b00#2
  | .timeout => 0b01#2
  | .programError => 0b10#2

end Sys2Proof.Machine
end

