-- ==== Sys2Proof/Machine/Operands.lean ====
section
/-!
DEFINITION. Operand forms: the order of the bits of a byte (30_encoding.md R95), the fields of a request the acceptance
checks read (R85, R87), and the operands of the busy-poll guard's three wait forms (44_busy_poll.md R201).
-/

namespace Sys2Proof.Machine

/-- The bit positions of a byte in the order they cross the wire: 7, 6, ..., 0 (R95, 42_byte_framer.md R150, R151). -/
def bitOrder : List (Fin 8) := [7, 6, 5, 4, 3, 2, 1, 0]

/-- The operation is OPEN or CLOSE, accepted in either LIFE state (45_facade.md R220). -/
def isLifecycle (q : Request) : Bool := q.op == tagOpen || q.op == tagClose

/-- The length the acceptance checks against MAX_LEN: `len` of READ_REG and READ, `len(data)` of WRITE_REG and PROGRAM
(R87, R220); an operation that has no length has 0. -/
def payloadLength (q : Request) : Nat :=
  if q.op = tagReadReg ∨ q.op = tagRead then q.len
  else if q.op = tagWriteReg ∨ q.op = tagProgram then q.data.length
  else 0

/-- The operands of `wait(sop, mask, ms)` (44_busy_poll.md R200). -/
structure WaitForm where
  sop : Byte
  mask : Byte
  ms : Nat
  deriving DecidableEq, Repr

/-- W_SHORT = `wait(0x05, 0x01, 50)` (R201). -/
def waitShort : WaitForm := { sop := rdsrByte, mask := maskWip, ms := tShort }

/-- W_EBUSY = `wait(0x70, 0x80, 3000)` (R201). -/
def waitEraseBusy : WaitForm := { sop := rfsrByte, mask := maskEraseBusy, ms := tLong }

/-- W_EWIP = `wait(0x05, 0x01, 3000)` (R201), with a deadline of its own (R202). -/
def waitEraseWip : WaitForm := { sop := rdsrByte, mask := maskWip, ms := tLong }

end Sys2Proof.Machine
end

