-- ==== Sys2Proof/Machine/Ops.lean ====
section
/-!
DEFINITION. The shared operations: register accesses and time (00_scope.md R9, 20_memory.md R62 to R66), the host
agent's moves, raising a model fault and delivering a response (60_exceptions.md R257, R260), how the phase advances
(10_state.md R31, R32), what each primitive does, request acceptance (45_facade.md R220) and the call of a frame.
-/

namespace Sys2Proof.Machine

/-! ### TRACE -/

/-- Append one event to TRACE (10_state.md R44). -/
def emit (e : Event) (s : State) : State := { s with trace := s.trace ++ [e] }

/-- BUSY = (phase != IDLE) (R37). -/
def busy (s : State) : Bool := !s.phase.isEmpty

/-! ### Register accesses and time -/

/-- `CtrlRead()`: its value is `s.ctrl`; it has no effect but its event (20_memory.md R62, 10_state.md R30). -/
def ctrlRead (s : State) : State := emit (.cr s.ctrl) s

/-- What a CtrlWrite does to the device: the scripted device only listens; the loopback device of D24 acts when CLK
goes from 0 to 1, shifting DOUT in when DIR = 1, presenting L[7] and rotating when DIR = 0. -/
def deviceAfterWrite (p : Params) (old new : Byte) : Device → Device
  | .scripted answers => .scripted answers
  | .loopback l presented =>
    if lineOf p .clk old || !lineOf p .clk new then .loopback l presented
    else if lineOf p .dir new then .loopback (l.extractLsb' 0 7 ++ BitVec.ofBool (lineOf p .dout new)) presented
    else .loopback (l.extractLsb' 0 7 ++ l.extractLsb' 7 1) (l.getLsbD 7)

/-- `CtrlWrite(v)`: all 8 bits of CTRL take the value, the device sees it, and the write is recorded even when it
changes no line (20_memory.md R63). -/
def ctrlWrite (v : Byte) (s : State) : State :=
  emit (.cw v) { s with ctrl := v, device := deviceAfterWrite s.params s.ctrl v s.device }

/-- The byte the device answers to a DinRead now (10_state.md R33, R40). -/
def dinAnswer (s : State) : Byte :=
  match s.device with
  | .scripted (d :: _) => d
  | .scripted [] => Config.deviceDin s.trace
  | .loopback _ presented =>
    (Config.deviceDin s.trace).extractLsb' 1 7 ++ BitVec.ofBool presented

/-- The device after it has answered one DinRead: a scripted answer is used up, nothing else changes (R64). -/
def deviceAfterRead : Device → Device
  | .scripted answers => .scripted answers.tail
  | .loopback l presented => .loopback l presented

/-- `DinRead()`: its value is `dinAnswer s` (20_memory.md R64). -/
def dinRead (s : State) : State :=
  emit (.dr (dinAnswer s)) { s with device := deviceAfterRead s.device }

/-- `EnWrite(v)`: EN and LAST_EN take the value (20_memory.md R65). -/
def enWrite (v : Byte) (s : State) : State := emit (.ew v) { s with en := v, lastEn := some v }

/-- The time source's next answer: the last one and an advance, so never earlier (10_state.md R41). -/
def nowAnswer (s : State) : Nat :=
  s.time.last + match s.time.advances with
    | a :: _ => a
    | [] => Config.timeAdvance s.trace

/-- `Now()`: its value is `nowAnswer s` (R41, 20_memory.md R77). -/
def now (s : State) : State :=
  emit (.tr (nowAnswer s)) { s with time := { last := nowAnswer s, advances := s.time.advances.tail } }

/-! ### The host agent (60_exceptions.md R266) -/

/-- The request the host offers at this step, if it offers one. -/
def hostOffer (s : State) : Option Request :=
  match s.host with
  | .free n => Config.hostMove n s.trace
  | .script (m :: _) => m
  | .script [] => none
  | .serial (q :: _) => if busy s then none else some q
  | .serial [] => none

/-- The host after this step. -/
def hostNext (s : State) : HostAgent :=
  match s.host with
  | .free n => .free (n + 1)
  | .script moves => .script moves.tail
  | .serial requests => .serial (if busy s then requests else requests.tail)

/-! ### Model faults, and the response that returns to the host -/

/-- `raise Fault(reason)`: the one way into the sticky fault state (60_exceptions.md R257). Nothing is saved and
nothing else changes. -/
def raiseFault (r : FaultReason) (s : State) : State := emit (.flt r) { s with fault := some r }

/-- The response an operation ends with (45_facade.md R221 to R227, 30_encoding.md R92, 60_exceptions.md R251 to
R253). -/
def replyOf (s : State) : Reply → Response
  | .ok => { status := .ok, rdata := [], count := 0, eerr := false }
  | .okData => { status := .ok, rdata := s.rbuf, count := 0, eerr := false }
  | .timeout => { status := .timeout, rdata := [], count := 0, eerr := false }
  | .program =>
    if programErrorBit s.pstat then { status := .programError, rdata := [], count := 0, eerr := false }
    else { status := .ok, rdata := [], count := s.req.data.length, eerr := false }
  | .erase => { status := .ok, rdata := [], count := 0, eerr := eraseErrorBit s.pstat }

/-- `respond(...)`: deliver the response and return to IDLE (00_scope.md R9, 45_facade.md R229, 60_exceptions.md R260).
The response is kept nowhere but in TRACE (10_state.md R39). -/
def respond (k : Reply) (s : State) : State := { emit (.rsp (replyOf s k)) s with phase := [] }

/-! ### How the phase advances -/

/-- A register assignment between two primitives. -/
def applyAssign (a : Assign) (s : State) : State :=
  match a with
  | .shift v => { s with shift := v }
  | .bitIdx i => { s with bitIdx := i }
  | .byteIdx k => { s with byteIdx := k }
  | .clearRbuf => { s with rbuf := [] }
  | .pushRbuf => { s with rbuf := s.rbuf ++ [s.shift] }
  | .pstat => { s with pstat := s.rbuf.headD 0#8 }
  | .life l => { s with life := l }

/-- Advance the phase to the next primitive (or frame call) of `code`, doing on the way what takes no step of its own
(10_state.md R32): assignments, the flag test of a wait (44_busy_poll.md R200) and the caller's test of its result. -/
def settle : List Micro → State → State
  | [], s => { s with phase := [] }
  | .assign a :: k, s => settle k (applyAssign a s)
  | .test sop mask :: k, s =>
    if flagClear s.pstat mask then settle k { s with wres := .ok }
    else { s with phase := .prim (.pollTime sop mask) :: k }
  | .abortIfTimeout :: k, s =>
    if s.wres = .timeout then { s with phase := [.prim (.respond .timeout)] } else settle k s
  | .prim p :: k, s => { s with phase := .prim p :: k }
  | .frame i :: k, s => { s with phase := .frame i :: k }

/-- One poll of `wait(sop, mask, _)`: a one-byte status read, PSTAT, and the flag test (44_busy_poll.md R200,
92_eei_decisions.md D41). -/
def pollCode (sop mask : Byte) : List Micro :=
  [.frame (decodeStatusRead sop 1), .assign .pstat, .test sop mask]

/-- One primitive, and the phase advanced to the next one of `k`, what follows it in the pseudocode. -/
def runPrim (p : Prim) (k : List Micro) (s : State) : State :=
  match p with
  | .setRead l v => settle (.prim (.setWrite l v s.ctrl) :: k) (ctrlRead s)
  | .setWrite l v r => settle k (ctrlWrite (setLine s.params l v r) s)
  | .dataRead => settle (.prim (.setWrite .dout (s.shift.getLsbD s.bitIdx) s.ctrl) :: k) (ctrlRead s)
  | .dirRead =>
    if lineOf s.params .dir s.ctrl then settle k (ctrlRead s)
    else settle (.prim (.setWrite .dir true s.ctrl) :: k) (ctrlRead s)
  | .sample => settle k { dinRead s with shift := putBit s.shift s.bitIdx (dinBit (dinAnswer s)) }
  | .enWrite v => settle k (enWrite v s)
  | .waitEntry ms => settle k { now s with deadline := nowAnswer s + ms }
  | .pollTime sop mask =>
    if nowAnswer s > s.deadline then settle k { now s with wres := .timeout }
    else settle (pollCode sop mask ++ k) (now s)
  | .respond r => respond r s

/-! ### Request acceptance and frame calls -/

/-- The checks of request acceptance, in their order (45_facade.md R220, 60_exceptions.md R255, R256). -/
def acceptFault (q : Request) (s : State) : Option FaultReason :=
  if busy s then some .busy
  else if q.op = tagReserved then some .badOp
  else if !isLifecycle q && decide (s.life = .closed) then some .notOpen
  else if payloadLength q > s.params.maxLen then some .len
  else none

/-- The host's step that hands over request `q` (R220): `REQ q`, the checks, and either the fault or REQ and the first
step of the operation's `code`. With FAULT set there is no step at all (10_state.md R42). -/
def accept (q : Request) (code : List Micro) (s : State) : Host.Outcome State Fault Refusal :=
  match s.fault with
  | some r => .fault (.stopped r)
  | none =>
    match acceptFault q s with
    | some r => .next (raiseFault r (emit (.req q) s))
    | none => .next (settle code { emit (.req q) s with req := q })

/-- The call of a frame whose procedure is `code`: it takes no step of its own, so this step does the frame's first
primitive (10_state.md R32), and what the phase held follows the frame. With FAULT set there is no step. -/
def callFrame (code : List Micro) (s : State) : Host.Outcome State Fault Refusal :=
  match s.fault with
  | some r => .fault (.stopped r)
  | none =>
    match code with
    | .prim p :: k => .next (runPrim p (k ++ s.phase) s)
    | k => .next (settle (k ++ s.phase) s)

end Sys2Proof.Machine
end

