-- ==== Sys2Proof/Machine/LineAccess.lean ====
section
/-!
DEFINITION. The procedures of 40_line_access.md and 41_bit_clock.md as the phase holds them: the primitives each one
performs, in the order of its pseudocode.
-/

namespace Sys2Proof.Machine

/-- `setBit(l, v)` (R120): the CtrlRead; its CtrlWrite follows it (`runPrim`). -/
def setBitCode (l : Line) (v : Bool) : List Micro := [.prim (.setRead l v)]

/-- `setData(SHIFT[BITIDX])` (R123). -/
def setDataCode : List Micro := [.prim .dataRead]

/-- `select()` (R124). -/
def selectCode : List Micro := setBitCode .csN false

/-- `deselect()` (R125). -/
def deselectCode : List Micro := setBitCode .csN true

/-- `setCapture()` (R126). -/
def setCaptureCode : List Micro := setBitCode .cap true

/-- `clearCapture()` (R127). -/
def clearCaptureCode : List Micro := setBitCode .cap false

/-- `dirOutIfNeeded()` (R128): a CtrlRead, and a CtrlWrite only where DIR reads 0 (`runPrim`). -/
def dirOutIfNeededCode : List Micro := [.prim .dirRead]

/-- `dirIn()` (R129), unconditional. -/
def dirInCode : List Micro := setBitCode .dir false

/-- `clockOut()` (41_bit_clock.md R140). -/
def clockOutCode : List Micro := setBitCode .clk false ++ setBitCode .clk true

/-- `clockIn()` (R141) with the store of its bit (42_byte_framer.md R151). -/
def clockInCode : List Micro := setBitCode .clk false ++ setBitCode .clk true ++ [.prim .sample]

end Sys2Proof.Machine
end

