-- ==== Sys2Proof/Machine/Framer.lean ====
section
/-!
DEFINITION. The byte framer (42_byte_framer.md): whole bytes, most significant bit first, and the 3-byte address.
-/

namespace Sys2Proof.Machine

/-- One bit of `sendByte`: data, then direction, then clock (R150, 70_reset_and_hazards.md R287). -/
def sendBitCode (i : Fin 8) : List Micro :=
  .assign (.bitIdx i) :: (setDataCode ++ dirOutIfNeededCode ++ clockOutCode)

/-- `sendByte(v)` (R150). -/
def sendByteCode (v : Byte) : List Micro := .assign (.shift v) :: bitOrder.flatMap sendBitCode

/-- One bit of `recvByte` (R151). -/
def recvBitCode (i : Fin 8) : List Micro := .assign (.bitIdx i) :: clockInCode

/-- `recvByte()` (R151): its result is left in SHIFT. -/
def recvByteCode : List Micro := dirInCode ++ .assign (.shift 0x00#8) :: bitOrder.flatMap recvBitCode

/-- The bytes of `vs`, first to last, each a `sendByte`. -/
def sendBytesCode (vs : List Byte) : List Micro := vs.flatMap sendByteCode

/-- `sendAddr(a)` (R152, 30_encoding.md R96). -/
def sendAddrCode (a : Addr) : List Micro := sendBytesCode (addrBytes a)

/-- The payload loop of a frame that sends: BYTEIDX <- k and `sendByte(data[k])`, from index `k` on (43_transactions.md
R172, R174, R179). -/
def sendPayloadCode : Nat → List Byte → List Micro
  | _, [] => []
  | k, v :: vs => .assign (.byteIdx k) :: (sendByteCode v ++ sendPayloadCode (k + 1) vs)

/-- The payload loop of a frame that receives: BYTEIDX <- k and RBUF <- RBUF ++ [recvByte()], `n` times from index `k`
on (R170, R173, R179). -/
def recvPayloadCode : Nat → Nat → List Micro
  | _, 0 => []
  | k, n + 1 => .assign (.byteIdx k) :: (recvByteCode ++ .assign .pushRbuf :: recvPayloadCode (k + 1) n)

end Sys2Proof.Machine
end

