-- ==== Sys2Proof/Machine/Transactions.lean ====
section
/-!
DEFINITION. The transaction sequencer's six shapes (43_transactions.md R170 to R175), each bracketed by select and
deselect (R176).
-/

namespace Sys2Proof.Machine

/-- `statusRead(op, n)` (R170): a leading deselect, and capture mode set before the opcode. -/
def statusReadCode (op : Byte) (n : Nat) : List Micro :=
  deselectCode ++ setCaptureCode ++ selectCode ++ sendByteCode op ++ [.assign .clearRbuf]
    ++ recvPayloadCode 0 n ++ deselectCode

/-- `wrenTxn()` (R171). -/
def wrenTxnCode : List Micro := selectCode ++ sendByteCode wrenByte ++ deselectCode

/-- `regWriteTxn(op, data)` (R172). -/
def regWriteTxnCode (op : Byte) (data : List Byte) : List Micro :=
  selectCode ++ sendByteCode op ++ sendPayloadCode 0 data ++ deselectCode

/-- `readTxn(op, a, n)` (R173): capture mode set between the address and the payload, no leading deselect. -/
def readTxnCode (op : Byte) (a : Addr) (n : Nat) : List Micro :=
  selectCode ++ sendByteCode op ++ sendAddrCode a ++ setCaptureCode ++ [.assign .clearRbuf]
    ++ recvPayloadCode 0 n ++ deselectCode

/-- `progTxn(op, a, data)` (R174). -/
def progTxnCode (op : Byte) (a : Addr) (data : List Byte) : List Micro :=
  selectCode ++ sendByteCode op ++ sendAddrCode a ++ sendPayloadCode 0 data ++ deselectCode

/-- `eraseTxn(op, a)` (R175). -/
def eraseTxnCode (op : Byte) (a : Addr) : List Micro :=
  selectCode ++ sendByteCode op ++ sendAddrCode a ++ deselectCode

/-- The transaction of an opcode the request supplies, by its shape (30_encoding.md R89, R94). -/
def shapeCode (op : Byte) : FrameShape → List Micro
  | .statusRead n => statusReadCode op n
  | .regWrite data => regWriteTxnCode op data
  | .dataRead a n => readTxnCode op a n
  | .dataProgram a data => progTxnCode op a data
  | .dataErase a => eraseTxnCode op a

end Sys2Proof.Machine
end

