-- ==== Sys2Proof/Machine/BusyPoll.lean ====
section
/-!
DEFINITION. The busy-poll guard (44_busy_poll.md R200) as the phase holds it. Its loop is `runPrim`'s `pollTime`, which
puts the next poll in front of the phase, and `settle`'s flag test.
-/

namespace Sys2Proof.Machine

/-- `wait(sop, mask, ms)` (R200): the time at entry, then the first poll. -/
def waitCode (w : WaitForm) : List Micro := .prim (.waitEntry w.ms) :: pollCode w.sop w.mask

/-- `if wait(...) == TIMEOUT: respond(TIMEOUT, [], 0, 0); stop` (45_facade.md R224, R226, R227). -/
def waitOrStopCode (w : WaitForm) : List Micro := waitCode w ++ [.abortIfTimeout]

end Sys2Proof.Machine
end

