-- ==== Sys2Proof/Machine/DataOps.lean ====
section
/-!
DEFINITION. The meanings of READ, PROGRAM and ERASE (45_facade.md R225, R226, R227).
-/

namespace Sys2Proof.Machine

/-- `PSTAT <- statusRead(OP_RFSR, 1)[0]`, the flag-status read of PROGRAM and ERASE (R226, R227, 92_eei_decisions.md
D13, D14). -/
def flagStatusCode : List Micro := [.frame .opRfsr, .assign .pstat]

/-- READ's pseudocode (R225). -/
def readDataCode (opcode : Byte) (addr : Addr) (len : Nat) : List Micro :=
  [.frame (.callerOpcode opcode (.dataRead addr len)), .prim (.respond .okData)]

/-- PROGRAM's pseudocode (R226). -/
def programCode (opcode : Byte) (addr : Addr) (data : List Byte) : List Micro :=
  .frame .opWren :: (waitOrStopCode waitShort
    ++ .frame (.callerOpcode opcode (.dataProgram addr data)) :: (waitOrStopCode waitShort
    ++ flagStatusCode ++ [.prim (.respond .program)]))

/-- ERASE's pseudocode (R227): both long waits, always in this order. -/
def eraseCode (opcode : Byte) (addr : Addr) : List Micro :=
  .frame .opWren :: (waitOrStopCode waitShort
    ++ .frame (.callerOpcode opcode (.dataErase addr)) :: (waitOrStopCode waitEraseBusy
    ++ waitOrStopCode waitEraseWip ++ flagStatusCode ++ [.prim (.respond .erase)]))

/-- READ (R225): always OK. -/
def execReadData (opcode : Byte) (addr : Addr) (len : Nat) (s : State) : Host.Outcome State Fault Refusal :=
  accept (readRequest opcode addr len) (readDataCode opcode addr len) s

/-- PROGRAM (R226): OK, TIMEOUT or PROGRAM_ERROR. -/
def execProgram (opcode : Byte) (addr : Addr) (data : List Byte) (s : State) :
    Host.Outcome State Fault Refusal :=
  accept (programRequest opcode addr data) (programCode opcode addr data) s

/-- ERASE (R227): OK, with the erase-error flag, or TIMEOUT. -/
def execErase (opcode : Byte) (addr : Addr) (s : State) : Host.Outcome State Fault Refusal :=
  accept (eraseRequest opcode addr) (eraseCode opcode addr) s

end Sys2Proof.Machine
end

