-- ==== Sys2Proof/Machine/Lifecycle.lean ====
section
/-!
DEFINITION. The meanings of OPEN, CLOSE and the reserved tag (45_facade.md R221, R222, R228).
-/

namespace Sys2Proof.Machine

/-- OPEN's pseudocode (R221). -/
def openCode : List Micro :=
  setBitCode .clk false ++ setBitCode .csN true ++ clearCaptureCode
    ++ [.prim (.enWrite enOn), .assign (.life .opened), .prim (.respond .ok)]

/-- CLOSE's pseudocode (R222). -/
def closeCode : List Micro := [.prim (.enWrite enOff), .assign (.life .closed), .prim (.respond .ok)]

/-- OPEN (R221): accepted in either LIFE state. -/
def execHostOpen (s : State) : Host.Outcome State Fault Refusal := accept (bareRequest tagOpen) openCode s

/-- CLOSE (R222): accepted in either LIFE state. -/
def execHostClose (s : State) : Host.Outcome State Fault Refusal := accept (bareRequest tagClose) closeCode s

/-- Reserved op 111 (R228): the request is never accepted; it faults with F_BAD_OP (F_BUSY while BUSY) and performs no
register access. -/
def execReserved (s : State) : Host.Outcome State Fault Refusal := accept (bareRequest tagReserved) [] s

end Sys2Proof.Machine
end

