-- ==== Sys2Proof/Machine/RegisterOps.lean ====
section
/-!
DEFINITION. The meanings of READ_REG and WRITE_REG (45_facade.md R223, R224).
-/

namespace Sys2Proof.Machine

/-- READ_REG's pseudocode (R223). -/
def readRegCode (opcode : Byte) (len : Nat) : List Micro :=
  [.frame (.callerOpcode opcode (.statusRead len)), .prim (.respond .okData)]

/-- WRITE_REG's pseudocode (R224). -/
def writeRegCode (opcode : Byte) (data : List Byte) : List Micro :=
  .frame .opWren :: (waitOrStopCode waitShort
    ++ .frame (.callerOpcode opcode (.regWrite data)) :: (waitOrStopCode waitShort
    ++ [.prim (.respond .ok)]))

/-- READ_REG (R223): always OK. -/
def execReadReg (opcode : Byte) (len : Nat) (s : State) : Host.Outcome State Fault Refusal :=
  accept (readRegRequest opcode len) (readRegCode opcode len) s

/-- WRITE_REG (R224): OK or TIMEOUT. -/
def execWriteReg (opcode : Byte) (data : List Byte) (s : State) : Host.Outcome State Fault Refusal :=
  accept (writeRegRequest opcode data) (writeRegCode opcode data) s

end Sys2Proof.Machine
end

