-- ==== Sys2Proof/Machine/WireCommands.lean ====
section
/-!
DEFINITION. The meanings of the wire commands: the frames the block sends (rows OP_WREN, OP_RDSR, OP_RFSR and
caller_opcode of spec/opcode_table.json). Each starts its transaction; the frame's later primitives are the steps after.
-/

namespace Sys2Proof.Machine

/-- OP_WREN: the write-enable transaction (43_transactions.md R171). -/
def execOpWren (s : State) : Host.Outcome State Fault Refusal := callFrame wrenTxnCode s

/-- OP_RDSR: the one-byte read of the status register, as the W_SHORT and W_EWIP waits poll it (44_busy_poll.md R201). -/
def execOpRdsr (s : State) : Host.Outcome State Fault Refusal := callFrame (statusReadCode rdsrByte 1) s

/-- OP_RFSR: the one-byte read of the flag-status register, as the W_EBUSY wait polls it and as PROGRAM and ERASE read
it (R201, 45_facade.md R226, R227). -/
def execOpRfsr (s : State) : Host.Outcome State Fault Refusal := callFrame (statusReadCode rfsrByte 1) s

/-- A frame whose opcode the request supplies: sent unchanged, neither decoded nor checked (30_encoding.md R89). -/
def execCallerOpcode (opcode : Byte) (shape : FrameShape) (s : State) : Host.Outcome State Fault Refusal :=
  callFrame (shapeCode opcode shape) s

end Sys2Proof.Machine
end

