-- ==== Sys2Proof/Machine/Dispatch.lean ====
section
/-!
DEFINITION. The dispatch: one arm per instruction, each a call of its meaning.
-/

namespace Sys2Proof.Machine

def exec (i : Instr) (s : State) : Host.Outcome State Fault Refusal :=
  match i with
  | .hostOpen => Sys2Proof.Machine.execHostOpen s
  | .hostClose => Sys2Proof.Machine.execHostClose s
  | .readReg opcode len => Sys2Proof.Machine.execReadReg opcode len s
  | .writeReg opcode data => Sys2Proof.Machine.execWriteReg opcode data s
  | .readData opcode addr len => Sys2Proof.Machine.execReadData opcode addr len s
  | .program opcode addr data => Sys2Proof.Machine.execProgram opcode addr data s
  | .erase opcode addr => Sys2Proof.Machine.execErase opcode addr s
  | .reserved => Sys2Proof.Machine.execReserved s
  | .opWren => Sys2Proof.Machine.execOpWren s
  | .opRdsr => Sys2Proof.Machine.execOpRdsr s
  | .opRfsr => Sys2Proof.Machine.execOpRfsr s
  | .callerOpcode opcode shape => Sys2Proof.Machine.execCallerOpcode opcode shape s

end Sys2Proof.Machine
end

