-- ==== Sys2Proof/Machine/Control.lean ====
section
/-!
DEFINITION. One step of the controller, and one step of the host, under the names `step` calls them by.
-/

namespace Sys2Proof.Machine

/-- The controller's step (10_state.md R32): exactly one primitive of the operation in progress. In IDLE it waits for a
request and does nothing (70_reset_and_hazards.md R281). -/
def controllerStep (s : State) : Host.Outcome State Fault Refusal :=
  match s.phase with
  | .prim p :: k => .next (runPrim p k s)
  | .frame i :: k => exec i { s with phase := k }
  | code => .next (settle code s)

/-- The host's step where it offers request `q` (45_facade.md R220): the request is decoded and handed over. -/
def hostStep (q : Request) (s : State) : Host.Outcome State Fault Refusal := exec (decodeRequest q) s

/-- The state with a word of the opcode table about to run. A host request is what the host offers at the very next
step; a wire command is called at the front of the phase, with a host that offers nothing (log entry 10). -/
def placeWord (s : State) (e : Encoded) : State :=
  match e with
  | .hostReq q => { s with host := .script [some q] }
  | .wireFrame f =>
    match (decode (.wireFrame f)).toOption with
    | some i => { s with phase := .frame i :: s.phase, host := .script [] }
    | none => s

/-- A platform reset: "a return to the state of rule R280" (70_reset_and_hazards.md R281). The block's own state is as
at power-on, its parameters and the environment's agents are what they were. No step does this (log entry 13). -/
def platformReset (s : State) : State :=
  { State.reset with
    params := s.params, ctrl := s.params.ctrlPor, device := s.device, time := s.time, host := s.host }

end Sys2Proof.Machine
end

