-- ==== Sys2Proof/Machine/Step.lean ====
section
/-!
DEFINITION. One step of the whole machine: the host's step if it offers a request, the controller's otherwise.
-/

namespace Sys2Proof.Machine

/-- One step (10_state.md R20, R32, R42): none with FAULT set; the host's step where the host offers a request now;
otherwise the controller's. -/
def step (s : State) : Host.Outcome State Fault Refusal :=
  match s.fault with
  | some r => .fault (.stopped r)
  | none =>
    match hostOffer s with
    | some q => hostStep q { s with host := hostNext s }
    | none => controllerStep { s with host := hostNext s }

/-- `s` with the instruction of an opcode-table word placed where the next step runs it (`placeWord`). -/
def State.withFetchWord (s : State) (nbits w : Nat) : State :=
  match tableWord nbits w with
  | some e => placeWord s e
  | none => s

end Sys2Proof.Machine
end

