-- ==== Sys2Proof/Machine/Reference.lean ====
section
/-!
DEFINITION. The procedures of 40_line_access.md to 45_facade.md a second time, each as one function over the state that
follows its pseudocode from end to end: what a statement about a whole procedure, frame, wait or operation compares the
step-by-step machine with. The phase is not theirs. A wait may poll forever (44_busy_poll.md R205), so what contains one
takes a bound on its polls and answers none when the bound is used up.
-/

namespace Sys2Proof.Machine

/-! ### Line access and clock (R120 to R129, R140, R141) -/

/-- `setBit(l, v)` (R120). -/
def refSetBit (l : Line) (v : Bool) (s : State) : State :=
  ctrlWrite (setLine s.params l v s.ctrl) (ctrlRead s)

/-- `dirOutIfNeeded()` (R128). -/
def refDirOut (s : State) : State :=
  if lineOf s.params .dir s.ctrl then ctrlRead s else refSetBit .dir true s

/-- `clockOut()` (R140), and the pulse of `clockIn()`. -/
def refClock (s : State) : State := refSetBit .clk true (refSetBit .clk false s)

/-- The sample of `clockIn()` (R141) and its store in SHIFT[BITIDX] (R151). -/
def refSample (s : State) : State :=
  { dinRead s with shift := putBit s.shift s.bitIdx (dinBit (dinAnswer s)) }

/-! ### Bytes (R150 to R152) -/

/-- The body of `sendByte`'s loop (R150). -/
def refSendBit (i : Fin 8) (s : State) : State :=
  let s := applyAssign (.bitIdx i) s
  refClock (refDirOut (refSetBit .dout (s.shift.getLsbD s.bitIdx) s))

/-- `sendByte(v)` (R150). -/
def refSendByte (v : Byte) (s : State) : State :=
  bitOrder.foldl (fun t i => refSendBit i t) (applyAssign (.shift v) s)

/-- The body of `recvByte`'s loop (R151). -/
def refRecvBit (i : Fin 8) (s : State) : State := refSample (refClock (applyAssign (.bitIdx i) s))

/-- `recvByte()` (R151); its result is SHIFT. -/
def refRecvByte (s : State) : State :=
  bitOrder.foldl (fun t i => refRecvBit i t) (applyAssign (.shift 0x00#8) (refSetBit .dir false s))

/-- `sendByte` of each of `vs`, first to last; `sendAddr(a)` is this of `addrBytes a` (R152). -/
def refSendBytes (vs : List Byte) (s : State) : State := vs.foldl (fun t v => refSendByte v t) s

/-- The payload loop of a sending frame from index `k` on (R172, R174). -/
def refSendPayload : Nat → List Byte → State → State
  | _, [], s => s
  | k, v :: vs, s => refSendPayload (k + 1) vs (refSendByte v (applyAssign (.byteIdx k) s))

/-- The payload loop of a receiving frame, `n` bytes from index `k` on (R170, R173). -/
def refRecvPayload : Nat → Nat → State → State
  | _, 0, s => s
  | k, n + 1, s => refRecvPayload (k + 1) n (applyAssign .pushRbuf (refRecvByte (applyAssign (.byteIdx k) s)))

/-! ### Transactions (R170 to R175) -/

/-- `statusRead(op, n)` (R170); its result is RBUF. -/
def refStatusRead (op : Byte) (n : Nat) (s : State) : State :=
  let s := refSetBit .csN true s
  let s := refSetBit .cap true s
  let s := refSetBit .csN false s
  let s := refSendByte op s
  let s := applyAssign .clearRbuf s
  let s := refRecvPayload 0 n s
  refSetBit .csN true s

/-- `wrenTxn()` (R171). -/
def refWrenTxn (s : State) : State :=
  refSetBit .csN true (refSendByte wrenByte (refSetBit .csN false s))

/-- `regWriteTxn(op, data)` (R172). -/
def refRegWriteTxn (op : Byte) (data : List Byte) (s : State) : State :=
  refSetBit .csN true (refSendPayload 0 data (refSendByte op (refSetBit .csN false s)))

/-- `readTxn(op, a, n)` (R173); its result is RBUF. -/
def refReadTxn (op : Byte) (a : Addr) (n : Nat) (s : State) : State :=
  let s := refSetBit .csN false s
  let s := refSendByte op s
  let s := refSendBytes (addrBytes a) s
  let s := refSetBit .cap true s
  let s := applyAssign .clearRbuf s
  let s := refRecvPayload 0 n s
  refSetBit .csN true s

/-- `progTxn(op, a, data)` (R174). -/
def refProgTxn (op : Byte) (a : Addr) (data : List Byte) (s : State) : State :=
  let s := refSetBit .csN false s
  let s := refSendByte op s
  let s := refSendBytes (addrBytes a) s
  let s := refSendPayload 0 data s
  refSetBit .csN true s

/-- `eraseTxn(op, a)` (R175). -/
def refEraseTxn (op : Byte) (a : Addr) (s : State) : State :=
  let s := refSetBit .csN false s
  let s := refSendByte op s
  let s := refSendBytes (addrBytes a) s
  refSetBit .csN true s

/-- The transaction of a request-supplied opcode, by its shape (R89, R94). -/
def refShape (op : Byte) (shape : FrameShape) (s : State) : State :=
  match shape with
  | .statusRead n => refStatusRead op n s
  | .regWrite data => refRegWriteTxn op data s
  | .dataRead a n => refReadTxn op a n s
  | .dataProgram a data => refProgTxn op a data s
  | .dataErase a => refEraseTxn op a s

/-! ### The busy-poll guard (R200) -/

/-- One poll: PSTAT <- statusRead(sop, 1)[0]. -/
def refPoll (sop : Byte) (s : State) : State := applyAssign .pstat (refStatusRead sop 1 s)

/-- The loop of `wait(sop, mask, _)`, at most `polls` polls; WRES is its result. -/
def refWaitLoop (sop mask : Byte) : Nat → State → Option State
  | 0, _ => none
  | polls + 1, s =>
    let t := refPoll sop s
    if flagClear t.pstat mask then some { t with wres := .ok }
    else if nowAnswer t > t.deadline then some { now t with wres := .timeout }
    else refWaitLoop sop mask polls (now t)

/-- `wait(sop, mask, ms)`, at most `polls` polls (R200). -/
def refWait (polls : Nat) (w : WaitForm) (s : State) : Option State :=
  refWaitLoop w.sop w.mask polls { now s with deadline := nowAnswer s + w.ms }

/-- `if wait(...) == TIMEOUT: respond(TIMEOUT, [], 0, 0); stop`, and otherwise what follows. -/
def refWaitOrStop (polls : Nat) (w : WaitForm) (rest : State → Option State) (s : State) : Option State :=
  match refWait polls w s with
  | none => none
  | some t => if t.wres = .timeout then some (respond .timeout t) else rest t

/-! ### The operations after their acceptance (R221 to R227) -/

/-- OPEN (R221). -/
def refOpen (s : State) : State :=
  let s := refSetBit .clk false s
  let s := refSetBit .csN true s
  let s := refSetBit .cap false s
  let s := enWrite enOn s
  let s := applyAssign (.life .opened) s
  respond .ok s

/-- CLOSE (R222). -/
def refClose (s : State) : State := respond .ok (applyAssign (.life .closed) (enWrite enOff s))

/-- READ_REG (R223). -/
def refReadReg (opcode : Byte) (len : Nat) (s : State) : State := respond .okData (refStatusRead opcode len s)

/-- WRITE_REG (R224). -/
def refWriteReg (polls : Nat) (opcode : Byte) (data : List Byte) (s : State) : Option State :=
  refWaitOrStop polls waitShort (fun s =>
    refWaitOrStop polls waitShort (fun s => some (respond .ok s)) (refRegWriteTxn opcode data s)) (refWrenTxn s)

/-- READ (R225). -/
def refReadData (opcode : Byte) (addr : Addr) (len : Nat) (s : State) : State :=
  respond .okData (refReadTxn opcode addr len s)

/-- PROGRAM (R226). -/
def refProgram (polls : Nat) (opcode : Byte) (addr : Addr) (data : List Byte) (s : State) : Option State :=
  refWaitOrStop polls waitShort (fun s =>
    refWaitOrStop polls waitShort (fun s => some (respond .program (refPoll rfsrByte s)))
      (refProgTxn opcode addr data s)) (refWrenTxn s)

/-- ERASE (R227). -/
def refErase (polls : Nat) (opcode : Byte) (addr : Addr) (s : State) : Option State :=
  refWaitOrStop polls waitShort (fun s =>
    refWaitOrStop polls waitEraseBusy (fun s =>
      refWaitOrStop polls waitEraseWip (fun s => some (respond .erase (refPoll rfsrByte s))) s)
      (refEraseTxn opcode addr s)) (refWrenTxn s)

/-- The operation of a host instruction from its acceptance to its response, each wait at most `polls` polls; none for
the reserved tag, which is never accepted (R228), and for a wire command, which is no operation. -/
def refOperation (polls : Nat) (i : Instr) (s : State) : Option State :=
  match i with
  | .hostOpen => some (refOpen s)
  | .hostClose => some (refClose s)
  | .readReg opcode len => some (refReadReg opcode len s)
  | .writeReg opcode data => refWriteReg polls opcode data s
  | .readData opcode addr len => some (refReadData opcode addr len s)
  | .program opcode addr data => refProgram polls opcode addr data s
  | .erase opcode addr => refErase polls opcode addr s
  | .reserved => none
  | .opWren => none
  | .opRdsr => none
  | .opRfsr => none
  | .callerOpcode _ _ => none

/-- The frame of a wire command from its first primitive to its last; none for a host instruction. -/
def refFrame (i : Instr) (s : State) : Option State :=
  match i with
  | .opWren => some (refWrenTxn s)
  | .opRdsr => some (refStatusRead rdsrByte 1 s)
  | .opRfsr => some (refStatusRead rfsrByte 1 s)
  | .callerOpcode opcode shape => some (refShape opcode shape s)
  | .hostOpen => none
  | .hostClose => none
  | .readReg _ _ => none
  | .writeReg _ _ => none
  | .readData _ _ _ => none
  | .program _ _ _ => none
  | .erase _ _ => none
  | .reserved => none

end Sys2Proof.Machine
end

