-- ==== Sys2Proof/Safety.lean ====
section
/-!
DEFINITION. The terms statements are made in: runs of the step, the host that keeps its obligation, how a run ends
(60_exceptions.md R271), what the device and the bus see of TRACE, and the properties of a state that every step keeps.
-/

namespace Sys2Proof.Machine

/-! ### Runs -/

/-- `n` steps, stopping at the first that has no next state. -/
def stepN : Nat → State → Host.Outcome State Fault Refusal
  | 0, s => .next s
  | n + 1, s =>
    match step s with
    | .next t => stepN n t
    | .fault r => .fault r
    | .refused r => .refused r

/-- Some number of steps leads from `s` to `t`. -/
def Reaches (s t : State) : Prop := ∃ n, stepN n s = .next t

/-- The host keeps R286: it offers the next request only when the previous one has been answered. -/
def SerialHost (s : State) : Prop := ∃ requests, s.host = .serial requests

/-- The block can accept a request now: no fault, and IDLE. -/
def Ready (s : State) : Prop := s.fault = none ∧ s.phase = []

/-- The host of an idle block offers no further request: in IDLE a step without an offer adds nothing to TRACE, so a free
host decides its coming moves by TRACE as it stands. -/
def hostDone (s : State) : Prop :=
  match s.host with
  | .free n => ∀ m, n ≤ m → Config.hostMove m s.trace = none
  | .script moves => ∀ m ∈ moves, m = none
  | .serial requests => requests = []

/-- The run has ended well (60_exceptions.md R271): FAULT = none, phase = IDLE, and the host offers no further request.
-/
def EndedWell (s : State) : Prop := Ready s ∧ hostDone s

/-- An endless run: every step has a next state. -/
def IsRun (run : Nat → State) : Prop := ∀ n, step (run n) = .next (run (n + 1))

/-- A hang: an endless run that from some step on is BUSY for ever (44_busy_poll.md R205, 60_exceptions.md R271). -/
def Hangs (run : Nat → State) : Prop := IsRun run ∧ ∃ n, ∀ m, n ≤ m → (run m).phase ≠ []

/-! ### TRACE as the bus and the device see it -/

/-- The bus address an event accesses (00_scope.md R9, 20_memory.md R60). -/
def busAddress (p : Params) : Event → Option Nat
  | .cr _ => some (regAddress p .ctrl)
  | .cw _ => some (regAddress p .ctrl)
  | .dr _ => some (regAddress p .din)
  | .ew _ => some (regAddress p .en)
  | .req _ => none
  | .tr _ => none
  | .rsp _ => none
  | .flt _ => none

/-- The event is no `CR`: it belongs to the device-visible trace (20_memory.md R62). -/
def isVisible : Event → Bool
  | .cr _ => false
  | .cw _ => true
  | .dr _ => true
  | .ew _ => true
  | .req _ => true
  | .tr _ => true
  | .rsp _ => true
  | .flt _ => true

/-- The `CW` values of a trace, in order: the line states the device sees (20_memory.md R63). -/
def ctrlWrites : List Event → List Byte
  | [] => []
  | .cw v :: es => v :: ctrlWrites es
  | _ :: es => ctrlWrites es

/-- The `DR` values of a trace, in order. -/
def dinReads : List Event → List Byte
  | [] => []
  | .dr v :: es => v :: dinReads es
  | _ :: es => dinReads es

/-- The `CR` values of a trace, in order. -/
def ctrlReads : List Event → List Byte
  | [] => []
  | .cr v :: es => v :: ctrlReads es
  | _ :: es => ctrlReads es

/-- The `EW` values of a trace, in order. -/
def enWrites : List Event → List Byte
  | [] => []
  | .ew v :: es => v :: enWrites es
  | _ :: es => enWrites es

/-- The `TR` answers of a trace, in order. -/
def timeReads : List Event → List Nat
  | [] => []
  | .tr t :: es => t :: timeReads es
  | _ :: es => timeReads es

/-- The fairness assumption of 44_busy_poll.md R205 and 92_eei_decisions.md D9 for an endless run, attributed to the time
source: if the run reads the time again and again, the answers pass every deadline. The model does not assert it; a
statement takes it as a premise (log entry 6). -/
def TimeUnbounded (run : Nat → State) : Prop :=
  (∀ k, ∃ n, k ≤ (timeReads (run n).trace).length) → ∀ deadline, ∃ n, deadline < (run n).time.last

/-- The responses of a trace, in order. -/
def responses : List Event → List Response
  | [] => []
  | .rsp r :: es => r :: responses es
  | _ :: es => responses es

/-- The requests of a trace, in order. -/
def requests : List Event → List Request
  | [] => []
  | .req q :: es => q :: requests es
  | _ :: es => requests es

/-- The values CTRL takes at the rising edges of CLK among the writes `ws`, CTRL being `c` before them: a rising edge is
the write that changes CLK from 0 to 1 (41_bit_clock.md R142). -/
def risingEdges (p : Params) (c : Byte) : List Byte → List Byte
  | [] => []
  | w :: ws =>
    if !lineOf p .clk c && lineOf p .clk w then w :: risingEdges p w ws else risingEdges p w ws

/-- The bits the device latches: DOUT at every rising edge with DIR = 1 (R142, 10_state.md R25). -/
def sentBits (p : Params) (c : Byte) (ws : List Byte) : List Bool :=
  ((risingEdges p c ws).filter (fun w => lineOf p .dir w)).map (fun w => lineOf p .dout w)

/-- How many rising edges have DIR = 0: the bits the device presents (R142). -/
def receivedCount (p : Params) (c : Byte) (ws : List Byte) : Nat :=
  ((risingEdges p c ws).filter (fun w => !lineOf p .dir w)).length

/-- The bits of a byte in wire order, most significant first (30_encoding.md R95). -/
def wireBits (v : Byte) : List Bool := bitOrder.map (fun i : Fin 8 => v.getLsbD i.val)

/-- The byte whose bits arrived in the order `b0 ... b7`, the first the most significant (R97). -/
def byteOfBits (bs : List Bool) : Byte := bs.foldl (fun v b => v <<< 1 ||| (BitVec.ofBool b).setWidth 8) 0x00#8

/-- `n` bytes from the bits of the data line, eight to a byte, in order of arrival (R97). -/
def bytesOfBits : Nat → List Bool → List Byte
  | 0, _ => []
  | n + 1, bs => byteOfBits (bs.take 8) :: bytesOfBits n (bs.drop 8)

/-- The answers of a device that returns the bytes `vs`, one to each receive: eight DinReads a byte, most significant
bit first, bits 7 to 1 of each 0. -/
def deviceAnswers (vs : List Byte) : List Byte :=
  vs.flatMap (fun v => (wireBits v).map (fun b => (BitVec.ofBool b).setWidth 8))

/-! ### What a frame moves and what it leaves -/

/-- `t` differs from `s` in the lines, the byte framer's registers, TRACE and the device only: EN, LAST_EN, LIFE, the
phase, REQ, PSTAT, DEADLINE, WRES, FAULT, time, the host and the parameters are what they were. -/
def OnlyLinesMoved (s t : State) : Prop :=
  t = { s with
    ctrl := t.ctrl, shift := t.shift, bitIdx := t.bitIdx, byteIdx := t.byteIdx, rbuf := t.rbuf,
    trace := t.trace, device := t.device }

/-- `t` differs from `s`, apart from what frames move, in PSTAT, DEADLINE, WRES and time only. -/
def OnlyWaited (s t : State) : Prop :=
  t = { s with
    ctrl := t.ctrl, shift := t.shift, bitIdx := t.bitIdx, byteIdx := t.byteIdx, rbuf := t.rbuf,
    trace := t.trace, device := t.device, pstat := t.pstat, deadline := t.deadline, wres := t.wres,
    time := t.time }

/-- Every pulse among the writes `ws` has the device selected: CS_N = 0 (43_transactions.md R176). -/
def pulsesSelected (p : Params) (c : Byte) (ws : List Byte) : Prop :=
  ∀ w ∈ risingEdges p c ws, lineOf p .csN w = false

/-- The data bits of a list of events: bit 0 of each `DR`, in order (30_encoding.md R97). -/
def dataBits (es : List Event) : List Bool := (dinReads es).map dinBit

/-! ### What every step keeps -/

/-- A read-modify-write of CTRL between its two accesses: the value that was read is still CTRL's value, because the
controller is the only writer (20_memory.md R71). -/
def pendingWriteCurrent (c : Byte) : List Micro → Bool
  | .prim (.setWrite _ _ r) :: _ => r == c
  | _ => true

/-- No item of the phase is the second half of a read-modify-write. -/
def noPendingWrite : List Micro → Bool
  | [] => true
  | .prim (.setWrite _ _ _) :: _ => false
  | _ :: k => noPendingWrite k

/-- A read-modify-write is never torn (R71): at most the next primitive is a pending write, and it is of the value just
read. -/
def RmwWhole (s : State) : Prop :=
  pendingWriteCurrent s.ctrl s.phase = true ∧ noPendingWrite s.phase.tail = true

/-- CTRL holds the last value written to it, and CTRL_POR before the first write (10_state.md R30). -/
def CtrlIsLastWrite (s : State) : Prop :=
  s.ctrl = (ctrlWrites s.trace).getLastD s.params.ctrlPor

/-- The three CTRL bits without a meaning hold CTRL_POR's value (R29). -/
def ReservedBitsKept (s : State) : Prop :=
  s.ctrl &&& reservedMask s.params = s.params.ctrlPor &&& reservedMask s.params

/-- No operation in progress has an EN write of another value than EN_ON and EN_OFF ahead of it (R83). -/
def onlyEnOnOff : List Micro → Bool
  | [] => true
  | .prim (.enWrite v) :: k => (v == enOn || v == enOff) && onlyEnOnOff k
  | _ :: k => onlyEnOnOff k

/-- EN holds LAST_EN once it has been written, LAST_EN is what TRACE says was written last, and only EN_ON and EN_OFF
are ever written (R34, R35, R83). -/
def EnRecorded (s : State) : Prop :=
  s.lastEn = (enWrites s.trace).getLast? ∧ (∀ v, s.lastEn = some v → s.en = v) ∧
    (∀ v ∈ enWrites s.trace, v = enOn ∨ v = enOff) ∧ onlyEnOnOff s.phase = true

/-- The answers of the time source in TRACE never decrease, and none is later than the time source's last (R41). -/
def TimeMonotone (s : State) : Prop :=
  (timeReads s.trace).Pairwise (· ≤ ·) ∧ ∀ t ∈ timeReads s.trace, t ≤ s.time.last

/-- The value a primitive writes to EN, if it writes one. -/
def primEnValue : Prim → Option Byte
  | .setRead _ _ => none
  | .setWrite _ _ _ => none
  | .dataRead => none
  | .dirRead => none
  | .sample => none
  | .enWrite v => some v
  | .waitEntry _ => none
  | .pollTime _ _ => none
  | .respond _ => none

/-- The value an item of the phase writes to EN, if it writes one. -/
def enValue : Micro → Option Byte
  | .assign _ => none
  | .test _ _ => none
  | .abortIfTimeout => none
  | .prim p => primEnValue p
  | .frame _ => none

/-- The value of EN that goes with an assignment to LIFE: EN_ON with OPEN, EN_OFF with CLOSED (10_state.md R36). -/
def assignedEn : Assign → Option Byte
  | .shift _ => none
  | .bitIdx _ => none
  | .byteIdx _ => none
  | .clearRbuf => none
  | .pushRbuf => none
  | .pstat => none
  | .life .opened => some enOn
  | .life .closed => some enOff

/-- The value of EN that goes with an item of the phase, where it assigns LIFE. -/
def lifeEn : Micro → Option Byte
  | .assign a => assignedEn a
  | .test _ _ => none
  | .abortIfTimeout => none
  | .prim _ => none
  | .frame _ => none

/-- An item assigns LIFE exactly where the item before it writes EN, and the value goes with it; `e` is what the item
before the first wrote. -/
def lifeFollowsEn (e : Option Byte) : List Micro → Bool
  | [] => e.isNone
  | m :: k => lifeEn m == e && lifeFollowsEn (enValue m) k

/-- LIFE is OPEN exactly when the last value written to EN is EN_ON (10_state.md R35, R36, 45_facade.md R221, R222). -/
def LifeMatchesEnable (s : State) : Prop :=
  (s.life = .opened ↔ s.lastEn = some enOn) ∧ lifeFollowsEn none s.phase = true

/-- CS_N after a primitive of the phase, given its value before: a `setBit` on CS_N sets it, nothing else writes it
(40_line_access.md R120). -/
def csNAfterPrim (c : Bool) : Prim → Bool
  | .setRead l v => if l = .csN then v else c
  | .setWrite l v _ => if l = .csN then v else c
  | .dataRead => c
  | .dirRead => c
  | .sample => c
  | .enWrite _ => c
  | .waitEntry _ => c
  | .pollTime _ _ => c
  | .respond _ => c

/-- CS_N after an item of the phase: every frame ends with a deselect (43_transactions.md R170 to R176). -/
def csNAfter (c : Bool) : Micro → Bool
  | .assign _ => c
  | .test _ _ => c
  | .abortIfTimeout => c
  | .prim p => csNAfterPrim c p
  | .frame _ => true

/-- The primitives of the phase that ask CS_N = 1: what follows a poll, and a response (R176). -/
def primAsksDeselected : Prim → Bool
  | .setRead _ _ => false
  | .setWrite _ _ _ => false
  | .dataRead => false
  | .dirRead => false
  | .sample => false
  | .enWrite _ => false
  | .waitEntry _ => false
  | .pollTime _ _ => true
  | .respond _ => true

/-- The items of the phase that ask CS_N = 1: the call of a frame, what follows a poll, and a response (R176, R177). -/
def asksDeselected : Micro → Bool
  | .assign _ => false
  | .test _ _ => true
  | .abortIfTimeout => true
  | .prim p => primAsksDeselected p
  | .frame _ => true

/-- CS_N, given its value now, is 1 wherever the phase calls a frame, tests a poll or responds, and where it ends: frames
never interleave, and an operation responds with the device deselected (43_transactions.md R176, R177). -/
def deselectedAtCalls (c : Bool) : List Micro → Bool
  | [] => c
  | m :: k => (!asksDeselected m || c) && deselectedAtCalls (csNAfter c m) k

/-- What the phase of CLOSE may be: it writes no line, so it says nothing about CS_N, and it responds with LIFE = CLOSED
(45_facade.md R222). -/
def closePhase (s : State) : Prop :=
  s.phase = closeCode ∨ (s.phase = [.prim (.respond .ok)] ∧ s.life = .closed) ∨ s.phase = []

/-- Chip-select bracketing as a property of a state (R176): idle and open, the device is deselected; in an operation
other than CLOSE, CS_N is 1 wherever it has to be. -/
def Bracketed (s : State) : Prop :=
  (s.phase = [] → s.life = .opened → lineOf s.params .csN s.ctrl = true) ∧
    (s.req.op = tagClose → closePhase s) ∧
    (s.phase ≠ [] → s.req.op ≠ tagClose → deselectedAtCalls (lineOf s.params .csN s.ctrl) s.phase = true)

/-- The phase of an operation in progress ends with its response (45_facade.md R229). -/
def endsInRespond (k : List Micro) : Bool :=
  match k.getLast? with
  | some (.prim (.respond _)) => true
  | _ => false

/-- Every accepted request is answered exactly once: as long as no fault was raised, TRACE has one response for each
request but the one in progress, and an operation in progress still has its response to give (R229). -/
def AnsweredOnce (s : State) : Prop :=
  s.fault = none →
    (requests s.trace).length = (responses s.trace).length + (if busy s then 1 else 0) ∧
      (s.phase = [] ∨ endsInRespond s.phase = true)

/-- FAULT and TRACE agree: the mark is set exactly when TRACE ends with the `FLT` of its reason, and no other `FLT` is in
TRACE (10_state.md R42, 60_exceptions.md R257). -/
def FaultRecorded (s : State) : Prop :=
  match s.fault with
  | some r => ∃ es, s.trace = es ++ [.flt r] ∧ ∀ r', Event.flt r' ∉ es
  | none => ∀ r', Event.flt r' ∉ s.trace

end Sys2Proof.Machine
end

