-- ==== Sys2Proof/Certificates/Slice0/Obligations.lean ====
section
/-!
DEFINITION. The statements about the machine, each a proposition; the rule of spec/ it comes from stands in its
docstring and in OBLIGATIONS.json.
-/

open Sys2Proof Sys2Proof.Machine

/-! ### Encodings -/

/-- 30_encoding.md R85, R88: words written out from the tables decode to their instructions. -/
def Obligations.TableWordsDecode : Prop :=
  decodeTableWord 8 0b000 = some .hostOpen ∧
    decodeTableWord 8 0b110 = some (.erase 0#8 0#24) ∧
    decodeTableWord 8 0b111 = some .reserved ∧
    decodeFrame { format := .writeEnable, out := [0x06#8], nIn := 0 } = .instr .opWren ∧
    decodeFrame { format := .statusRead, out := [0x05#8], nIn := 1 } = .instr .opRdsr ∧
    decodeTableWord 8 0x70 = some .opRfsr ∧
    decodeFrame { format := .dataRead, out := [0x03#8, 0x01#8, 0x23#8, 0x45#8], nIn := 2 } =
      .instr (.callerOpcode 0x03#8 (.dataRead 0x012345#24 2))

/-- 30_encoding.md R84 to R87, R94: decoding what encoding gives is the instruction again, for every operand; the two
frames that are the same bytes as another row's are in `SharedStatusReadFrames`. -/
def Obligations.DecodeInvertsEncode : Prop :=
  ∀ i : Instr,
    i ≠ .callerOpcode rdsrByte (.statusRead 1) → i ≠ .callerOpcode rfsrByte (.statusRead 1) →
      decode (encode i) = .instr i

/-- 30_encoding.md R89: a request may pass 0x05 or 0x70 as its opcode; the one-byte status read it gets is the same frame
as a poll's, decodes as that row, and runs the same. -/
def Obligations.SharedStatusReadFrames : Prop :=
  decode (encode (.callerOpcode rdsrByte (.statusRead 1))) = .instr .opRdsr ∧
    decode (encode (.callerOpcode rfsrByte (.statusRead 1))) = .instr .opRfsr ∧
    ∀ s : State, exec (.callerOpcode rdsrByte (.statusRead 1)) s = exec .opRdsr s ∧
      exec (.callerOpcode rfsrByte (.statusRead 1)) s = exec .opRfsr s

/-- 30_encoding.md R86: a field an operation does not use has no effect on the trace, the response or anything else of
the host's step. -/
def Obligations.UnusedRequestFieldsIgnored : Prop :=
  ∀ (q q' : Request) (s : State), q.op = q'.op →
    (q.op ∈ [tagReadReg, tagWriteReg, tagRead, tagProgram, tagErase] → q.opcode = q'.opcode) →
    (q.op ∈ [tagRead, tagProgram, tagErase] → q.addr = q'.addr) →
    (q.op ∈ [tagReadReg, tagRead] → q.len = q'.len) →
    (q.op ∈ [tagWriteReg, tagProgram] → q.data = q'.data) →
      hostStep q s = hostStep q' s

/-- 30_encoding.md R96: the three address bytes are `(a >> 16) & 0xFF`, `(a >> 8) & 0xFF`, `a & 0xFF`, in that order, and
no address bit is lost. -/
def Obligations.AddressBytesMostSignificantFirst : Prop :=
  ∀ a : Addr,
    (addrBytes a).map BitVec.toNat = [a.toNat / 65536 % 256, a.toNat / 256 % 256, a.toNat % 256] ∧
      ∀ hi mid lo : Byte, addrBytes a = [hi, mid, lo] → addrOfBytes hi mid lo = a

/-! ### Reset -/

/-- 70_reset_and_hazards.md R280: the power-on state. -/
def Obligations.PowerOnState : Prop :=
  State.reset.life = .closed ∧ State.reset.phase = [] ∧ busy State.reset = false ∧ State.reset.fault = none ∧
    State.reset.trace = [] ∧ State.reset.lastEn = none ∧ State.reset.ctrl = State.reset.params.ctrlPor

/-- 10_state.md R30, R29, R35, R41 and 43_transactions.md R176: the power-on state has every property that each step
keeps. -/
def Obligations.PowerOnMeetsEveryInvariant : Prop :=
  RmwWhole State.reset ∧ CtrlIsLastWrite State.reset ∧ ReservedBitsKept State.reset ∧ EnRecorded State.reset ∧
    TimeMonotone State.reset ∧ Bracketed State.reset ∧ AnsweredOnce State.reset ∧ FaultRecorded State.reset ∧
    LifeMatchesEnable State.reset

/-! ### The step -/

/-- 45_facade.md R220, 60_exceptions.md R266: where the host offers a request, the step is the meaning of the
instruction it decodes to, the host agent (the model's own field, log entry 1) having made its move. -/
def Obligations.StepRunsTheOfferedRequest : Prop :=
  ∀ (s : State) (q : Request), s.fault = none → hostOffer s = some q →
    step s = exec (decodeRequest q) { s with host := hostNext s }

/-- 10_state.md R32: where the host offers nothing and the phase stands at a frame call, the step is the meaning of that
wire command, the rest of the phase behind it. The phase's form and the host agent are the model's (log entries 1, 14
and 15). -/
def Obligations.StepRunsTheCalledFrame : Prop :=
  ∀ (s : State) (i : Instr) (k : List Micro), s.fault = none → hostOffer s = none → s.phase = .frame i :: k →
    step s = exec i { s with phase := k, host := hostNext s }

/-- A placed word of the opcode table is what the next step runs (the model's own layout, log entries 9 and 10). -/
def Obligations.PlacedWordRunsNext : Prop :=
  ∀ (s : State) (w : Nat), s.fault = none → w < 256 →
    ∃ i, decodeTableWord 8 w = some i ∧
      step (s.withFetchWord 8 w) = exec i { s with host := .script [] }

/-- 10_state.md R42, 60_exceptions.md R257: with FAULT set no step is taken and no request is accepted. -/
def Obligations.FaultedBlockTakesNoStep : Prop :=
  ∀ (s : State) (r : FaultReason), s.fault = some r →
    step s = .fault (.stopped r) ∧ ∀ i : Instr, exec i s = .fault (.stopped r)

/-- 10_state.md R32: a step of the controller performs exactly one primitive: it adds exactly one event to TRACE. -/
def Obligations.ControllerStepAddsOneEvent : Prop :=
  ∀ (s : State) (m : Micro) (k : List Micro), s.fault = none → hostOffer s = none → s.phase = m :: k →
    ((∃ p, m = .prim p) ∨ ∃ i f, m = .frame i ∧ encode i = .wireFrame f) →
      ∃ t e, step s = .next t ∧ t.trace = s.trace ++ [e] ∧ ∀ q, e ≠ .req q

/-- 00_scope.md R7, 10_state.md R44: a step changes no parameter and takes no event out of TRACE. -/
def Obligations.StepsExtendTheTrace : Prop :=
  ∀ s t : State, step s = .next t → t.params = s.params ∧ s.trace <+: t.trace

/-- 20_memory.md R66, 45_facade.md R220: as long as FAULT is not set, every step has a next state: no register access
fails, and an offered request is accepted or faults. -/
def Obligations.NoStepFailsWithoutFault : Prop := ∀ s : State, s.fault = none → ∃ t, step s = .next t

/-! ### Request acceptance -/

/-- 45_facade.md R220, 60_exceptions.md R255 to R257: a request that may not be accepted appends `REQ q` and `FLT reason`
with the first reason that holds in the order F_BUSY, F_BAD_OP, F_NOT_OPEN, F_LEN, sets FAULT, and changes nothing else.
That the phase stays as it was after F_BUSY, and how `REQ q` spells a request, are the model's (log entries 8 and 11). -/
def Obligations.FaultsAtAcceptanceInOrder : Prop :=
  ∀ (q : Request) (s : State), s.fault = none →
    let faulted (r : FaultReason) : State :=
      { s with fault := some r, trace := s.trace ++ [.req (usedFields q), .flt r] }
    (s.phase ≠ [] → hostStep q s = .next (faulted .busy)) ∧
    (s.phase = [] → q.op = 0b111#3 → hostStep q s = .next (faulted .badOp)) ∧
    (s.phase = [] → q.op ≠ 0b111#3 → q.op ≠ 0b000#3 → q.op ≠ 0b001#3 → s.life = .closed →
      hostStep q s = .next (faulted .notOpen)) ∧
    (s.phase = [] → s.life = .opened →
      ((q.op = 0b010#3 ∨ q.op = 0b100#3) ∧ q.len > s.params.maxLen ∨
        (q.op = 0b011#3 ∨ q.op = 0b101#3) ∧ q.data.length > s.params.maxLen) →
      hostStep q s = .next (faulted .len))

/-- 45_facade.md R228: the reserved tag faults with F_BAD_OP at acceptance and produces no bus event. Its record in TRACE
has every other field 0 (the model's spelling, log entry 8). -/
def Obligations.ReservedTagFaults : Prop :=
  ∀ s : State, Ready s →
    exec .reserved s =
      .next { s with fault := some .badOp, trace := s.trace ++ [.req (bareRequest 0b111#3), .flt .badOp] }

/-- 45_facade.md R220: a request that passes the checks is entered in REQ and TRACE, and the block is BUSY with its
operation; nothing else changes. The record has the unused fields 0 (log entry 8). -/
def Obligations.AcceptanceChangesOnlyRequestAndPhase : Prop :=
  ∀ (i : Instr) (q : Request) (s : State), Ready s → encode i = .hostReq q → q.op ≠ 0b111#3 →
    (q.op = 0b000#3 ∨ q.op = 0b001#3 ∨ s.life = .opened) → i.WellFormed s.params →
      ∃ t, exec i s = .next t ∧ t.phase ≠ [] ∧
        t = { s with req := q, trace := s.trace ++ [.req q], phase := t.phase }

/-- 43_transactions.md R170 to R175: calling a frame does its first CtrlRead and changes nothing but TRACE and the
phase. -/
def Obligations.FrameCallChangesOnlyTraceAndPhase : Prop :=
  ∀ (i : Instr) (f : Frame) (s : State), s.fault = none → encode i = .wireFrame f →
    ∃ t, exec i s = .next t ∧ t = { s with trace := s.trace ++ [.cr s.ctrl], phase := t.phase }

/-! ### Line access, clock and bytes -/

/-- 20_memory.md R60, 30_encoding.md R80: CTRL, DIN and EN are at BASE + 0x0, BASE + 0x4 and BASE + 0x8, and every register
access of a step goes to one of the three. -/
def Obligations.AccessesGoToTheThreeRegisters : Prop :=
  ∀ p : Params,
    (∀ v, busAddress p (.cr v) = some (p.base + 0x0) ∧ busAddress p (.cw v) = some (p.base + 0x0) ∧
      busAddress p (.dr v) = some (p.base + 0x4) ∧ busAddress p (.ew v) = some (p.base + 0x8)) ∧
    ∀ e a, busAddress p e = some a → a ∈ [p.base + 0x0, p.base + 0x4, p.base + 0x8]

/-- 40_line_access.md R120: of the bits of CTRL only the named line's can differ, and it has the given value. -/
def Obligations.SetLineSetsOneBit : Prop :=
  ∀ (p : Params) (l : Line) (v : Bool) (r : Byte) (n : Nat), n < 8 →
    (setLine p l v r).getLsbD n = if n = lineIndex p l then v else r.getLsbD n

/-- 40_line_access.md R120, 20_memory.md R63: `setBit` is one CtrlRead and then one CtrlWrite of the full byte, made even
when it changes nothing. What the device field does at a write is the model's (log entry 4). -/
def Obligations.SetBitReadsThenWrites : Prop :=
  ∀ (l : Line) (v : Bool) (k : List Micro) (s : State), s.fault = none → SerialHost s →
    s.phase = .prim (.setRead l v) :: k →
      let c := setLine s.params l v s.ctrl
      stepN 2 s = .next (settle k
        { s with
          ctrl := c, trace := s.trace ++ [.cr s.ctrl, .cw c]
          device := deviceAfterWrite s.params s.ctrl c s.device })

/-- 40_line_access.md R128: with DIR = 1 `dirOutIfNeeded` is a CtrlRead only; with DIR = 0 it is a CtrlRead and the
CtrlWrite of `r | DIR`. What the device field does at a write is the model's (log entry 4). -/
def Obligations.DirectionSwitchedOnlyIfNeeded : Prop :=
  ∀ (k : List Micro) (s : State), s.fault = none → SerialHost s → s.phase = .prim .dirRead :: k →
    (s.ctrl.getLsbD 1 = true → stepN 1 s = .next (settle k { s with trace := s.trace ++ [.cr s.ctrl] })) ∧
    (s.ctrl.getLsbD 1 = false →
      let c := s.ctrl ||| 0x02#8
      stepN 2 s = .next (settle k
        { s with
          ctrl := c, trace := s.trace ++ [.cr s.ctrl, .cw c]
          device := deviceAfterWrite s.params s.ctrl c s.device }))

/-- 41_bit_clock.md R140: a pulse is `CR, CW, CR, CW`, the first write with CLK = 0, the second with CLK = 1, every other
bit kept: exactly one rising edge, whatever CLK was. -/
def Obligations.ClockPulseIsOneRisingEdge : Prop :=
  ∀ (k : List Micro) (s : State), s.fault = none → SerialHost s →
    ∃ t, Reaches (settle (clockOutCode ++ k) s) (settle k t) ∧ OnlyLinesMoved s t ∧
      (let low := s.ctrl &&& 0xFE#8
       let high := low ||| 0x01#8
       t.ctrl = high ∧ t.trace = s.trace ++ [.cr s.ctrl, .cw low, .cr low, .cw high] ∧
         risingEdges s.params s.ctrl [low, high] = [high])

/-- 41_bit_clock.md R141, 42_byte_framer.md R151: one input bit is a pulse and then exactly one DinRead, whose bit 0 goes
to SHIFT[BITIDX] and nowhere else. -/
def Obligations.ClockInSamplesOnce : Prop :=
  ∀ (k : List Micro) (s : State), s.fault = none → SerialHost s →
    ∃ t d, Reaches (settle (clockInCode ++ k) s) (settle k t) ∧ OnlyLinesMoved s t ∧
      (let low := s.ctrl &&& 0xFE#8
       let high := low ||| 0x01#8
       t.ctrl = high ∧ t.trace = s.trace ++ [.cr s.ctrl, .cw low, .cr low, .cw high, .dr d] ∧
         ∀ n, n < 8 → t.shift.getLsbD n = if n = s.bitIdx.val then d.getLsbD 0 else s.shift.getLsbD n)

/-- 42_byte_framer.md R150, 30_encoding.md R95: `sendByte(v)` puts the bits of `v` on the wire most significant first,
one rising edge each with DIR = 1; 32 CR, 24 or 25 CW by DIR on entry, no DR; it leaves CLK = 1, DIR = 1, DOUT = v[0] and
CS_N and CAP as they were. -/
def Obligations.SendByteIsMostSignificantBitFirst : Prop :=
  ∀ (v : Byte) (k : List Micro) (s : State), s.fault = none → SerialHost s →
    ∃ t es, Reaches (settle (sendByteCode v ++ k) s) (settle k t) ∧ OnlyLinesMoved s t ∧
      t.trace = s.trace ++ es ∧
      sentBits s.params s.ctrl (ctrlWrites es) = wireBits v ∧
      receivedCount s.params s.ctrl (ctrlWrites es) = 0 ∧ dinReads es = [] ∧
      (ctrlReads es).length = 32 ∧
      (ctrlWrites es).length = (if lineOf s.params .dir s.ctrl then 24 else 25) ∧
      lineOf s.params .clk t.ctrl = true ∧ lineOf s.params .dir t.ctrl = true ∧
      lineOf s.params .dout t.ctrl = v.getLsbD 0 ∧
      lineOf s.params .csN t.ctrl = lineOf s.params .csN s.ctrl ∧
      lineOf s.params .cap t.ctrl = lineOf s.params .cap s.ctrl

/-- 42_byte_framer.md R151, 30_encoding.md R97: `recvByte()` gives the byte whose bits are bit 0 of the eight DinReads,
the first the most significant; 17 CR, 17 CW, 8 DR, eight pulses with DIR = 0; it leaves CLK = 1, DIR = 0 and DOUT, CS_N
and CAP as they were. -/
def Obligations.RecvByteIsMostSignificantBitFirst : Prop :=
  ∀ (k : List Micro) (s : State), s.fault = none → SerialHost s →
    ∃ t es, Reaches (settle (recvByteCode ++ k) s) (settle k t) ∧ OnlyLinesMoved s t ∧
      t.trace = s.trace ++ es ∧
      t.shift = byteOfBits (dataBits es) ∧
      sentBits s.params s.ctrl (ctrlWrites es) = [] ∧ receivedCount s.params s.ctrl (ctrlWrites es) = 8 ∧
      (dinReads es).length = 8 ∧ (ctrlReads es).length = 17 ∧ (ctrlWrites es).length = 17 ∧
      lineOf s.params .clk t.ctrl = true ∧ lineOf s.params .dir t.ctrl = false ∧
      lineOf s.params .dout t.ctrl = lineOf s.params .dout s.ctrl ∧
      lineOf s.params .csN t.ctrl = lineOf s.params .csN s.ctrl ∧
      lineOf s.params .cap t.ctrl = lineOf s.params .cap s.ctrl

/-- 42_byte_framer.md R152: `sendAddr(a)` sends a[23:16], a[15:8], a[7:0]; 96 CR, and 72 CW when DIR = 1 on entry. -/
def Obligations.SendAddrIsMostSignificantByteFirst : Prop :=
  ∀ (a : Addr) (k : List Micro) (s : State), s.fault = none → SerialHost s →
    ∃ t es, Reaches (settle (sendAddrCode a ++ k) s) (settle k t) ∧ OnlyLinesMoved s t ∧
      t.trace = s.trace ++ es ∧
      sentBits s.params s.ctrl (ctrlWrites es) =
        wireBits (a.extractLsb' 16 8) ++ wireBits (a.extractLsb' 8 8) ++ wireBits (a.extractLsb' 0 8) ∧
      dinReads es = [] ∧ (ctrlReads es).length = 96 ∧
      (ctrlWrites es).length = (if lineOf s.params .dir s.ctrl then 72 else 73)

/-- 42_byte_framer.md R154: under the reference loopback device, `recvByte()` after `sendByte(b)` returns `b`, whatever
the shift register held and whatever the lines were. -/
def Obligations.LoopbackReturnsTheByteSent : Prop :=
  ∀ (b l : Byte) (x : Bool) (k : List Micro) (s : State), s.fault = none → SerialHost s →
    s.device = .loopback l x →
      ∃ t, Reaches (settle (sendByteCode b ++ (recvByteCode ++ k)) s) (settle k t) ∧ t.shift = b

/-! ### Frames -/

/-- 30_encoding.md R93 to R97, 43_transactions.md R176: the frame of every wire command runs to its end; between its
select and its deselect the device latches exactly the bytes of its encoding, in order, and presents eight bits for each
byte in; CS_N is 0 at every pulse and 1 at the end, CLK is 1; the received bytes are in RBUF; and nothing but the lines,
the framer's registers, TRACE and the device has moved. -/
def Obligations.FramesCarryTheirEncoding : Prop :=
  ∀ (i : Instr) (f : Frame) (k : List Micro) (s : State), s.fault = none → SerialHost s →
    encode i = .wireFrame f →
      ∃ u t es, exec i { s with phase := k } = .next u ∧ Reaches u (settle k t) ∧ OnlyLinesMoved s t ∧
        t.trace = s.trace ++ es ∧
        sentBits s.params s.ctrl (ctrlWrites es) = f.out.flatMap wireBits ∧
        receivedCount s.params s.ctrl (ctrlWrites es) = 8 * f.nIn ∧
        (dinReads es).length = 8 * f.nIn ∧
        pulsesSelected s.params s.ctrl (ctrlWrites es) ∧
        lineOf s.params .csN t.ctrl = true ∧ lineOf s.params .clk t.ctrl = true ∧
        (f.format = .statusRead ∨ f.format = .dataRead → t.rbuf = bytesOfBits f.nIn (dataBits es)) ∧
        (f.format ≠ .statusRead → f.format ≠ .dataRead → t.rbuf = s.rbuf)

/-- 43_transactions.md R170 to R175, R178, 70_reset_and_hazards.md R291, R296: the `CR` and `CW` counts of each shape, `CW`
one more when DIR = 0 on entry; and the status read and the data read leave CAP = 1, every other shape leaves CAP as it
was: none clears it. -/
def Obligations.FrameCountsAndCapture : Prop :=
  ∀ (i : Instr) (f : Frame) (k : List Micro) (s : State), s.fault = none → SerialHost s →
    encode i = .wireFrame f →
      ∃ u t es, exec i { s with phase := k } = .next u ∧ Reaches u (settle k t) ∧ t.trace = s.trace ++ es ∧
        (let own := match f.format with
          | .statusRead => 4
          | .dataRead => 3
          | .writeEnable => 2
          | .registerWrite => 2
          | .dataProgram => 2
          | .erase => 2
         (ctrlReads es).length = own + 32 * f.out.length + 17 * f.nIn ∧
           (ctrlWrites es).length =
             own + 24 * f.out.length + 17 * f.nIn + (if lineOf s.params .dir s.ctrl then 0 else 1)) ∧
        lineOf s.params .cap t.ctrl =
          (if f.format = .statusRead ∨ f.format = .dataRead then true else lineOf s.params .cap s.ctrl)

/-! ### The busy-poll guard -/

/-- 44_busy_poll.md R200: after a poll, a clear flag gives OK whatever the time is; a set flag makes the wait read the
time, and then it is TIMEOUT exactly when the time is later than DEADLINE, and another poll otherwise. -/
def Obligations.PollTestsThenReadsTime : Prop :=
  ∀ (sop mask : Byte) (k : List Micro) (s : State), s.fault = none → SerialHost s →
    (s.pstat &&& mask = 0x00#8 → settle (.test sop mask :: k) s = settle k { s with wres := .ok }) ∧
    (s.pstat &&& mask ≠ 0x00#8 →
      stepN 1 (settle (.test sop mask :: k) s) =
        .next (if nowAnswer s > s.deadline then settle k { now s with wres := .timeout }
          else settle (pollCode sop mask ++ k) (now s)))

/-- 44_busy_poll.md R200: the wait the machine runs is the wait of the pseudocode, for every operand, however many polls
it makes. -/
def Obligations.WaitFollowsItsPseudocode : Prop :=
  ∀ (polls : Nat) (w : WaitForm) (k : List Micro) (s t : State), s.fault = none → SerialHost s →
    refWait polls w s = some t → Reaches (settle (waitCode w ++ k) s) (settle k t) ∧ OnlyWaited s t

/-- 44_busy_poll.md R200, R203: a wait reads the time at its entry and after each poll that found the flag set; TIMEOUT
comes at the first of these that is later than the entry's plus `ms`, never before; with OK none was later and the last
byte polled has the flag clear. -/
def Obligations.TimeoutAtTheFirstTimePastTheDeadline : Prop :=
  ∀ (polls : Nat) (w : WaitForm) (s t : State), refWait polls w s = some t →
    ∃ es t0 ts, t.trace = s.trace ++ es ∧ timeReads es = t0 :: ts ∧ t.deadline = t0 + w.ms ∧
      (t.wres = .timeout → ∃ before last, ts = before ++ [last] ∧ last > t0 + w.ms ∧ ∀ x ∈ before, x ≤ t0 + w.ms) ∧
      (t.wres = .ok → (t.pstat &&& w.mask = 0x00#8) ∧ ∀ x ∈ ts, x ≤ t0 + w.ms)

/-- 44_busy_poll.md R203, R205: a wait ends once time passes its deadline: where the advances after its entry add up to
more than `ms`, it makes at most that many polls. -/
def Obligations.WaitEndsWhenTimePassesTheDeadline : Prop :=
  ∀ (w : WaitForm) (s : State) (a : Nat) (advances later : List Nat),
    s.time.advances = a :: (advances ++ later) → advances.sum > w.ms →
      ∃ t, refWait advances.length w s = some t

/-- 44_busy_poll.md R205: a wait ends once the device answers a byte with the flag clear, after as many polls. -/
def Obligations.WaitEndsWhenTheFlagClears : Prop :=
  ∀ (w : WaitForm) (s : State) (busyBytes later : List Byte) (last : Byte),
    s.device = .scripted (deviceAnswers (busyBytes ++ [last]) ++ later) → last &&& w.mask = 0x00#8 →
      ∃ t, refWait (busyBytes.length + 1) w s = some t

/-! ### The operations -/

/-- 45_facade.md R221: OPEN, from acceptance to response. `REQ` has the unused fields 0 (log entry 8). -/
def Obligations.OpenCompletes : Prop :=
  ∀ s : State, Ready s → SerialHost s →
    ∃ u, exec .hostOpen s = .next u ∧
      (let c1 := s.ctrl &&& 0xFE#8
       let c2 := c1 ||| 0x04#8
       let c3 := c2 &&& 0xF7#8
       ∃ t, Reaches u t ∧ t.ctrl = c3 ∧ t.en = 0x01#8 ∧ t.lastEn = some 0x01#8 ∧ t.life = .opened ∧ Ready t ∧
         t.trace = s.trace ++
           [.req (bareRequest 0b000#3), .cr s.ctrl, .cw c1, .cr c1, .cw c2, .cr c2, .cw c3, .ew 0x01#8,
             .rsp { status := .ok, rdata := [], count := 0, eerr := false }] ∧
         t = { s with
           ctrl := t.ctrl, en := t.en, lastEn := t.lastEn, life := t.life, req := bareRequest 0b000#3, trace := t.trace
           device := t.device })

/-- 45_facade.md R222: CLOSE, from acceptance to response; CTRL keeps its value. `REQ` has the unused fields 0 (log entry
8). -/
def Obligations.CloseCompletes : Prop :=
  ∀ s : State, Ready s → SerialHost s →
    ∃ u, exec .hostClose s = .next u ∧
      Reaches u
        { s with
          en := 0x00#8, lastEn := some 0x00#8, life := .closed, req := bareRequest 0b001#3
          trace := s.trace ++
            [.req (bareRequest 0b001#3), .ew 0x00#8,
              .rsp { status := .ok, rdata := [], count := 0, eerr := false }] }

/-- 45_facade.md R223: READ_REG completes with OK for every device: the frame `opcode` goes out, `len` bytes come in, and
the response carries them. -/
def Obligations.ReadRegCompletes : Prop :=
  ∀ (opcode : Byte) (len : Nat) (s : State), Ready s → SerialHost s → s.life = .opened → len ≤ s.params.maxLen →
    ∃ u t es, exec (.readReg opcode len) s = .next u ∧ Reaches u t ∧ Ready t ∧
      t.trace = s.trace ++ (.req (readRegRequest opcode len) :: (es ++
        [.rsp { status := .ok, rdata := bytesOfBits len (dataBits es), count := 0, eerr := false }])) ∧
      sentBits s.params s.ctrl (ctrlWrites es) = wireBits opcode ∧
      (dinReads es).length = 8 * len ∧ timeReads es = [] ∧ responses es = [] ∧
      lineOf s.params .csN t.ctrl = true ∧ lineOf s.params .cap t.ctrl = true ∧
      OnlyLinesMoved { s with req := readRegRequest opcode len } t

/-- 45_facade.md R225: READ completes with OK for every device: opcode and address go out, `len` bytes come in, no time
is read. -/
def Obligations.ReadCompletes : Prop :=
  ∀ (opcode : Byte) (addr : Addr) (len : Nat) (s : State), Ready s → SerialHost s → s.life = .opened →
    len ≤ s.params.maxLen →
    ∃ u t es, exec (.readData opcode addr len) s = .next u ∧ Reaches u t ∧ Ready t ∧
      t.trace = s.trace ++ (.req (readRequest opcode addr len) :: (es ++
        [.rsp { status := .ok, rdata := bytesOfBits len (dataBits es), count := 0, eerr := false }])) ∧
      sentBits s.params s.ctrl (ctrlWrites es) = (opcode :: addrBytes addr).flatMap wireBits ∧
      (dinReads es).length = 8 * len ∧ timeReads es = [] ∧ responses es = [] ∧
      lineOf s.params .csN t.ctrl = true ∧ lineOf s.params .cap t.ctrl = true ∧
      OnlyLinesMoved { s with req := readRequest opcode addr len } t

/-- 45_facade.md R221 to R227: every operation the machine accepts runs as its pseudocode says, from acceptance to its
one response, whatever the device and the time source answer. -/
def Obligations.OperationsFollowTheirPseudocode : Prop :=
  ∀ (polls : Nat) (i : Instr) (q : Request) (s t : State), Ready s → SerialHost s → encode i = .hostReq q →
    acceptFault q s = none →
    refOperation polls i { s with req := q, trace := s.trace ++ [.req q] } = some t →
      ∃ u, exec i s = .next u ∧ Reaches u t ∧ Ready t

/-- 45_facade.md R223 to R227, R229: whatever its outcome, a data operation ends with EN, LAST_EN, LIFE, FAULT, the
parameters and the host as they were; READ_REG and READ read no time and poll nothing. -/
def Obligations.DataOperationsFrame : Prop :=
  ∀ (polls : Nat) (i : Instr) (q : Request) (s t : State), Ready s → SerialHost s → encode i = .hostReq q →
    acceptFault q s = none → q.op ∉ [0b000#3, 0b001#3] →
    refOperation polls i { s with req := q, trace := s.trace ++ [.req q] } = some t →
      ∃ u, exec i s = .next u ∧ Reaches u t ∧ OnlyWaited { s with req := q } t ∧
        (q.op ∈ [0b010#3, 0b100#3] → OnlyLinesMoved { s with req := q } t)

/-- 44_busy_poll.md R205, 45_facade.md R229: under the fairness assumption on the time source, every accepted operation
responds, once, whatever the device answers, and the block is IDLE again. -/
def Obligations.EveryOperationResponds : Prop :=
  ∀ (i : Instr) (q : Request) (s : State) (run : Nat → State), Ready s → SerialHost s → encode i = .hostReq q →
    acceptFault q s = none → exec i s = .next (run 0) → IsRun run → TimeUnbounded run →
      ∃ n es r, Ready (run n) ∧ (run n).trace = s.trace ++ (.req q :: (es ++ [.rsp r])) ∧ responses es = []

/-- 70_reset_and_hazards.md R285: OPEN after OPEN, and CLOSE after CLOSE, leave every register as one of them does. -/
def Obligations.OpenAndCloseAreIdempotent : Prop :=
  ∀ (i : Instr) (s : State), i ∈ [.hostOpen, .hostClose] → Ready s → SerialHost s →
    ∃ u t u' t', exec i s = .next u ∧ Reaches u t ∧ Ready t ∧ exec i t = .next u' ∧ Reaches u' t' ∧
      t' = { t with trace := t'.trace, device := t'.device }

/-- 45_facade.md R224: WRITE_REG where the device is found idle by the first poll of each wait: write-enable, poll,
register write, poll, OK. -/
def Obligations.WriteRegCompletes : Prop :=
  ∀ (opcode : Byte) (data : List Byte) (sr1 sr2 : Byte) (later : List Byte) (s : State),
    Ready s → SerialHost s → s.life = .opened → data.length ≤ s.params.maxLen →
    s.device = .scripted (deviceAnswers [sr1, sr2] ++ later) → sr1.getLsbD 0 = false → sr2.getLsbD 0 = false →
      ∃ u t es, exec (.writeReg opcode data) s = .next u ∧ Reaches u t ∧ Ready t ∧
        t.trace = s.trace ++ (.req (writeRegRequest opcode data) :: (es ++
          [.rsp { status := .ok, rdata := [], count := 0, eerr := false }])) ∧
        sentBits s.params s.ctrl (ctrlWrites es) =
          ([0x06#8, 0x05#8, opcode] ++ data ++ [0x05#8]).flatMap wireBits ∧
        (timeReads es).length = 2 ∧ responses es = [] ∧ lineOf s.params .csN t.ctrl = true ∧
        OnlyWaited { s with req := writeRegRequest opcode data } t ∧ t.device = .scripted later

/-- 45_facade.md R226, 60_exceptions.md R252: PROGRAM where each wait ends at its first poll: write-enable, poll, program
frame, poll, one flag-status read; PROGRAM_ERROR with count 0 if its bit 4 is 1, OK with the payload's length if it is 0.
-/
def Obligations.ProgramCompletes : Prop :=
  ∀ (opcode : Byte) (addr : Addr) (data : List Byte) (sr1 sr2 fsr : Byte) (later : List Byte) (s : State),
    Ready s → SerialHost s → s.life = .opened → data.length ≤ s.params.maxLen →
    s.device = .scripted (deviceAnswers [sr1, sr2, fsr] ++ later) →
    sr1.getLsbD 0 = false → sr2.getLsbD 0 = false →
      ∃ u t es, exec (.program opcode addr data) s = .next u ∧ Reaches u t ∧ Ready t ∧
        t.trace = s.trace ++ (.req (programRequest opcode addr data) :: (es ++
          [.rsp (if fsr.getLsbD 4 then { status := .programError, rdata := [], count := 0, eerr := false }
            else { status := .ok, rdata := [], count := data.length, eerr := false })])) ∧
        sentBits s.params s.ctrl (ctrlWrites es) =
          ([0x06#8, 0x05#8, opcode] ++ addrBytes addr ++ data ++ [0x05#8, 0x70#8]).flatMap wireBits ∧
        (timeReads es).length = 2 ∧ responses es = [] ∧ lineOf s.params .csN t.ctrl = true ∧
        OnlyWaited { s with req := programRequest opcode addr data } t

/-- 45_facade.md R227, 60_exceptions.md R253: ERASE where each of its three waits ends at its first poll: write-enable,
poll of SR, erase frame, poll of FSR bit 7, poll of SR bit 0, one flag-status read, and OK with its bit 5 as the
erase-error flag. -/
def Obligations.EraseCompletes : Prop :=
  ∀ (opcode : Byte) (addr : Addr) (sr1 busyByte sr2 fsr : Byte) (later : List Byte) (s : State),
    Ready s → SerialHost s → s.life = .opened →
    s.device = .scripted (deviceAnswers [sr1, busyByte, sr2, fsr] ++ later) →
    sr1.getLsbD 0 = false → busyByte.getLsbD 7 = false → sr2.getLsbD 0 = false →
      ∃ u t es, exec (.erase opcode addr) s = .next u ∧ Reaches u t ∧ Ready t ∧
        t.trace = s.trace ++ (.req (eraseRequest opcode addr) :: (es ++
          [.rsp { status := .ok, rdata := [], count := 0, eerr := fsr.getLsbD 5 }])) ∧
        sentBits s.params s.ctrl (ctrlWrites es) =
          ([0x06#8, 0x05#8, opcode] ++ addrBytes addr ++ [0x70#8, 0x05#8, 0x70#8]).flatMap wireBits ∧
        (timeReads es).length = 3 ∧ responses es = [] ∧ lineOf s.params .csN t.ctrl = true ∧
        OnlyWaited { s with req := eraseRequest opcode addr } t

/-- 60_exceptions.md R251, R258: where the first wait finds WORK_IN_PROGRESS set and the time read after that poll is more
than 50 ms past the wait's entry, WRITE_REG, PROGRAM and ERASE respond TIMEOUT at once: the write-enable frame and one
poll are all that went out, and CS_N is 1. -/
def Obligations.FirstWaitTimeoutEndsTheOperation : Prop :=
  ∀ (i : Instr) (q : Request) (sr : Byte) (later : List Byte) (a b : Nat) (advances : List Nat) (s : State),
    Ready s → SerialHost s → s.life = .opened → encode i = .hostReq q →
    q.op ∈ [0b011#3, 0b101#3, 0b110#3] → i.WellFormed s.params →
    s.device = .scripted (deviceAnswers [sr] ++ later) → sr.getLsbD 0 = true →
    s.time.advances = a :: b :: advances → b > 50 →
      ∃ u t es, exec i s = .next u ∧ Reaches u t ∧ Ready t ∧
        t.trace = s.trace ++ (.req q :: (es ++
          [.rsp { status := .timeout, rdata := [], count := 0, eerr := false }])) ∧
        sentBits s.params s.ctrl (ctrlWrites es) = [0x06#8, 0x05#8].flatMap wireBits ∧
        timeReads es = [s.time.last + a, s.time.last + a + b] ∧ responses es = [] ∧
        lineOf s.params .csN t.ctrl = true ∧ OnlyWaited { s with req := q } t

/-! ### What every step keeps -/

/-- 20_memory.md R71: no step tears a read-modify-write of CTRL. -/
def Obligations.EveryStepKeepsRmwWhole : Prop :=
  ∀ s t : State, RmwWhole s → step s = .next t → RmwWhole t

/-- 10_state.md R30: CTRL holds the last value written to it, or CTRL_POR. -/
def Obligations.EveryStepKeepsCtrlLastWrite : Prop :=
  ∀ s t : State, CtrlIsLastWrite s → step s = .next t → CtrlIsLastWrite t

/-- 10_state.md R29: the three CTRL bits without a meaning hold CTRL_POR's value forever. -/
def Obligations.EveryStepKeepsReservedBits : Prop :=
  ∀ s t : State, RmwWhole s → ReservedBitsKept s → step s = .next t → ReservedBitsKept t

/-- 10_state.md R34, R35, 30_encoding.md R83: EN and LAST_EN hold the last EnWrite of TRACE, and only 0x01 and 0x00 are
ever written. -/
def Obligations.EveryStepKeepsEnRecorded : Prop :=
  ∀ s t : State, EnRecorded s → step s = .next t → EnRecorded t

/-- 10_state.md R41: the answers of the time source never decrease. -/
def Obligations.EveryStepKeepsTimeMonotone : Prop :=
  ∀ s t : State, TimeMonotone s → step s = .next t → TimeMonotone t

/-- 10_state.md R35, R36, 45_facade.md R221, R222: LIFE is OPEN exactly when the last value written to EN is EN_ON. -/
def Obligations.EveryStepKeepsLifeMatchesEnable : Prop :=
  ∀ s t : State, LifeMatchesEnable s → step s = .next t → LifeMatchesEnable t

/-- 40_line_access.md R120, 41_bit_clock.md R143: a line changes only by the CtrlWrite of a `setBit` on it, which gives it
its value. -/
def Obligations.LinesChangeOnlyBySetBit : Prop :=
  ∀ (s t : State) (l : Line), RmwWhole s → step s = .next t →
    lineOf s.params l t.ctrl ≠ lineOf s.params l s.ctrl →
      ∃ v r k, s.phase = .prim (.setWrite l v r) :: k ∧ lineOf s.params l t.ctrl = v ∧
        t.trace = s.trace ++ [.cw t.ctrl]

/-- 43_transactions.md R176, R177: chip-select bracketing, for every host, device and time source. -/
def Obligations.EveryStepKeepsBracketing : Prop :=
  ∀ s t : State, RmwWhole s → Bracketed s → step s = .next t → Bracketed t

/-- 43_transactions.md R176: whenever an operation other than CLOSE responds, with TIMEOUT too, CS_N = 1. -/
def Obligations.RespondsWithDeviceDeselected : Prop :=
  ∀ (s t : State) (r : Response), Bracketed s → s.req.op ≠ 0b001#3 → step s = .next t →
    t.trace = s.trace ++ [.rsp r] → lineOf t.params .csN t.ctrl = true ∧ t.phase = []

/-- 45_facade.md R229: every accepted request is answered exactly once. -/
def Obligations.EveryStepKeepsAnsweredOnce : Prop :=
  ∀ s t : State, AnsweredOnce s → step s = .next t → AnsweredOnce t

/-- 10_state.md R42, 60_exceptions.md R257: FAULT is set exactly when TRACE ends with its `FLT`. -/
def Obligations.EveryStepKeepsFaultRecorded : Prop :=
  ∀ s t : State, FaultRecorded s → step s = .next t → FaultRecorded t

/-- 20_memory.md R65, 45_facade.md R222: a step that writes no EN leaves EN and LAST_EN alone, and one that writes it
leaves the value written in both: after a CLOSE, LAST_EN = 0x00 whatever ran since OPEN. -/
def Obligations.EnChangesOnlyByEnWrite : Prop :=
  ∀ s t : State, step s = .next t →
    (t.en = s.en ∧ t.lastEn = s.lastEn ∧ enWrites t.trace = enWrites s.trace) ∨
      ∃ v, t.en = v ∧ t.lastEn = some v ∧ t.trace = s.trace ++ [.ew v]

/-- 10_state.md R42, R45, 60_exceptions.md R255: a fault is raised only at request acceptance, so a step in which no
request is offered raises none. -/
def Obligations.FaultsOnlyAtAcceptance : Prop :=
  ∀ s t : State, step s = .next t → hostOffer s = none → (∀ i k, s.phase = .frame i :: k → ∃ f, encode i = .wireFrame f) →
    t.fault = none
end

