-- ==== Sys2Proof/Laws/State.lean ====
section
/-!
SUPPORT. What each shared operation does to each field of State, one lemma a field, so that no later proof unfolds a
record update.
-/

namespace Sys2Proof.Machine

variable (s : State)

/-! ### emit -/

@[simp] theorem emit_params (e : Event) : (emit e s).params = s.params := rfl
@[simp] theorem emit_ctrl (e : Event) : (emit e s).ctrl = s.ctrl := rfl
@[simp] theorem emit_en (e : Event) : (emit e s).en = s.en := rfl
@[simp] theorem emit_lastEn (e : Event) : (emit e s).lastEn = s.lastEn := rfl
@[simp] theorem emit_life (e : Event) : (emit e s).life = s.life := rfl
@[simp] theorem emit_phase (e : Event) : (emit e s).phase = s.phase := rfl
@[simp] theorem emit_req (e : Event) : (emit e s).req = s.req := rfl
@[simp] theorem emit_shift (e : Event) : (emit e s).shift = s.shift := rfl
@[simp] theorem emit_bitIdx (e : Event) : (emit e s).bitIdx = s.bitIdx := rfl
@[simp] theorem emit_byteIdx (e : Event) : (emit e s).byteIdx = s.byteIdx := rfl
@[simp] theorem emit_rbuf (e : Event) : (emit e s).rbuf = s.rbuf := rfl
@[simp] theorem emit_pstat (e : Event) : (emit e s).pstat = s.pstat := rfl
@[simp] theorem emit_deadline (e : Event) : (emit e s).deadline = s.deadline := rfl
@[simp] theorem emit_wres (e : Event) : (emit e s).wres = s.wres := rfl
@[simp] theorem emit_fault (e : Event) : (emit e s).fault = s.fault := rfl
@[simp] theorem emit_trace (e : Event) : (emit e s).trace = s.trace ++ [e] := rfl
@[simp] theorem emit_device (e : Event) : (emit e s).device = s.device := rfl
@[simp] theorem emit_time (e : Event) : (emit e s).time = s.time := rfl
@[simp] theorem emit_host (e : Event) : (emit e s).host = s.host := rfl

/-! ### ctrlRead -/

@[simp] theorem ctrlRead_params : (ctrlRead s).params = s.params := rfl
@[simp] theorem ctrlRead_ctrl : (ctrlRead s).ctrl = s.ctrl := rfl
@[simp] theorem ctrlRead_en : (ctrlRead s).en = s.en := rfl
@[simp] theorem ctrlRead_lastEn : (ctrlRead s).lastEn = s.lastEn := rfl
@[simp] theorem ctrlRead_life : (ctrlRead s).life = s.life := rfl
@[simp] theorem ctrlRead_phase : (ctrlRead s).phase = s.phase := rfl
@[simp] theorem ctrlRead_req : (ctrlRead s).req = s.req := rfl
@[simp] theorem ctrlRead_shift : (ctrlRead s).shift = s.shift := rfl
@[simp] theorem ctrlRead_bitIdx : (ctrlRead s).bitIdx = s.bitIdx := rfl
@[simp] theorem ctrlRead_byteIdx : (ctrlRead s).byteIdx = s.byteIdx := rfl
@[simp] theorem ctrlRead_rbuf : (ctrlRead s).rbuf = s.rbuf := rfl
@[simp] theorem ctrlRead_pstat : (ctrlRead s).pstat = s.pstat := rfl
@[simp] theorem ctrlRead_deadline : (ctrlRead s).deadline = s.deadline := rfl
@[simp] theorem ctrlRead_wres : (ctrlRead s).wres = s.wres := rfl
@[simp] theorem ctrlRead_fault : (ctrlRead s).fault = s.fault := rfl
@[simp] theorem ctrlRead_trace : (ctrlRead s).trace = s.trace ++ [.cr s.ctrl] := rfl
@[simp] theorem ctrlRead_device : (ctrlRead s).device = s.device := rfl
@[simp] theorem ctrlRead_time : (ctrlRead s).time = s.time := rfl
@[simp] theorem ctrlRead_host : (ctrlRead s).host = s.host := rfl

/-! ### ctrlWrite -/

@[simp] theorem ctrlWrite_params (v : Byte) : (ctrlWrite v s).params = s.params := rfl
@[simp] theorem ctrlWrite_ctrl (v : Byte) : (ctrlWrite v s).ctrl = v := rfl
@[simp] theorem ctrlWrite_en (v : Byte) : (ctrlWrite v s).en = s.en := rfl
@[simp] theorem ctrlWrite_lastEn (v : Byte) : (ctrlWrite v s).lastEn = s.lastEn := rfl
@[simp] theorem ctrlWrite_life (v : Byte) : (ctrlWrite v s).life = s.life := rfl
@[simp] theorem ctrlWrite_phase (v : Byte) : (ctrlWrite v s).phase = s.phase := rfl
@[simp] theorem ctrlWrite_req (v : Byte) : (ctrlWrite v s).req = s.req := rfl
@[simp] theorem ctrlWrite_shift (v : Byte) : (ctrlWrite v s).shift = s.shift := rfl
@[simp] theorem ctrlWrite_bitIdx (v : Byte) : (ctrlWrite v s).bitIdx = s.bitIdx := rfl
@[simp] theorem ctrlWrite_byteIdx (v : Byte) : (ctrlWrite v s).byteIdx = s.byteIdx := rfl
@[simp] theorem ctrlWrite_rbuf (v : Byte) : (ctrlWrite v s).rbuf = s.rbuf := rfl
@[simp] theorem ctrlWrite_pstat (v : Byte) : (ctrlWrite v s).pstat = s.pstat := rfl
@[simp] theorem ctrlWrite_deadline (v : Byte) : (ctrlWrite v s).deadline = s.deadline := rfl
@[simp] theorem ctrlWrite_wres (v : Byte) : (ctrlWrite v s).wres = s.wres := rfl
@[simp] theorem ctrlWrite_fault (v : Byte) : (ctrlWrite v s).fault = s.fault := rfl
@[simp] theorem ctrlWrite_trace (v : Byte) : (ctrlWrite v s).trace = s.trace ++ [.cw v] := rfl
@[simp] theorem ctrlWrite_device (v : Byte) : (ctrlWrite v s).device = deviceAfterWrite s.params s.ctrl v s.device := rfl
@[simp] theorem ctrlWrite_time (v : Byte) : (ctrlWrite v s).time = s.time := rfl
@[simp] theorem ctrlWrite_host (v : Byte) : (ctrlWrite v s).host = s.host := rfl

/-! ### dinRead -/

@[simp] theorem dinRead_params : (dinRead s).params = s.params := rfl
@[simp] theorem dinRead_ctrl : (dinRead s).ctrl = s.ctrl := rfl
@[simp] theorem dinRead_en : (dinRead s).en = s.en := rfl
@[simp] theorem dinRead_lastEn : (dinRead s).lastEn = s.lastEn := rfl
@[simp] theorem dinRead_life : (dinRead s).life = s.life := rfl
@[simp] theorem dinRead_phase : (dinRead s).phase = s.phase := rfl
@[simp] theorem dinRead_req : (dinRead s).req = s.req := rfl
@[simp] theorem dinRead_shift : (dinRead s).shift = s.shift := rfl
@[simp] theorem dinRead_bitIdx : (dinRead s).bitIdx = s.bitIdx := rfl
@[simp] theorem dinRead_byteIdx : (dinRead s).byteIdx = s.byteIdx := rfl
@[simp] theorem dinRead_rbuf : (dinRead s).rbuf = s.rbuf := rfl
@[simp] theorem dinRead_pstat : (dinRead s).pstat = s.pstat := rfl
@[simp] theorem dinRead_deadline : (dinRead s).deadline = s.deadline := rfl
@[simp] theorem dinRead_wres : (dinRead s).wres = s.wres := rfl
@[simp] theorem dinRead_fault : (dinRead s).fault = s.fault := rfl
@[simp] theorem dinRead_trace : (dinRead s).trace = s.trace ++ [.dr (dinAnswer s)] := rfl
@[simp] theorem dinRead_device : (dinRead s).device = deviceAfterRead s.device := rfl
@[simp] theorem dinRead_time : (dinRead s).time = s.time := rfl
@[simp] theorem dinRead_host : (dinRead s).host = s.host := rfl

/-! ### enWrite -/

@[simp] theorem enWrite_params (v : Byte) : (enWrite v s).params = s.params := rfl
@[simp] theorem enWrite_ctrl (v : Byte) : (enWrite v s).ctrl = s.ctrl := rfl
@[simp] theorem enWrite_en (v : Byte) : (enWrite v s).en = v := rfl
@[simp] theorem enWrite_lastEn (v : Byte) : (enWrite v s).lastEn = some v := rfl
@[simp] theorem enWrite_life (v : Byte) : (enWrite v s).life = s.life := rfl
@[simp] theorem enWrite_phase (v : Byte) : (enWrite v s).phase = s.phase := rfl
@[simp] theorem enWrite_req (v : Byte) : (enWrite v s).req = s.req := rfl
@[simp] theorem enWrite_shift (v : Byte) : (enWrite v s).shift = s.shift := rfl
@[simp] theorem enWrite_bitIdx (v : Byte) : (enWrite v s).bitIdx = s.bitIdx := rfl
@[simp] theorem enWrite_byteIdx (v : Byte) : (enWrite v s).byteIdx = s.byteIdx := rfl
@[simp] theorem enWrite_rbuf (v : Byte) : (enWrite v s).rbuf = s.rbuf := rfl
@[simp] theorem enWrite_pstat (v : Byte) : (enWrite v s).pstat = s.pstat := rfl
@[simp] theorem enWrite_deadline (v : Byte) : (enWrite v s).deadline = s.deadline := rfl
@[simp] theorem enWrite_wres (v : Byte) : (enWrite v s).wres = s.wres := rfl
@[simp] theorem enWrite_fault (v : Byte) : (enWrite v s).fault = s.fault := rfl
@[simp] theorem enWrite_trace (v : Byte) : (enWrite v s).trace = s.trace ++ [.ew v] := rfl
@[simp] theorem enWrite_device (v : Byte) : (enWrite v s).device = s.device := rfl
@[simp] theorem enWrite_time (v : Byte) : (enWrite v s).time = s.time := rfl
@[simp] theorem enWrite_host (v : Byte) : (enWrite v s).host = s.host := rfl

/-! ### now -/

@[simp] theorem now_params : (now s).params = s.params := rfl
@[simp] theorem now_ctrl : (now s).ctrl = s.ctrl := rfl
@[simp] theorem now_en : (now s).en = s.en := rfl
@[simp] theorem now_lastEn : (now s).lastEn = s.lastEn := rfl
@[simp] theorem now_life : (now s).life = s.life := rfl
@[simp] theorem now_phase : (now s).phase = s.phase := rfl
@[simp] theorem now_req : (now s).req = s.req := rfl
@[simp] theorem now_shift : (now s).shift = s.shift := rfl
@[simp] theorem now_bitIdx : (now s).bitIdx = s.bitIdx := rfl
@[simp] theorem now_byteIdx : (now s).byteIdx = s.byteIdx := rfl
@[simp] theorem now_rbuf : (now s).rbuf = s.rbuf := rfl
@[simp] theorem now_pstat : (now s).pstat = s.pstat := rfl
@[simp] theorem now_deadline : (now s).deadline = s.deadline := rfl
@[simp] theorem now_wres : (now s).wres = s.wres := rfl
@[simp] theorem now_fault : (now s).fault = s.fault := rfl
@[simp] theorem now_trace : (now s).trace = s.trace ++ [.tr (nowAnswer s)] := rfl
@[simp] theorem now_device : (now s).device = s.device := rfl
@[simp] theorem now_time : (now s).time = { last := nowAnswer s, advances := s.time.advances.tail } := rfl
@[simp] theorem now_host : (now s).host = s.host := rfl

/-! ### raiseFault -/

@[simp] theorem raiseFault_params (r : FaultReason) : (raiseFault r s).params = s.params := rfl
@[simp] theorem raiseFault_ctrl (r : FaultReason) : (raiseFault r s).ctrl = s.ctrl := rfl
@[simp] theorem raiseFault_en (r : FaultReason) : (raiseFault r s).en = s.en := rfl
@[simp] theorem raiseFault_lastEn (r : FaultReason) : (raiseFault r s).lastEn = s.lastEn := rfl
@[simp] theorem raiseFault_life (r : FaultReason) : (raiseFault r s).life = s.life := rfl
@[simp] theorem raiseFault_phase (r : FaultReason) : (raiseFault r s).phase = s.phase := rfl
@[simp] theorem raiseFault_req (r : FaultReason) : (raiseFault r s).req = s.req := rfl
@[simp] theorem raiseFault_shift (r : FaultReason) : (raiseFault r s).shift = s.shift := rfl
@[simp] theorem raiseFault_bitIdx (r : FaultReason) : (raiseFault r s).bitIdx = s.bitIdx := rfl
@[simp] theorem raiseFault_byteIdx (r : FaultReason) : (raiseFault r s).byteIdx = s.byteIdx := rfl
@[simp] theorem raiseFault_rbuf (r : FaultReason) : (raiseFault r s).rbuf = s.rbuf := rfl
@[simp] theorem raiseFault_pstat (r : FaultReason) : (raiseFault r s).pstat = s.pstat := rfl
@[simp] theorem raiseFault_deadline (r : FaultReason) : (raiseFault r s).deadline = s.deadline := rfl
@[simp] theorem raiseFault_wres (r : FaultReason) : (raiseFault r s).wres = s.wres := rfl
@[simp] theorem raiseFault_fault (r : FaultReason) : (raiseFault r s).fault = some r := rfl
@[simp] theorem raiseFault_trace (r : FaultReason) : (raiseFault r s).trace = s.trace ++ [.flt r] := rfl
@[simp] theorem raiseFault_device (r : FaultReason) : (raiseFault r s).device = s.device := rfl
@[simp] theorem raiseFault_time (r : FaultReason) : (raiseFault r s).time = s.time := rfl
@[simp] theorem raiseFault_host (r : FaultReason) : (raiseFault r s).host = s.host := rfl

/-! ### respond -/

@[simp] theorem respond_params (k : Reply) : (respond k s).params = s.params := rfl
@[simp] theorem respond_ctrl (k : Reply) : (respond k s).ctrl = s.ctrl := rfl
@[simp] theorem respond_en (k : Reply) : (respond k s).en = s.en := rfl
@[simp] theorem respond_lastEn (k : Reply) : (respond k s).lastEn = s.lastEn := rfl
@[simp] theorem respond_life (k : Reply) : (respond k s).life = s.life := rfl
@[simp] theorem respond_phase (k : Reply) : (respond k s).phase = [] := rfl
@[simp] theorem respond_req (k : Reply) : (respond k s).req = s.req := rfl
@[simp] theorem respond_shift (k : Reply) : (respond k s).shift = s.shift := rfl
@[simp] theorem respond_bitIdx (k : Reply) : (respond k s).bitIdx = s.bitIdx := rfl
@[simp] theorem respond_byteIdx (k : Reply) : (respond k s).byteIdx = s.byteIdx := rfl
@[simp] theorem respond_rbuf (k : Reply) : (respond k s).rbuf = s.rbuf := rfl
@[simp] theorem respond_pstat (k : Reply) : (respond k s).pstat = s.pstat := rfl
@[simp] theorem respond_deadline (k : Reply) : (respond k s).deadline = s.deadline := rfl
@[simp] theorem respond_wres (k : Reply) : (respond k s).wres = s.wres := rfl
@[simp] theorem respond_fault (k : Reply) : (respond k s).fault = s.fault := rfl
@[simp] theorem respond_trace (k : Reply) : (respond k s).trace = s.trace ++ [.rsp (replyOf s k)] := rfl
@[simp] theorem respond_device (k : Reply) : (respond k s).device = s.device := rfl
@[simp] theorem respond_time (k : Reply) : (respond k s).time = s.time := rfl
@[simp] theorem respond_host (k : Reply) : (respond k s).host = s.host := rfl

/-! ### applyAssign: it changes the datapath registers and LIFE only -/

@[simp] theorem applyAssign_params (a : Assign) : (applyAssign a s).params = s.params := by cases a <;> rfl
@[simp] theorem applyAssign_ctrl (a : Assign) : (applyAssign a s).ctrl = s.ctrl := by cases a <;> rfl
@[simp] theorem applyAssign_en (a : Assign) : (applyAssign a s).en = s.en := by cases a <;> rfl
@[simp] theorem applyAssign_lastEn (a : Assign) : (applyAssign a s).lastEn = s.lastEn := by cases a <;> rfl
@[simp] theorem applyAssign_phase (a : Assign) : (applyAssign a s).phase = s.phase := by cases a <;> rfl
@[simp] theorem applyAssign_req (a : Assign) : (applyAssign a s).req = s.req := by cases a <;> rfl
@[simp] theorem applyAssign_deadline (a : Assign) : (applyAssign a s).deadline = s.deadline := by cases a <;> rfl
@[simp] theorem applyAssign_wres (a : Assign) : (applyAssign a s).wres = s.wres := by cases a <;> rfl
@[simp] theorem applyAssign_fault (a : Assign) : (applyAssign a s).fault = s.fault := by cases a <;> rfl
@[simp] theorem applyAssign_trace (a : Assign) : (applyAssign a s).trace = s.trace := by cases a <;> rfl
@[simp] theorem applyAssign_device (a : Assign) : (applyAssign a s).device = s.device := by cases a <;> rfl
@[simp] theorem applyAssign_time (a : Assign) : (applyAssign a s).time = s.time := by cases a <;> rfl
@[simp] theorem applyAssign_host (a : Assign) : (applyAssign a s).host = s.host := by cases a <;> rfl

/-! ### settle: it changes the datapath registers, WRES, LIFE and the phase only -/

@[simp] theorem settle_params (k : List Micro) : (settle k s).params = s.params := by
  induction k generalizing s with
  | nil => rfl
  | cons m k ih => cases m <;> simp only [settle] <;> first | rfl | (rw [ih]; simp) | (split <;> first | rfl | rw [ih])

@[simp] theorem settle_ctrl (k : List Micro) : (settle k s).ctrl = s.ctrl := by
  induction k generalizing s with
  | nil => rfl
  | cons m k ih => cases m <;> simp only [settle] <;> first | rfl | (rw [ih]; simp) | (split <;> first | rfl | rw [ih])

@[simp] theorem settle_en (k : List Micro) : (settle k s).en = s.en := by
  induction k generalizing s with
  | nil => rfl
  | cons m k ih => cases m <;> simp only [settle] <;> first | rfl | (rw [ih]; simp) | (split <;> first | rfl | rw [ih])

@[simp] theorem settle_lastEn (k : List Micro) : (settle k s).lastEn = s.lastEn := by
  induction k generalizing s with
  | nil => rfl
  | cons m k ih => cases m <;> simp only [settle] <;> first | rfl | (rw [ih]; simp) | (split <;> first | rfl | rw [ih])

@[simp] theorem settle_req (k : List Micro) : (settle k s).req = s.req := by
  induction k generalizing s with
  | nil => rfl
  | cons m k ih => cases m <;> simp only [settle] <;> first | rfl | (rw [ih]; simp) | (split <;> first | rfl | rw [ih])

@[simp] theorem settle_deadline (k : List Micro) : (settle k s).deadline = s.deadline := by
  induction k generalizing s with
  | nil => rfl
  | cons m k ih => cases m <;> simp only [settle] <;> first | rfl | (rw [ih]; simp) | (split <;> first | rfl | rw [ih])

@[simp] theorem settle_fault (k : List Micro) : (settle k s).fault = s.fault := by
  induction k generalizing s with
  | nil => rfl
  | cons m k ih => cases m <;> simp only [settle] <;> first | rfl | (rw [ih]; simp) | (split <;> first | rfl | rw [ih])

@[simp] theorem settle_trace (k : List Micro) : (settle k s).trace = s.trace := by
  induction k generalizing s with
  | nil => rfl
  | cons m k ih => cases m <;> simp only [settle] <;> first | rfl | (rw [ih]; simp) | (split <;> first | rfl | rw [ih])

@[simp] theorem settle_device (k : List Micro) : (settle k s).device = s.device := by
  induction k generalizing s with
  | nil => rfl
  | cons m k ih => cases m <;> simp only [settle] <;> first | rfl | (rw [ih]; simp) | (split <;> first | rfl | rw [ih])

@[simp] theorem settle_time (k : List Micro) : (settle k s).time = s.time := by
  induction k generalizing s with
  | nil => rfl
  | cons m k ih => cases m <;> simp only [settle] <;> first | rfl | (rw [ih]; simp) | (split <;> first | rfl | rw [ih])

@[simp] theorem settle_host (k : List Micro) : (settle k s).host = s.host := by
  induction k generalizing s with
  | nil => rfl
  | cons m k ih => cases m <;> simp only [settle] <;> first | rfl | (rw [ih]; simp) | (split <;> first | rfl | rw [ih])

end Sys2Proof.Machine
end

