-- ==== Sys2Proof/Laws/Run.lean ====
section
/-!
SUPPORT. How the step-by-step machine runs code: what one step of the controller does, that code runs in sequence, and
that the code of every procedure, frame and poll runs to what Machine/Reference.lean says of it.
-/

namespace Sys2Proof.Machine

/-! ### Runs -/

theorem Reaches.refl (s : State) : Reaches s s := ⟨0, rfl⟩

theorem stepN_add {m n : Nat} {s t : State} (h : stepN m s = .next t) : stepN (m + n) s = stepN n t := by
  induction m generalizing s with
  | zero => simp only [stepN, Host.Outcome.next.injEq] at h; simp [h]
  | succ m ih =>
    rw [Nat.succ_add]
    simp only [stepN] at h ⊢
    split at h <;> simp_all

theorem Reaches.trans {s t u : State} : Reaches s t → Reaches t u → Reaches s u
  | ⟨m, hm⟩, ⟨n, hn⟩ => ⟨m + n, by rw [stepN_add hm, hn]⟩

theorem Reaches.head {s t u : State} (h : step s = .next t) : Reaches t u → Reaches s u
  | ⟨n, hn⟩ => ⟨n + 1, by simp only [stepN, h, hn]⟩

/-! ### The phase a state has is not read by what replaces it -/

theorem applyAssign_setPhase (a : Assign) (s : State) (x : List Micro) :
    applyAssign a { s with phase := x } = { applyAssign a s with phase := x } := by
  cases a <;> rfl

@[simp] theorem settle_setPhase (k : List Micro) (s : State) (x : List Micro) :
    settle k { s with phase := x } = settle k s := by
  induction k generalizing s with
  | nil => rfl
  | cons m k ih =>
    cases m with
    | assign a => simp only [settle, applyAssign_setPhase, ih]
    | test sop mask =>
      simp only [settle]
      split
      · exact ih { s with wres := .ok }
      · rfl
    | abortIfTimeout => simp only [settle, ih]
    | prim p => rfl
    | frame i => rfl

theorem runPrim_setPhase (p : Prim) (k : List Micro) (s : State) (x : List Micro) :
    runPrim p k { s with phase := x } = runPrim p k s := by
  cases p with
  | setRead l v => exact settle_setPhase _ (ctrlRead s) x
  | setWrite l v r => exact settle_setPhase _ (ctrlWrite (setLine s.params l v r) s) x
  | dataRead => exact settle_setPhase _ (ctrlRead s) x
  | dirRead =>
    simp only [runPrim]
    split
    · exact settle_setPhase _ (ctrlRead s) x
    · exact settle_setPhase _ (ctrlRead s) x
  | sample =>
    exact settle_setPhase _ { dinRead s with shift := putBit s.shift s.bitIdx (dinBit (dinAnswer s)) } x
  | enWrite v => exact settle_setPhase _ (enWrite v s) x
  | waitEntry ms => exact settle_setPhase _ { now s with deadline := nowAnswer s + ms } x
  | pollTime sop mask =>
    change (if nowAnswer s > s.deadline then settle k { { now s with wres := .timeout } with phase := x }
      else settle (pollCode sop mask ++ k) { now s with phase := x }) = _
    rw [settle_setPhase, settle_setPhase, runPrim]
  | respond r => rfl

/-! ### One step of a block nothing disturbs -/

/-- No fault, and a host that keeps R286: while BUSY only the controller steps. -/
def Quiet (s : State) : Prop := s.fault = none ∧ SerialHost s

/-- The step where the host offers nothing is the controller's. -/
theorem step_of_no_offer {s : State} (hf : s.fault = none) (ho : hostOffer s = none) :
    step s = controllerStep { s with host := hostNext s } := by
  unfold step
  split
  · simp_all
  · rw [ho]

/-- The step where the host offers a request is the host's. -/
theorem step_of_offer {s : State} {q : Request} (hf : s.fault = none) (ho : hostOffer s = some q) :
    step s = hostStep q { s with host := hostNext s } := by
  unfold step
  split
  · simp_all
  · rw [ho]

/-- The step of a quiet block with something left to do is the controller's. -/
theorem step_of_quiet_busy {s : State} {m : Micro} {k : List Micro} (hq : Quiet s) (hp : s.phase = m :: k) :
    step s = controllerStep s := by
  obtain ⟨hf, reqs, hh⟩ := hq
  have hb : busy s = true := by simp [busy, hp]
  have hoffer : hostOffer s = none := by
    simp only [hostOffer, hh, hb]
    cases reqs <;> rfl
  have hnext : { s with host := hostNext s } = s := by
    rw [show hostNext s = s.host by simp only [hostNext, hh, hb, if_true]]
  rw [step_of_no_offer hf hoffer, hnext]

theorem step_settle_prim {s : State} (hq : Quiet s) (p : Prim) (k : List Micro) :
    step (settle (.prim p :: k) s) = .next (runPrim p k s) := by
  rw [step_of_quiet_busy (m := .prim p) (k := k) (by simpa [Quiet, SerialHost] using hq) rfl]
  simp only [controllerStep, settle, runPrim_setPhase]

theorem step_settle_frame {s : State} (hq : Quiet s) (i : Instr) (k : List Micro) :
    step (settle (.frame i :: k) s) = exec i { s with phase := k } := by
  rw [step_of_quiet_busy (m := .frame i) (k := k) (by simpa [Quiet, SerialHost] using hq) rfl]
  rfl

theorem callFrame_prim {s : State} (hf : s.fault = none) (p : Prim) (c k : List Micro) :
    callFrame (.prim p :: c) { s with phase := k } = .next (runPrim p (c ++ k) s) := by
  rw [← runPrim_setPhase p (c ++ k) s k]
  unfold callFrame
  split
  · simp_all
  · rfl

/-! ### Code that runs to a function of the state -/

/-- From a quiet block, `c` followed by anything runs to that following code at the state `f` gives, which is quiet
again. -/
def RunsTo (c : List Micro) (f : State → State) : Prop :=
  ∀ (k : List Micro) (s : State), Quiet s → Quiet (f s) ∧ Reaches (settle (c ++ k) s) (settle k (f s))

theorem RunsTo.nil : RunsTo [] id := fun k s hq => ⟨hq, Reaches.refl (settle k s)⟩

theorem RunsTo.append {c d : List Micro} {f g : State → State} (hc : RunsTo c f) (hd : RunsTo d g) :
    RunsTo (c ++ d) (fun s => g (f s)) := fun k s hq => by
  obtain ⟨hq1, h1⟩ := hc (d ++ k) s hq
  obtain ⟨hq2, h2⟩ := hd k (f s) hq1
  exact ⟨hq2, by rw [List.append_assoc]; exact h1.trans h2⟩

theorem RunsTo.assign (a : Assign) : RunsTo [.assign a] (applyAssign a) := fun k s hq =>
  ⟨by simpa [Quiet, SerialHost] using hq, Reaches.refl _⟩

theorem RunsTo.congr {c : List Micro} {f g : State → State} (hc : RunsTo c f) (h : ∀ s, f s = g s) : RunsTo c g := by
  rwa [← funext h]

theorem RunsTo.cons_assign {c : List Micro} {f : State → State} (a : Assign) (hc : RunsTo c f) :
    RunsTo (.assign a :: c) (fun s => f (applyAssign a s)) := (RunsTo.assign a).append hc

theorem quiet_refSetBit {s : State} (l : Line) (v : Bool) (hq : Quiet s) : Quiet (refSetBit l v s) := hq

/-- The second half of a read-modify-write, once its read has been done. -/
theorem reaches_setWrite {s : State} (hq : Quiet s) (l : Line) (v : Bool) (k : List Micro) :
    Reaches (settle (.prim (.setWrite l v s.ctrl) :: k) (ctrlRead s)) (settle k (refSetBit l v s)) :=
  Reaches.head (step_settle_prim (s := ctrlRead s) hq _ _) (Reaches.refl _)

theorem RunsTo.setBit (l : Line) (v : Bool) : RunsTo (setBitCode l v) (refSetBit l v) := fun k _ hq =>
  ⟨quiet_refSetBit l v hq, Reaches.head (step_settle_prim hq (.setRead l v) k) (reaches_setWrite hq l v k)⟩

theorem RunsTo.setData :
    RunsTo setDataCode (fun s => refSetBit .dout (s.shift.getLsbD s.bitIdx) s) := fun k _ hq =>
  ⟨quiet_refSetBit _ _ hq, Reaches.head (step_settle_prim hq .dataRead k) (reaches_setWrite hq _ _ k)⟩

theorem RunsTo.dirOut : RunsTo dirOutIfNeededCode refDirOut := fun k s hq => by
  refine ⟨?_, Reaches.head (step_settle_prim hq .dirRead k) ?_⟩
  · simp only [refDirOut]; split <;> exact hq
  · simp only [runPrim, refDirOut]
    split
    · exact Reaches.refl _
    · exact reaches_setWrite hq _ _ k

theorem RunsTo.sample : RunsTo [.prim .sample] refSample := fun k _ hq =>
  ⟨hq, Reaches.head (step_settle_prim hq .sample k) (Reaches.refl _)⟩

theorem RunsTo.enWrite (v : Byte) : RunsTo [.prim (.enWrite v)] (Machine.enWrite v) := fun k _ hq =>
  ⟨hq, Reaches.head (step_settle_prim hq (.enWrite v) k) (Reaches.refl _)⟩

theorem RunsTo.waitEntry (ms : Nat) :
    RunsTo [.prim (.waitEntry ms)] (fun s => { now s with deadline := nowAnswer s + ms }) := fun k _ hq =>
  ⟨hq, Reaches.head (step_settle_prim hq (.waitEntry ms) k) (Reaches.refl _)⟩

theorem RunsTo.clock : RunsTo clockOutCode refClock := (RunsTo.setBit .clk false).append (RunsTo.setBit .clk true)

/-! ### Bytes -/

theorem RunsTo.flatMap {α : Type} {code : α → List Micro} {f : α → State → State}
    (h : ∀ a, RunsTo (code a) (f a)) (as : List α) :
    RunsTo (as.flatMap code) (fun s => as.foldl (fun t a => f a t) s) := by
  induction as with
  | nil => exact RunsTo.nil
  | cons a as ih => exact (h a).append ih

theorem RunsTo.sendBit (i : Fin 8) : RunsTo (sendBitCode i) (refSendBit i) :=
  (RunsTo.cons_assign (.bitIdx i) ((RunsTo.setData.append RunsTo.dirOut).append RunsTo.clock)).congr
    (fun _ => rfl)

theorem RunsTo.sendByte (v : Byte) : RunsTo (sendByteCode v) (refSendByte v) := by
  unfold sendByteCode
  exact (RunsTo.cons_assign (.shift v) (RunsTo.flatMap RunsTo.sendBit bitOrder)).congr
    (fun s => by rw [refSendByte])

theorem RunsTo.recvBit (i : Fin 8) : RunsTo (recvBitCode i) (refRecvBit i) := by
  have h := RunsTo.cons_assign (.bitIdx i) (RunsTo.clock.append RunsTo.sample)
  exact h.congr (fun _ => rfl)

theorem RunsTo.recvByte : RunsTo recvByteCode refRecvByte := by
  unfold recvByteCode dirInCode
  exact ((RunsTo.setBit .dir false).append
    (RunsTo.cons_assign (.shift 0x00#8) (RunsTo.flatMap RunsTo.recvBit bitOrder))).congr
    (fun s => by rw [refRecvByte])

theorem RunsTo.sendBytes (vs : List Byte) : RunsTo (sendBytesCode vs) (refSendBytes vs) :=
  RunsTo.flatMap RunsTo.sendByte vs

theorem RunsTo.sendPayload (k : Nat) (vs : List Byte) : RunsTo (sendPayloadCode k vs) (refSendPayload k vs) := by
  induction vs generalizing k with
  | nil => exact RunsTo.nil
  | cons v vs ih =>
    unfold sendPayloadCode
    exact (RunsTo.cons_assign (.byteIdx k) ((RunsTo.sendByte v).append (ih (k + 1)))).congr
      (fun s => by rw [refSendPayload])

theorem RunsTo.recvPayload (k n : Nat) : RunsTo (recvPayloadCode k n) (refRecvPayload k n) := by
  induction n generalizing k with
  | zero => exact RunsTo.nil
  | succ n ih =>
    unfold recvPayloadCode
    exact (RunsTo.cons_assign (.byteIdx k) (RunsTo.recvByte.append (RunsTo.cons_assign .pushRbuf (ih (k + 1))))).congr
      (fun s => by rw [refRecvPayload])

/-! ### Frames -/

/-- Code that starts with the first half of a `setBit`, as every frame does, runs from its second half on. -/
theorem RunsTo.afterSetRead {l : Line} {v : Bool} {c : List Micro} {g : State → State} (hc : RunsTo c g)
    (k : List Micro) {s : State} (hq : Quiet s) :
    Quiet (g (refSetBit l v s)) ∧
      Reaches (runPrim (.setRead l v) (c ++ k) s) (settle k (g (refSetBit l v s))) := by
  obtain ⟨h1, h2⟩ := hc k (refSetBit l v s) (quiet_refSetBit l v hq)
  exact ⟨h1, (reaches_setWrite hq l v (c ++ k)).trans h2⟩

/-- A frame's code runs to `f` when the step that calls the frame does its first primitive. -/
def FrameRunsTo (code : List Micro) (f : State → State) : Prop :=
  ∀ (k : List Micro) (s : State), Quiet s →
    Quiet (f s) ∧ ∃ t, callFrame code { s with phase := k } = .next t ∧ Reaches t (settle k (f s))

theorem FrameRunsTo.congr {code : List Micro} {f g : State → State} (hc : FrameRunsTo code f) (h : ∀ s, f s = g s) :
    FrameRunsTo code g := by
  rwa [← funext h]

theorem FrameRunsTo.of_setBit {l : Line} {v : Bool} {c : List Micro} {g : State → State} (hc : RunsTo c g) :
    FrameRunsTo (setBitCode l v ++ c) (fun s => g (refSetBit l v s)) := fun k s hq => by
  obtain ⟨h1, h2⟩ := hc.afterSetRead (l := l) (v := v) k hq
  exact ⟨h1, _, callFrame_prim hq.1 _ _ _, h2⟩

theorem FrameRunsTo.statusRead (op : Byte) (n : Nat) : FrameRunsTo (statusReadCode op n) (refStatusRead op n) := by
  have h := ((((((RunsTo.setBit .cap true).append (RunsTo.setBit .csN false)).append (RunsTo.sendByte op)).append
    (RunsTo.assign .clearRbuf)).append (RunsTo.recvPayload 0 n)).append (RunsTo.setBit .csN true))
  have hf := FrameRunsTo.of_setBit (l := .csN) (v := true) h
  simpa only [statusReadCode, deselectCode, setCaptureCode, selectCode, List.append_assoc] using
    hf.congr (g := refStatusRead op n) (fun _ => rfl)

theorem FrameRunsTo.wrenTxn : FrameRunsTo wrenTxnCode refWrenTxn :=
  FrameRunsTo.of_setBit ((RunsTo.sendByte wrenByte).append (RunsTo.setBit .csN true))

theorem FrameRunsTo.regWriteTxn (op : Byte) (data : List Byte) :
    FrameRunsTo (regWriteTxnCode op data) (refRegWriteTxn op data) := by
  have h := FrameRunsTo.of_setBit (l := .csN) (v := false)
    (((RunsTo.sendByte op).append (RunsTo.sendPayload 0 data)).append (RunsTo.setBit .csN true))
  simpa only [regWriteTxnCode, deselectCode, selectCode, List.append_assoc] using
    h.congr (g := refRegWriteTxn op data) (fun _ => rfl)

theorem FrameRunsTo.readTxn (op : Byte) (a : Addr) (n : Nat) :
    FrameRunsTo (readTxnCode op a n) (refReadTxn op a n) := by
  have h := FrameRunsTo.of_setBit (l := .csN) (v := false)
    ((((((RunsTo.sendByte op).append (RunsTo.sendBytes (addrBytes a))).append (RunsTo.setBit .cap true)).append
      (RunsTo.assign .clearRbuf)).append (RunsTo.recvPayload 0 n)).append (RunsTo.setBit .csN true))
  simpa only [readTxnCode, sendAddrCode, deselectCode, setCaptureCode, selectCode, List.append_assoc] using
    h.congr (g := refReadTxn op a n) (fun _ => rfl)

theorem FrameRunsTo.progTxn (op : Byte) (a : Addr) (data : List Byte) :
    FrameRunsTo (progTxnCode op a data) (refProgTxn op a data) := by
  have h := FrameRunsTo.of_setBit (l := .csN) (v := false)
    ((((RunsTo.sendByte op).append (RunsTo.sendBytes (addrBytes a))).append (RunsTo.sendPayload 0 data)).append
      (RunsTo.setBit .csN true))
  simpa only [progTxnCode, sendAddrCode, deselectCode, selectCode, List.append_assoc] using
    h.congr (g := refProgTxn op a data) (fun _ => rfl)

theorem FrameRunsTo.eraseTxn (op : Byte) (a : Addr) : FrameRunsTo (eraseTxnCode op a) (refEraseTxn op a) := by
  have h := FrameRunsTo.of_setBit (l := .csN) (v := false)
    (((RunsTo.sendByte op).append (RunsTo.sendBytes (addrBytes a))).append (RunsTo.setBit .csN true))
  simpa only [eraseTxnCode, sendAddrCode, deselectCode, selectCode, List.append_assoc] using
    h.congr (g := refEraseTxn op a) (fun _ => rfl)

theorem FrameRunsTo.shape (op : Byte) (shape : FrameShape) : FrameRunsTo (shapeCode op shape) (refShape op shape) := by
  cases shape with
  | statusRead n => exact FrameRunsTo.statusRead op n
  | regWrite data => exact FrameRunsTo.regWriteTxn op data
  | dataRead a n => exact FrameRunsTo.readTxn op a n
  | dataProgram a data => exact FrameRunsTo.progTxn op a data
  | dataErase a => exact FrameRunsTo.eraseTxn op a

/-- The frame call whose command is the one-byte status read with opcode `sop` (`decodeStatusRead`). -/
theorem exec_statusRead (sop : Byte) (s : State) :
    exec (decodeStatusRead sop 1) s = callFrame (statusReadCode sop 1) s := by
  unfold decodeStatusRead
  split
  · rename_i h; rw [h.1]; rfl
  · split
    · rename_i h; rw [h.1]; rfl
    · rfl

theorem FrameRunsTo.runsTo_call {i : Instr} {code : List Micro} {f : State → State} (hf : FrameRunsTo code f)
    (he : ∀ s, exec i s = callFrame code s) : RunsTo [.frame i] f := fun k s hq => by
  obtain ⟨h1, t, h2, h3⟩ := hf k s hq
  refine ⟨h1, Reaches.head ?_ h3⟩
  rw [show ([Micro.frame i] ++ k) = .frame i :: k from rfl, step_settle_frame hq, he, h2]

/-! ### Polls -/

theorem RunsTo.poll (sop : Byte) :
    RunsTo [.frame (decodeStatusRead sop 1), .assign .pstat] (refPoll sop) :=
  ((FrameRunsTo.statusRead sop 1).runsTo_call (exec_statusRead sop)).append (RunsTo.assign .pstat)

end Sys2Proof.Machine
end

