-- ==== Sys2Proof/Laws/Step.lean ====
section
/-!
SUPPORT. What one step can do, said once: every next state of `exec` and of `step` is one of the few forms below, and
every phase that settling leaves is one of the few forms below. A proof that a step keeps a property goes through these.
-/

namespace Sys2Proof.Machine

/-- The pseudocode of a host operation after its acceptance (45_facade.md R221 to R227). -/
def operationCode : Instr → List Micro
  | .hostOpen => openCode
  | .hostClose => closeCode
  | .readReg opcode len => readRegCode opcode len
  | .writeReg opcode data => writeRegCode opcode data
  | .readData opcode addr len => readDataCode opcode addr len
  | .program opcode addr data => programCode opcode addr data
  | .erase opcode addr => eraseCode opcode addr
  | .reserved => []
  | .opWren => []
  | .opRdsr => []
  | .opRfsr => []
  | .callerOpcode _ _ => []

/-- The procedure of a wire command (43_transactions.md R170 to R175). -/
def frameCode : Instr → List Micro
  | .opWren => wrenTxnCode
  | .opRdsr => statusReadCode rdsrByte 1
  | .opRfsr => statusReadCode rfsrByte 1
  | .callerOpcode opcode shape => shapeCode opcode shape
  | .hostOpen => []
  | .hostClose => []
  | .readReg _ _ => []
  | .writeReg _ _ => []
  | .readData _ _ _ => []
  | .program _ _ _ => []
  | .erase _ _ => []
  | .reserved => []

/-- A host instruction is a request acceptance (45_facade.md R220). -/
theorem exec_of_hostReq {i : Instr} {q : Request} (h : encode i = .hostReq q) (s : State) :
    exec i s = accept q (operationCode i) s := by
  cases i <;> simp only [encode, Encoded.hostReq.injEq, reduceCtorEq] at h <;> subst h <;> rfl

/-- A wire command is a frame call (43_transactions.md R170 to R175). -/
theorem exec_of_wireFrame {i : Instr} {f : Frame} (h : encode i = .wireFrame f) (s : State) :
    exec i s = callFrame (frameCode i) s := by
  cases i <;> simp only [encode, reduceCtorEq] at h <;> rfl

/-- Every frame starts with the first half of a `setBit`. -/
theorem frameCode_head {i : Instr} {f : Frame} (h : encode i = .wireFrame f) :
    ∃ v c, frameCode i = .prim (.setRead .csN v) :: c := by
  cases i with
  | callerOpcode op shape => cases shape <;> exact ⟨_, _, rfl⟩
  | _ => first | exact ⟨_, _, rfl⟩ | simp only [encode, reduceCtorEq] at h

@[simp] theorem busy_eq_false {s : State} : busy s = false ↔ s.phase = [] := by simp [busy]

@[simp] theorem busy_eq_true {s : State} : busy s = true ↔ s.phase ≠ [] := by simp [busy]

/-- The conditions of acceptance (45_facade.md R220). -/
theorem acceptFault_eq_none {q : Request} {s : State} :
    acceptFault q s = none ↔
      s.phase = [] ∧ q.op ≠ tagReserved ∧ (isLifecycle q = true ∨ s.life = .opened) ∧
        payloadLength q ≤ s.params.maxLen := by
  rw [← busy_eq_false]
  unfold acceptFault
  constructor
  · intro h
    split at h
    · cases h
    split at h
    · cases h
    split at h
    · cases h
    split at h
    · cases h
    rename_i h1 h2 h3 h4
    refine ⟨by simpa using h1, h2, ?_, Nat.not_lt.1 h4⟩
    cases hl : s.life
    · left
      simpa [hl] using h3
    · exact .inr rfl
  · rintro ⟨h1, h2, h3, h4⟩
    rw [if_neg (by simp [h1]), if_neg h2, if_neg, if_neg (Nat.not_lt.2 h4)]
    rcases h3 with h3 | h3 <;> simp [h3]

/-- A host's request is always a host instruction (30_encoding.md R85). -/
theorem encode_decodeRequest (q : Request) : encode (decodeRequest q) = .hostReq (usedFields q) := by
  have h : ∃ q', encode (decodeRequest q) = .hostReq q' := by
    unfold decodeRequest
    split_ifs <;> exact ⟨_, rfl⟩
  obtain ⟨q', h⟩ := h
  rw [usedFields, h]

theorem accept_cases {q : Request} {code : List Micro} {s t : State} (h : accept q code s = .next t) :
    s.fault = none ∧
      ((∃ r, acceptFault q s = some r ∧ t = raiseFault r (emit (.req q) s)) ∨
        (acceptFault q s = none ∧ t = settle code { emit (.req q) s with req := q })) := by
  unfold accept at h
  split at h
  · cases h
  · rename_i hf
    refine ⟨hf, ?_⟩
    split at h
    · rename_i r hr; exact .inl ⟨r, hr, by simpa using h.symm⟩
    · rename_i hr; exact .inr ⟨hr, by simpa using h.symm⟩

theorem callFrame_cases {p : Prim} {c : List Micro} {s t : State} (h : callFrame (.prim p :: c) s = .next t) :
    s.fault = none ∧ t = runPrim p (c ++ s.phase) s := by
  unfold callFrame at h
  split at h
  · cases h
  · rename_i hf; exact ⟨hf, by simpa using h.symm⟩

/-- Everything `exec` can answer with a next state: a fault at acceptance, an acceptance, or a frame's first read. -/
theorem exec_cases {i : Instr} {s t : State} (h : exec i s = .next t) :
    s.fault = none ∧
      ((∃ q r, encode i = .hostReq q ∧ acceptFault q s = some r ∧ t = raiseFault r (emit (.req q) s)) ∨
        (∃ q, encode i = .hostReq q ∧ acceptFault q s = none ∧
          t = settle (operationCode i) { emit (.req q) s with req := q }) ∨
        (∃ f v c, encode i = .wireFrame f ∧ frameCode i = .prim (.setRead .csN v) :: c ∧
          t = runPrim (.setRead .csN v) (c ++ s.phase) s)) := by
  cases he : encode i with
  | hostReq q =>
    rw [exec_of_hostReq he] at h
    obtain ⟨hf, ⟨r, h1, h2⟩ | ⟨h1, h2⟩⟩ := accept_cases h
    · exact ⟨hf, .inl ⟨q, r, rfl, h1, h2⟩⟩
    · exact ⟨hf, .inr (.inl ⟨q, rfl, h1, h2⟩)⟩
  | wireFrame f =>
    obtain ⟨v, c, hc⟩ := frameCode_head he
    rw [exec_of_wireFrame he, hc] at h
    obtain ⟨hf, h1⟩ := callFrame_cases h
    exact ⟨hf, .inr (.inr ⟨f, v, c, rfl, hc, h1⟩)⟩

/-- Everything `step` can answer with a next state: the host's step, a primitive, a frame call, or settling. -/
theorem step_cases {s t : State} (h : step s = .next t) :
    s.fault = none ∧
      ((∃ q, hostOffer s = some q ∧ exec (decodeRequest q) { s with host := hostNext s } = .next t) ∨
        (hostOffer s = none ∧
          ((∃ p k, s.phase = .prim p :: k ∧ t = runPrim p k { s with host := hostNext s }) ∨
            (∃ i k, s.phase = .frame i :: k ∧ exec i { s with phase := k, host := hostNext s } = .next t) ∨
            ((∀ p k, s.phase ≠ .prim p :: k) ∧ (∀ i k, s.phase ≠ .frame i :: k) ∧
              t = settle s.phase { s with host := hostNext s })))) := by
  have hf : s.fault = none := by
    unfold step at h
    split at h
    · cases h
    · assumption
  refine ⟨hf, ?_⟩
  cases ho : hostOffer s with
  | some q =>
    rw [step_of_offer hf ho] at h
    exact .inl ⟨q, rfl, h⟩
  | none =>
    rw [step_of_no_offer hf ho] at h
    refine .inr ⟨rfl, ?_⟩
    unfold controllerStep at h
    split at h
    · rename_i p k hp
      refine .inl ⟨p, k, hp, ?_⟩
      simpa using h.symm
    · rename_i i k hp; exact .inr (.inl ⟨i, k, hp, h⟩)
    · rename_i h1 h2
      exact .inr (.inr ⟨h1, h2, by simpa using h.symm⟩)

/-- The phase settling leaves, by induction on what it does on the way: what holds of the code holds of the phase. -/
theorem settle_phase_of {P : List Micro → Prop} (assign : ∀ a k, P (.assign a :: k) → P k)
    (test : ∀ sop mask k, P (.test sop mask :: k) → P k ∧ P (.prim (.pollTime sop mask) :: k))
    (abort : ∀ k, P (.abortIfTimeout :: k) → P k ∧ P [.prim (.respond .timeout)]) (k : List Micro) (s : State)
    (h : P k) : P (settle k s).phase := by
  induction k generalizing s with
  | nil => exact h
  | cons m k ih =>
    cases m with
    | assign a => exact ih _ (assign a k h)
    | test sop mask =>
      rw [settle]
      split
      · exact ih _ (test sop mask k h).1
      · exact (test sop mask k h).2
    | abortIfTimeout =>
      rw [settle]
      split
      · exact (abort k h).2
      · exact ih _ (abort k h).1
    | prim p => exact h
    | frame i => exact h

end Sys2Proof.Machine
end

