-- ==== Sys2Proof/Laws/Code.lean ====
section
/-!
SUPPORT. Which items the code of a frame and of an operation is made of, so that a property of every item of the phase
is shown once for each kind of item and not again for each procedure.
-/

namespace Sys2Proof.Machine

/-- The items the code of a frame is made of: assignments to the byte framer's registers and RBUF, and the first accesses
of the line procedures and of the sample (43_transactions.md R170 to R175). -/
def isFrameItem : Micro → Bool
  | .assign (.shift _) => true
  | .assign (.bitIdx _) => true
  | .assign (.byteIdx _) => true
  | .assign .clearRbuf => true
  | .assign .pushRbuf => true
  | .assign .pstat => false
  | .assign (.life _) => false
  | .test _ _ => false
  | .abortIfTimeout => false
  | .prim (.setRead _ _) => true
  | .prim (.setWrite _ _ _) => false
  | .prim .dataRead => true
  | .prim .dirRead => true
  | .prim .sample => true
  | .prim (.enWrite _) => false
  | .prim (.waitEntry _) => false
  | .prim (.pollTime _ _) => false
  | .prim (.respond _) => false
  | .frame _ => false

theorem bitCode_items : ∀ i ∈ bitOrder, (sendBitCode i).all isFrameItem ∧ (recvBitCode i).all isFrameItem := by decide

theorem sendByteCode_items (v : Byte) : (sendByteCode v).all isFrameItem = true := by
  simp only [sendByteCode, List.all_cons, List.all_flatMap, Bool.and_eq_true]
  refine ⟨rfl, ?_⟩
  rw [List.all_eq_true]
  exact fun i hi => (bitCode_items i hi).1

theorem recvByteCode_items : recvByteCode.all isFrameItem = true := by decide

theorem sendBytesCode_items (vs : List Byte) : (sendBytesCode vs).all isFrameItem = true := by
  simp [sendBytesCode, List.all_flatMap, sendByteCode_items]

theorem sendPayloadCode_items (k : Nat) (vs : List Byte) : (sendPayloadCode k vs).all isFrameItem = true := by
  induction vs generalizing k with
  | nil => rfl
  | cons v vs ih => simp only [sendPayloadCode, List.all_cons, List.all_append, sendByteCode_items, ih]; rfl

theorem recvPayloadCode_items (k n : Nat) : (recvPayloadCode k n).all isFrameItem = true := by
  induction n generalizing k with
  | zero => rfl
  | succ n ih => simp only [recvPayloadCode, List.all_cons, List.all_append, recvByteCode_items, ih]; rfl

/-- The code of every frame is made of frame items. -/
theorem frameCode_items (i : Instr) : (frameCode i).all isFrameItem = true := by
  have hs : ∀ op n, (statusReadCode op n).all isFrameItem = true := fun op n => by
    simp only [statusReadCode, List.all_append, recvPayloadCode_items, sendByteCode_items]; rfl
  cases i with
  | callerOpcode op shape =>
    cases shape <;>
      simp only [frameCode, shapeCode, hs, regWriteTxnCode, readTxnCode, progTxnCode, eraseTxnCode, sendAddrCode,
        List.all_append, sendByteCode_items, sendBytesCode_items, sendPayloadCode_items, recvPayloadCode_items] <;> rfl
  | opWren => decide
  | opRdsr => exact hs _ _
  | opRfsr => exact hs _ _
  | _ => rfl

/-- A property of items that every frame item has holds of all of a frame's code. -/
theorem frameCode_all {g : Micro → Bool} (hg : ∀ m, isFrameItem m = true → g m = true) (i : Instr) :
    (frameCode i).all g = true := by
  have h := frameCode_items i
  rw [List.all_eq_true] at h ⊢
  exact fun m hm => hg m (h m hm)

/-- The items the code of an operation is made of: accesses of OPEN and CLOSE, calls of wire commands, waits, responses
(45_facade.md R221 to R227). -/
def isOperationItem : Micro → Bool
  | .assign .pstat => true
  | .assign (.life _) => true
  | .assign (.shift _) => false
  | .assign (.bitIdx _) => false
  | .assign (.byteIdx _) => false
  | .assign .clearRbuf => false
  | .assign .pushRbuf => false
  | .test _ _ => true
  | .abortIfTimeout => true
  | .prim (.setRead _ _) => true
  | .prim (.setWrite _ _ _) => false
  | .prim .dataRead => false
  | .prim .dirRead => false
  | .prim .sample => false
  | .prim (.enWrite v) => v == enOn || v == enOff
  | .prim (.waitEntry _) => true
  | .prim (.pollTime _ _) => false
  | .prim (.respond _) => true
  | .frame .opWren => true
  | .frame .opRdsr => true
  | .frame .opRfsr => true
  | .frame (.callerOpcode _ _) => true
  | .frame .hostOpen => false
  | .frame .hostClose => false
  | .frame (.readReg _ _) => false
  | .frame (.writeReg _ _) => false
  | .frame (.readData _ _ _) => false
  | .frame (.program _ _ _) => false
  | .frame (.erase _ _) => false
  | .frame .reserved => false

/-- The code of every operation is made of operation items. -/
theorem operationCode_items (i : Instr) : (operationCode i).all isOperationItem = true := by
  cases i <;> rfl

/-- A property of items that every operation item has holds of all of an operation's code. -/
theorem operationCode_all {g : Micro → Bool} (hg : ∀ m, isOperationItem m = true → g m = true) (i : Instr) :
    (operationCode i).all g = true := by
  have h := operationCode_items i
  rw [List.all_eq_true] at h ⊢
  exact fun m hm => hg m (h m hm)

/-- A property of items that the two items settling can put in front has is kept by settling. -/
theorem settle_all {g : Micro → Bool} (poll : ∀ sop mask, g (.prim (.pollTime sop mask)) = true)
    (timeout : g (.prim (.respond .timeout)) = true) (k : List Micro) (s : State) (h : k.all g = true) :
    (settle k s).phase.all g = true := by
  refine settle_phase_of (P := fun k => k.all g = true) ?_ ?_ ?_ k s h
  · intro a k h
    rw [List.all_cons, Bool.and_eq_true] at h
    exact h.2
  · intro sop mask k h
    rw [List.all_cons, Bool.and_eq_true] at h
    rw [List.all_cons, poll, h.2]
    exact ⟨rfl, rfl⟩
  · intro k h
    rw [List.all_cons, Bool.and_eq_true] at h
    rw [List.all_cons, timeout]
    exact ⟨h.2, rfl⟩

end Sys2Proof.Machine
end

