-- ==== Sys2Proof/Laws/Ended.lean ====
section
/-!
SUPPORT. How a run ends (60_exceptions.md R271): an idle block whose host is done stays as it is, and `hostDone` says
exactly that no offer ever comes again.
-/

namespace Sys2Proof.Machine

/-- In IDLE a step without an offer moves the host's own field and nothing else (70_reset_and_hazards.md R281). -/
theorem step_of_idle {s : State} (hr : Ready s) (ho : hostOffer s = none) :
    step s = .next { s with host := hostNext s } := by
  obtain ⟨hf, hp⟩ := hr
  simp [step, hf, ho, controllerStep, hp, settle]

theorem hostDone.hostOffer {s : State} (h : hostDone s) : hostOffer s = none := by
  unfold hostDone at h
  unfold Machine.hostOffer
  cases hh : s.host with
  | free n => rw [hh] at h; exact h n le_rfl
  | script moves =>
    rw [hh] at h
    cases moves with
    | nil => rfl
    | cons m ms => exact h m List.mem_cons_self
  | serial requests =>
    rw [hh] at h
    subst h
    rfl

theorem hostDone.next {s : State} (h : hostDone s) : hostDone { s with host := hostNext s } := by
  unfold hostDone at h ⊢
  unfold hostNext
  cases hh : s.host with
  | free n => rw [hh] at h; exact fun m hm => h m (by omega)
  | script moves => rw [hh] at h; exact fun m hm => h m (List.mem_of_mem_tail hm)
  | serial requests => rw [hh] at h; subst h; simp

/-- A run that has ended well stays so: each further step moves the host's own field only. -/
theorem EndedWell.step {s : State} (h : EndedWell s) :
    Machine.step s = .next { s with host := hostNext s } ∧ EndedWell { s with host := hostNext s } :=
  ⟨step_of_idle h.1 h.2.hostOffer, h.1, h.2.next⟩

/-- An endless run that has ended well does not hang. -/
theorem EndedWell.not_hangs {run : Nat → State} {n : Nat} (h : EndedWell (run n)) : ¬ Hangs run := by
  rintro ⟨hrun, m, hm⟩
  have hk : ∀ k, EndedWell (run (n + k)) := by
    intro k
    induction k with
    | zero => exact h
    | succ k ih =>
      rw [← Nat.add_assoc, Host.Outcome.next.inj ((hrun (n + k)).symm.trans ih.step.1)]
      exact ih.step.2
  exact hm (n + m) (by omega) (hk m).1.2

/-- In IDLE, `hostDone` is exactly that the host offers no request at this step or any later one. -/
theorem hostDone_iff {s : State} (hr : Ready s) :
    hostDone s ↔ ∀ k t, stepN k s = .next t → hostOffer t = none := by
  constructor
  · intro h k
    induction k generalizing s with
    | zero => intro t ht; cases ht; exact h.hostOffer
    | succ k ih =>
      intro t ht
      rw [stepN, step_of_idle hr h.hostOffer] at ht
      exact ih (s := { s with host := hostNext s }) hr h.next t ht
  · intro h
    have later : ∀ {s : State}, Ready s → (∀ k t, stepN k s = .next t → hostOffer t = none) →
        ∀ k t, stepN k { s with host := hostNext s } = .next t → hostOffer t = none := by
      intro s hr h k t ht
      refine h (k + 1) t ?_
      rw [stepN, step_of_idle hr (h 0 s rfl)]
      exact ht
    unfold hostDone
    cases hh : s.host with
    | free n =>
      have key : ∀ d (s : State) (n : Nat), Ready s → s.host = .free n →
          (∀ k t, stepN k s = .next t → hostOffer t = none) → Config.hostMove (n + d) s.trace = none := by
        intro d
        induction d with
        | zero =>
          intro s n _ hn h
          have := h 0 s rfl
          simpa [hostOffer, hn] using this
        | succ d ih =>
          intro s n hr hn h
          have := ih { s with host := hostNext s } (n + 1) hr (by simp [hostNext, hn]) (later hr h)
          rwa [Nat.add_right_comm] at this
      intro m hm
      obtain ⟨d, rfl⟩ := Nat.exists_eq_add_of_le hm
      exact key d s n hr hh h
    | script moves =>
      have key : ∀ (moves : List (Option Request)) (s : State), Ready s → s.host = .script moves →
          (∀ k t, stepN k s = .next t → hostOffer t = none) → ∀ m ∈ moves, m = none := by
        intro moves
        induction moves with
        | nil => intro s _ _ _ m hm; cases hm
        | cons a ms ih =>
          intro s hr hn h m hm
          rcases List.mem_cons.mp hm with rfl | hm
          · simpa [hostOffer, hn] using h 0 s rfl
          · exact ih { s with host := hostNext s } hr (by simp [hostNext, hn]) (later hr h) m hm
      exact key moves s hr hh h
    | serial requests =>
      have := h 0 s rfl
      cases requests with
      | nil => rfl
      | cons q qs => simp [hostOffer, hh, busy, hr.2] at this

end Sys2Proof.Machine
end

