-- ==== Sys2Proof/Laws/Wire.lean ====
section
/-!
SUPPORT. What the procedures of Machine/Reference.lean put on the lines: the value each line has after a write, and for
each procedure its events, the bits sent and received and the numbers of accesses, added up along a sequence.
-/

namespace Sys2Proof.Machine

/-! ### Lines of CTRL -/

/-- Writing one line sets it and keeps every other line (40_line_access.md R120). -/
theorem lineOf_setLine (p : Params) (l m : Line) (v : Bool) (r : Byte) :
    lineOf p l (setLine p m v r) = if l = m then v else lineOf p l r := by
  obtain ⟨base, d, n, por⟩ := p
  cases d <;> cases l <;> cases m <;> cases v <;>
    simp [lineOf, setLine, lineMask, lineIndex, doutIndex]

/-! ### Lists of events -/

@[simp] theorem ctrlWrites_append (a b : List Event) : ctrlWrites (a ++ b) = ctrlWrites a ++ ctrlWrites b := by
  induction a with
  | nil => rfl
  | cons e a ih => cases e <;> simp [ctrlWrites, ih]

@[simp] theorem ctrlReads_append (a b : List Event) : ctrlReads (a ++ b) = ctrlReads a ++ ctrlReads b := by
  induction a with
  | nil => rfl
  | cons e a ih => cases e <;> simp [ctrlReads, ih]

@[simp] theorem dinReads_append (a b : List Event) : dinReads (a ++ b) = dinReads a ++ dinReads b := by
  induction a with
  | nil => rfl
  | cons e a ih => cases e <;> simp [dinReads, ih]

@[simp] theorem enWrites_append (a b : List Event) : enWrites (a ++ b) = enWrites a ++ enWrites b := by
  induction a with
  | nil => rfl
  | cons e a ih => cases e <;> simp [enWrites, ih]

@[simp] theorem timeReads_append (a b : List Event) : timeReads (a ++ b) = timeReads a ++ timeReads b := by
  induction a with
  | nil => rfl
  | cons e a ih => cases e <;> simp [timeReads, ih]

@[simp] theorem responses_append (a b : List Event) : responses (a ++ b) = responses a ++ responses b := by
  induction a with
  | nil => rfl
  | cons e a ih => cases e <;> simp [responses, ih]

@[simp] theorem requests_append (a b : List Event) : requests (a ++ b) = requests a ++ requests b := by
  induction a with
  | nil => rfl
  | cons e a ih => cases e <;> simp [requests, ih]

@[simp] theorem dataBits_append (a b : List Event) : dataBits (a ++ b) = dataBits a ++ dataBits b := by
  simp [dataBits]

/-- The rising edges of two runs of writes, one after the other. -/
theorem risingEdges_append (p : Params) (c : Byte) (a b : List Byte) :
    risingEdges p c (a ++ b) = risingEdges p c a ++ risingEdges p (a.getLastD c) b := by
  induction a generalizing c with
  | nil => rfl
  | cons w a ih =>
    rw [List.cons_append, risingEdges, risingEdges, ih w]
    rw [List.getLastD_cons]
    split <;> rfl

theorem sentBits_append (p : Params) (c : Byte) (a b : List Byte) :
    sentBits p c (a ++ b) = sentBits p c a ++ sentBits p (a.getLastD c) b := by
  simp [sentBits, risingEdges_append]

theorem receivedCount_append (p : Params) (c : Byte) (a b : List Byte) :
    receivedCount p c (a ++ b) = receivedCount p c a + receivedCount p (a.getLastD c) b := by
  simp [receivedCount, risingEdges_append]

theorem getLastD_append {α : Type} (a b : List α) (c : α) : (a ++ b).getLastD c = b.getLastD (a.getLastD c) := by
  induction a generalizing c with
  | nil => rfl
  | cons x a ih => rw [List.cons_append, List.getLastD_cons, List.getLastD_cons, ih]

/-! ### What a stretch of accesses did -/

/-- The totals of a stretch: the bits the device latched, the bits read, how many bits the device presented, and how many
reads and writes of CTRL there were. -/
structure Tally where
  sent : List Bool
  got : List Bool
  presented : Nat
  reads : Nat
  writes : Nat

/-- Two stretches, one after the other. -/
def Tally.then (a b : Tally) : Tally :=
  { sent := a.sent ++ b.sent, got := a.got ++ b.got, presented := a.presented + b.presented
    reads := a.reads + b.reads, writes := a.writes + b.writes }

/-- From `s` to `t` the block only accessed CTRL and DIN: the events are `es`, their totals are `y`, and CS_N is `cs` at
every pulse. -/
structure Did (cs : Bool) (s t : State) (es : List Event) (y : Tally) : Prop where
  trace : t.trace = s.trace ++ es
  ctrl : t.ctrl = (ctrlWrites es).getLastD s.ctrl
  moved : OnlyLinesMoved s t
  sent : sentBits s.params s.ctrl (ctrlWrites es) = y.sent
  got : dataBits es = y.got
  presented : receivedCount s.params s.ctrl (ctrlWrites es) = y.presented
  reads : (ctrlReads es).length = y.reads
  writes : (ctrlWrites es).length = y.writes
  selected : ∀ w ∈ risingEdges s.params s.ctrl (ctrlWrites es), lineOf s.params .csN w = cs
  noTime : timeReads es = []
  noReply : responses es = []
  noRequest : requests es = []
  noEn : enWrites es = []

theorem OnlyLinesMoved.refl (s : State) : OnlyLinesMoved s s := rfl

theorem OnlyLinesMoved.trans {s t u : State} (h : OnlyLinesMoved s t) (g : OnlyLinesMoved t u) :
    OnlyLinesMoved s u := by
  unfold OnlyLinesMoved at *
  rw [g, h]

theorem OnlyLinesMoved.params {s t : State} (h : OnlyLinesMoved s t) : t.params = s.params := by rw [h]

theorem Did.trans {cs : Bool} {s t u : State} {a b : List Event} {x y : Tally} (h : Did cs s t a x)
    (g : Did cs t u b y) : Did cs s u (a ++ b) (x.then y) := by
  have hp := h.moved.params
  have hc := h.ctrl
  obtain ⟨g1, g2, g3, g4, g5, g6, g7, g8, g9, g10, g11, g12, g13⟩ := g
  rw [hp, hc] at g4 g6
  rw [hp, hc] at g9
  rw [hc] at g2
  constructor
  · rw [g1, h.trace, List.append_assoc]
  · rw [g2, ctrlWrites_append, getLastD_append]
  · exact h.moved.trans g3
  · rw [ctrlWrites_append, sentBits_append, h.sent, g4]; rfl
  · rw [dataBits_append, h.got, g5]; rfl
  · rw [ctrlWrites_append, receivedCount_append, h.presented, g6]; rfl
  · rw [ctrlReads_append, List.length_append, h.reads, g7]; rfl
  · rw [ctrlWrites_append, List.length_append, h.writes, g8]; rfl
  · intro w hw
    rw [ctrlWrites_append, risingEdges_append, List.mem_append] at hw
    exact hw.elim (h.selected w) (g9 w)
  · rw [timeReads_append, h.noTime, g10]; rfl
  · rw [responses_append, h.noReply, g11]; rfl
  · rw [requests_append, h.noRequest, g12]; rfl
  · rw [enWrites_append, h.noEn, g13]; rfl

theorem Did.cast {cs : Bool} {s t : State} {es : List Event} {y y' : Tally} (h : Did cs s t es y) (e : y = y') :
    Did cs s t es y' := e ▸ h

theorem Did.lineOf_dir {cs : Bool} {s t : State} {es : List Event} {y : Tally} (h : Did cs s t es y) (l : Line) :
    lineOf t.params l t.ctrl = lineOf s.params l t.ctrl := by rw [h.moved.params]

/-- An assignment to a byte framer register, or nothing, does no access. -/
theorem Did.ofAssign {cs : Bool} (s : State) (a : Assign) (ha : OnlyLinesMoved s (applyAssign a s)) :
    Did cs s (applyAssign a s) [] { sent := [], got := [], presented := 0, reads := 0, writes := 0 } where
  trace := by simp
  ctrl := by simp [ctrlWrites]
  moved := ha
  sent := rfl
  got := rfl
  presented := rfl
  reads := rfl
  writes := rfl
  selected := by intro w hw; simp [ctrlWrites, risingEdges] at hw
  noTime := rfl
  noReply := rfl
  noRequest := rfl
  noEn := rfl

/-! ### setBit, direction and clock -/

@[simp] theorem refSetBit_params (l : Line) (v : Bool) (s : State) : (refSetBit l v s).params = s.params := rfl
@[simp] theorem refSetBit_ctrl (l : Line) (v : Bool) (s : State) :
    (refSetBit l v s).ctrl = setLine s.params l v s.ctrl := rfl
@[simp] theorem refSetBit_shift (l : Line) (v : Bool) (s : State) : (refSetBit l v s).shift = s.shift := rfl
@[simp] theorem refSetBit_bitIdx (l : Line) (v : Bool) (s : State) : (refSetBit l v s).bitIdx = s.bitIdx := rfl
@[simp] theorem refSetBit_rbuf (l : Line) (v : Bool) (s : State) : (refSetBit l v s).rbuf = s.rbuf := rfl

/-- Writing a line other than CLK makes no rising edge. -/
theorem Did.setBit {cs : Bool} {l : Line} (hl : l ≠ .clk) (v : Bool) (s : State) :
    Did cs s (refSetBit l v s) [.cr s.ctrl, .cw (setLine s.params l v s.ctrl)]
      { sent := [], got := [], presented := 0, reads := 1, writes := 1 } := by
  have hclk : lineOf s.params .clk (setLine s.params l v s.ctrl) = lineOf s.params .clk s.ctrl := by
    rw [lineOf_setLine, if_neg (Ne.symm hl)]
  have hedge : risingEdges s.params s.ctrl [setLine s.params l v s.ctrl] = [] := by
    simp [risingEdges, hclk]
  constructor
  · simp [refSetBit]
  · rfl
  · rfl
  · simp [sentBits, ctrlWrites, hedge]
  · rfl
  · simp [receivedCount, ctrlWrites, hedge]
  · rfl
  · rfl
  · simp [ctrlWrites, hedge]
  · rfl
  · rfl
  · rfl
  · rfl

/-- The events of a pulse. -/
def clockEvents (p : Params) (c : Byte) : List Event :=
  [.cr c, .cw (setLine p .clk false c), .cr (setLine p .clk false c),
    .cw (setLine p .clk true (setLine p .clk false c))]

/-- A pulse is one rising edge, with every other line as it was (41_bit_clock.md R140, R142). -/
theorem Did.clock (s : State) :
    Did (lineOf s.params .csN s.ctrl) s (refClock s) (clockEvents s.params s.ctrl)
      { sent := if lineOf s.params .dir s.ctrl then [lineOf s.params .dout s.ctrl] else []
        got := [], presented := if lineOf s.params .dir s.ctrl then 0 else 1, reads := 2, writes := 2 } := by
  have hedge : risingEdges s.params s.ctrl
      [setLine s.params .clk false s.ctrl, setLine s.params .clk true (setLine s.params .clk false s.ctrl)] =
      [setLine s.params .clk true (setLine s.params .clk false s.ctrl)] := by
    simp [risingEdges, lineOf_setLine]
  constructor
  · simp [refClock, refSetBit, clockEvents]
  · rfl
  · rfl
  · simp only [sentBits, clockEvents, ctrlWrites, hedge]
    cases h : lineOf s.params .dir s.ctrl <;> simp [lineOf_setLine, h]
  · rfl
  · simp only [receivedCount, clockEvents, ctrlWrites, hedge]
    cases h : lineOf s.params .dir s.ctrl <;> simp [lineOf_setLine, h]
  · rfl
  · rfl
  · simp [clockEvents, ctrlWrites, hedge, lineOf_setLine]
  · rfl
  · rfl
  · rfl
  · rfl

/-! ### One bit, one byte -/

theorem refDirOut_lines (l : Line) (s : State) :
    lineOf s.params l (refDirOut s).ctrl = if l = .dir then true else lineOf s.params l s.ctrl := by
  unfold refDirOut
  by_cases h : lineOf s.params .dir s.ctrl = true
  · rw [if_pos h]
    split
    · rename_i hl; rw [hl]; exact h
    · rfl
  · rw [if_neg h, refSetBit_ctrl, lineOf_setLine]

@[simp] theorem refDirOut_params (s : State) : (refDirOut s).params = s.params := by
  unfold refDirOut; split <;> rfl

@[simp] theorem refDirOut_shift (s : State) : (refDirOut s).shift = s.shift := by
  unfold refDirOut; split <;> rfl

/-- `dirOutIfNeeded` (40_line_access.md R128). -/
theorem Did.dirOut {cs : Bool} (s : State) :
    ∃ es, Did cs s (refDirOut s) es
      { sent := [], got := [], presented := 0, reads := 1
        writes := if lineOf s.params .dir s.ctrl then 0 else 1 } := by
  unfold refDirOut
  by_cases h : lineOf s.params .dir s.ctrl = true
  · rw [if_pos h, if_pos h]
    exact ⟨[.cr s.ctrl], rfl, rfl, rfl, rfl, rfl, rfl, rfl, rfl,
      by intro w hw; simp [ctrlWrites, risingEdges] at hw, rfl, rfl, rfl, rfl⟩
  · rw [if_neg h, if_neg h]
    exact ⟨_, Did.setBit (by decide) true s⟩

@[simp] theorem refClock_params (s : State) : (refClock s).params = s.params := rfl
@[simp] theorem refClock_shift (s : State) : (refClock s).shift = s.shift := rfl
@[simp] theorem refClock_bitIdx (s : State) : (refClock s).bitIdx = s.bitIdx := rfl
@[simp] theorem refClock_rbuf (s : State) : (refClock s).rbuf = s.rbuf := rfl

theorem refClock_lines (l : Line) (s : State) :
    lineOf s.params l (refClock s).ctrl = if l = .clk then true else lineOf s.params l s.ctrl := by
  simp only [refClock, refSetBit_ctrl, refSetBit_params, lineOf_setLine]
  split <;> rfl

@[simp] theorem refSendBit_params (i : Fin 8) (s : State) : (refSendBit i s).params = s.params := by
  simp [refSendBit]

@[simp] theorem refSendBit_shift (i : Fin 8) (s : State) : (refSendBit i s).shift = s.shift := by
  simp [refSendBit, applyAssign]

/-- The lines after one bit sent. -/
theorem refSendBit_lines (i : Fin 8) (l : Line) (s : State) :
    lineOf s.params l (refSendBit i s).ctrl =
      match l with
      | .clk => true
      | .dir => true
      | .dout => s.shift.getLsbD i
      | .csN => lineOf s.params .csN s.ctrl
      | .cap => lineOf s.params .cap s.ctrl := by
  have h1 := refClock_lines l (refDirOut (refSetBit .dout (s.shift.getLsbD i) { s with bitIdx := i }))
  have h2 := refDirOut_lines l (refSetBit .dout (s.shift.getLsbD i) { s with bitIdx := i })
  simp only [refDirOut_params, refSetBit_params, refSetBit_ctrl, lineOf_setLine] at h1 h2
  rw [h2] at h1
  rw [show (refSendBit i s).ctrl =
    (refClock (refDirOut (refSetBit .dout (s.shift.getLsbD i) { s with bitIdx := i }))).ctrl from rfl, h1]
  cases l <;> simp

/-- One bit sent: one bit latched, and one write more where DIR was 0 (42_byte_framer.md R150). -/
theorem Did.sendBit (i : Fin 8) (s : State) :
    ∃ es, Did (lineOf s.params .csN s.ctrl) s (refSendBit i s) es
      { sent := [s.shift.getLsbD i], got := [], presented := 0, reads := 4
        writes := if lineOf s.params .dir s.ctrl then 3 else 4 } := by
  let a := applyAssign (.bitIdx i) s
  let b := refSetBit .dout (s.shift.getLsbD i) a
  have ha : Did (lineOf s.params .csN s.ctrl) s a [] _ := Did.ofAssign s (.bitIdx i) rfl
  have hb : Did (lineOf s.params .csN s.ctrl) a b _ _ := Did.setBit (by decide) _ a
  obtain ⟨es, hd⟩ := Did.dirOut (cs := lineOf s.params .csN s.ctrl) b
  have hc := Did.clock (refDirOut b)
  have hp : (refDirOut b).params = s.params := by simp [b, a]
  have hb' : ∀ l, lineOf s.params l b.ctrl = if l = .dout then s.shift.getLsbD i else lineOf s.params l s.ctrl :=
    fun l => lineOf_setLine s.params l .dout _ s.ctrl
  have hbp : b.params = s.params := rfl
  have hl : ∀ l, lineOf s.params l (refDirOut b).ctrl =
      if l = .dir then true else if l = .dout then s.shift.getLsbD i else lineOf s.params l s.ctrl := fun l => by
    have := refDirOut_lines l b
    rw [hbp] at this
    rw [this, hb']
  rw [hp, hl, hl, hl] at hc
  rw [hbp, hb'] at hd
  simp at hc hd
  refine ⟨_, (((ha.trans hb).trans hd).trans hc).cast ?_⟩
  cases lineOf s.params .dir s.ctrl <;> simp [Tally.then]

/-- Bits sent with DIR = 1 already. -/
theorem Did.sendBits (is : List (Fin 8)) (s : State) (hd : lineOf s.params .dir s.ctrl = true) :
    ∃ es, Did (lineOf s.params .csN s.ctrl) s (is.foldl (fun t i => refSendBit i t) s) es
      { sent := is.map (fun i : Fin 8 => s.shift.getLsbD i.val), got := [], presented := 0, reads := 4 * is.length
        writes := 3 * is.length } := by
  induction is generalizing s with
  | nil => exact ⟨[], by simpa [applyAssign] using Did.ofAssign s (.shift s.shift) rfl⟩
  | cons i is ih =>
    obtain ⟨e1, h1⟩ := Did.sendBit i s
    have hp := refSendBit_params i s
    have hl := fun l => refSendBit_lines i l s
    obtain ⟨e2, h2⟩ := ih (refSendBit i s) (by rw [hp, hl])
    rw [hp, hl] at h2
    refine ⟨e1 ++ e2, (h1.trans h2).cast ?_⟩
    simp only [Tally.then, hd, if_true, refSendBit_shift, List.map_cons, List.length_cons, List.singleton_append,
      List.append_nil, Nat.zero_add, Tally.mk.injEq, true_and]
    exact ⟨by omega, by omega⟩

/-- The lines after bits sent, at least one. -/
theorem sendBits_lines (is : List (Fin 8)) (l : Line) (s : State) (i : Fin 8) :
    lineOf s.params l ((is ++ [i]).foldl (fun t i => refSendBit i t) s).ctrl =
      match l with
      | .clk => true
      | .dir => true
      | .dout => s.shift.getLsbD i
      | .csN => lineOf s.params .csN s.ctrl
      | .cap => lineOf s.params .cap s.ctrl := by
  induction is generalizing s with
  | nil => exact refSendBit_lines i l s
  | cons j is ih =>
    have := ih (refSendBit j s)
    rw [refSendBit_params, refSendBit_shift, refSendBit_lines, refSendBit_lines] at this
    rw [List.cons_append, List.foldl_cons, this]

@[simp] theorem sendBits_params (is : List (Fin 8)) (s : State) :
    (is.foldl (fun t i => refSendBit i t) s).params = s.params := by
  induction is generalizing s with
  | nil => rfl
  | cons i is ih => simp [ih]

@[simp] theorem refSendByte_params (v : Byte) (s : State) : (refSendByte v s).params = s.params := by
  simp [refSendByte]

/-- The lines after a byte sent (42_byte_framer.md R150). -/
theorem refSendByte_lines (v : Byte) (l : Line) (s : State) :
    lineOf s.params l (refSendByte v s).ctrl =
      match l with
      | .clk => true
      | .dir => true
      | .dout => v.getLsbD 0
      | .csN => lineOf s.params .csN s.ctrl
      | .cap => lineOf s.params .cap s.ctrl :=
  sendBits_lines [7, 6, 5, 4, 3, 2, 1] l (applyAssign (.shift v) s) 0

/-- A byte sent: its eight bits, most significant first (R150, 30_encoding.md R95). -/
theorem Did.sendByte (v : Byte) (s : State) :
    ∃ es, Did (lineOf s.params .csN s.ctrl) s (refSendByte v s) es
      { sent := wireBits v, got := [], presented := 0, reads := 32
        writes := if lineOf s.params .dir s.ctrl then 24 else 25 } := by
  let a := applyAssign (.shift v) s
  have ha : Did (lineOf s.params .csN s.ctrl) s a [] _ := Did.ofAssign s (.shift v) rfl
  obtain ⟨e1, h1⟩ := Did.sendBit 7 a
  have hl := fun l => refSendBit_lines 7 l a
  have hp : (refSendBit 7 a).params = a.params := refSendBit_params 7 a
  obtain ⟨e2, h2⟩ := Did.sendBits [6, 5, 4, 3, 2, 1, 0] (refSendBit 7 a) (by rw [hp, hl])
  rw [hp, hl, refSendBit_shift] at h2
  refine ⟨_, ((ha.trans h1).trans h2).cast ?_⟩
  simp only [Tally.then, a, applyAssign, wireBits, bitOrder]
  cases lineOf s.params .dir s.ctrl <;> simp

end Sys2Proof.Machine
end

