-- ==== Sys2Proof/Laws/Frames.lean ====
section
/-!
SUPPORT. Bytes received, payloads and whole frames: their totals, the lines and RBUF after them, and what a scripted
device answers to them.
-/

namespace Sys2Proof.Machine

/-! ### A bit and a byte received -/

@[simp] theorem refSample_params (s : State) : (refSample s).params = s.params := rfl
@[simp] theorem refSample_ctrl (s : State) : (refSample s).ctrl = s.ctrl := rfl
@[simp] theorem refSample_bitIdx (s : State) : (refSample s).bitIdx = s.bitIdx := rfl
@[simp] theorem refSample_rbuf (s : State) : (refSample s).rbuf = s.rbuf := rfl
@[simp] theorem refRecvBit_params (i : Fin 8) (s : State) : (refRecvBit i s).params = s.params := rfl
@[simp] theorem refRecvBit_rbuf (i : Fin 8) (s : State) : (refRecvBit i s).rbuf = s.rbuf := rfl

/-- The sample is one DinRead. -/
theorem Did.sample {cs : Bool} (s : State) :
    Did cs s (refSample s) [.dr (dinAnswer s)]
      { sent := [], got := [dinBit (dinAnswer s)], presented := 0, reads := 0, writes := 0 } where
  trace := by simp [refSample]
  ctrl := rfl
  moved := rfl
  sent := rfl
  got := rfl
  presented := rfl
  reads := rfl
  writes := rfl
  selected := by intro w hw; simp [ctrlWrites, risingEdges] at hw
  noTime := rfl
  noReply := rfl
  noRequest := rfl
  noEn := rfl

/-- The lines after one bit received: only CLK can have changed. -/
theorem refRecvBit_lines (i : Fin 8) (l : Line) (s : State) :
    lineOf s.params l (refRecvBit i s).ctrl = if l = .clk then true else lineOf s.params l s.ctrl :=
  refClock_lines l (applyAssign (.bitIdx i) s)

/-- One bit received with DIR = 0 (42_byte_framer.md R151): SHIFT[i] takes it. -/
theorem Did.recvBit (i : Fin 8) (s : State) (hd : lineOf s.params .dir s.ctrl = false) :
    ∃ es b, Did (lineOf s.params .csN s.ctrl) s (refRecvBit i s) es
      { sent := [], got := [b], presented := 1, reads := 2, writes := 2 } ∧
      (refRecvBit i s).shift = putBit s.shift i b := by
  let a := applyAssign (.bitIdx i) s
  have ha : Did (lineOf s.params .csN s.ctrl) s a [] _ := Did.ofAssign s (.bitIdx i) rfl
  have hc := Did.clock a
  refine ⟨_, dinBit (dinAnswer (refClock a)), ((ha.trans hc).trans (Did.sample (refClock a))).cast ?_, rfl⟩
  simp [Tally.then, a, hd]

/-- The byte built from bits put at the positions `is`, one after another. -/
def putBits (v : Byte) : List (Fin 8) → List Bool → Byte
  | i :: is, b :: bs => putBits (putBit v i b) is bs
  | _, _ => v

theorem Did.recvBits (is : List (Fin 8)) (s : State) (hd : lineOf s.params .dir s.ctrl = false) :
    ∃ es bs, Did (lineOf s.params .csN s.ctrl) s (is.foldl (fun t i => refRecvBit i t) s) es
      { sent := [], got := bs, presented := is.length, reads := 2 * is.length, writes := 2 * is.length } ∧
      bs.length = is.length ∧
      (is.foldl (fun t i => refRecvBit i t) s).shift = putBits s.shift is bs := by
  induction is generalizing s with
  | nil => exact ⟨[], [], by simpa [applyAssign] using Did.ofAssign s (.shift s.shift) rfl, rfl, rfl⟩
  | cons i is ih =>
    obtain ⟨e1, b, h1, hs1⟩ := Did.recvBit i s hd
    have hl := fun l => refRecvBit_lines i l s
    obtain ⟨e2, bs, h2, hlen, hs2⟩ := ih (refRecvBit i s) (by rw [refRecvBit_params, hl]; exact hd)
    rw [refRecvBit_params, hl] at h2
    refine ⟨e1 ++ e2, b :: bs, (h1.trans h2).cast ?_, by simp [hlen], ?_⟩
    · simp only [Tally.then, List.nil_append, List.singleton_append, List.length_cons, Tally.mk.injEq, true_and]
      exact ⟨by omega, by omega, by omega⟩
    · rw [List.foldl_cons, hs2, hs1]; rfl

theorem recvBits_lines (is : List (Fin 8)) (i : Fin 8) (l : Line) (s : State) :
    lineOf s.params l ((is ++ [i]).foldl (fun t i => refRecvBit i t) s).ctrl =
      if l = .clk then true else lineOf s.params l s.ctrl := by
  induction is generalizing s with
  | nil => exact refRecvBit_lines i l s
  | cons j is ih =>
    have := ih (refRecvBit j s)
    rw [refRecvBit_params, refRecvBit_lines] at this
    rw [List.cons_append, List.foldl_cons, this]
    split <;> rfl

@[simp] theorem recvBits_rbuf (is : List (Fin 8)) (s : State) :
    (is.foldl (fun t i => refRecvBit i t) s).rbuf = s.rbuf := by
  induction is generalizing s with
  | nil => rfl
  | cons i is ih => simp [ih]

/-- Eight bits put at 7, 6, ..., 0 are the byte whose first bit is the most significant (30_encoding.md R97). -/
theorem putBits_bitOrder (bs : List Bool) (h : bs.length = 8) : putBits 0x00#8 bitOrder bs = byteOfBits bs := by
  match bs, h with
  | [b0, b1, b2, b3, b4, b5, b6, b7], _ =>
    revert b0 b1 b2 b3 b4 b5 b6 b7
    decide

theorem refRecvByte_lines (l : Line) (s : State) :
    lineOf s.params l (refRecvByte s).ctrl =
      if l = .clk then true else if l = .dir then false else lineOf s.params l s.ctrl := by
  have := recvBits_lines [7, 6, 5, 4, 3, 2, 1] 0 l (applyAssign (.shift 0x00#8) (refSetBit .dir false s))
  simp only [applyAssign_params, refSetBit_params, applyAssign_ctrl, refSetBit_ctrl, lineOf_setLine] at this
  exact this

@[simp] theorem refRecvByte_rbuf (s : State) : (refRecvByte s).rbuf = s.rbuf := by
  simp [refRecvByte, applyAssign]

/-- A byte received (R151, 30_encoding.md R97). -/
theorem Did.recvByte (s : State) :
    ∃ es bs, Did (lineOf s.params .csN s.ctrl) s (refRecvByte s) es
      { sent := [], got := bs, presented := 8, reads := 17, writes := 17 } ∧
      bs.length = 8 ∧ (refRecvByte s).shift = byteOfBits bs := by
  let a := refSetBit .dir false s
  let b := applyAssign (.shift 0x00#8) a
  have ha : Did (lineOf s.params .csN s.ctrl) s a _ _ := Did.setBit (by decide) false s
  have hb : Did (lineOf s.params .csN s.ctrl) a b [] _ := Did.ofAssign a (.shift 0x00#8) rfl
  have hl : ∀ l, lineOf s.params l b.ctrl = if l = .dir then false else lineOf s.params l s.ctrl :=
    fun l => lineOf_setLine s.params l .dir false s.ctrl
  have hbp : b.params = s.params := rfl
  obtain ⟨es, bs, h, hlen, hs⟩ := Did.recvBits bitOrder b (by rw [hbp, hl]; rfl)
  rw [hbp, hl] at h
  refine ⟨_, bs, ((ha.trans hb).trans h).cast ?_, hlen, ?_⟩
  · simp [Tally.then, bitOrder]
  · rw [show refRecvByte s = bitOrder.foldl (fun t i => refRecvBit i t) b from rfl, hs]
    exact putBits_bitOrder bs hlen

@[simp] theorem refRecvByte_params (s : State) : (refRecvByte s).params = s.params := by
  obtain ⟨_, _, h, _⟩ := Did.recvByte s
  exact h.moved.params

/-! ### Sequences of bytes -/

theorem sendByte_rbuf (v : Byte) (s : State) : (refSendByte v s).rbuf = s.rbuf := by
  have h : ∀ (is : List (Fin 8)) (s : State), (is.foldl (fun t i => refSendBit i t) s).rbuf = s.rbuf := by
    intro is
    induction is with
    | nil => exact fun _ => rfl
    | cons i is ih =>
      intro s
      rw [List.foldl_cons, ih]
      simp only [refSendBit, refClock_rbuf]
      unfold refDirOut
      split <;> rfl
  exact h _ _

/-- Bytes sent with DIR = 1 already, one after another with assignments `as` between them. -/
theorem Did.sendPayload (k : Nat) (vs : List Byte) (s : State) (hd : lineOf s.params .dir s.ctrl = true) :
    ∃ es, Did (lineOf s.params .csN s.ctrl) s (refSendPayload k vs s) es
      { sent := vs.flatMap wireBits, got := [], presented := 0, reads := 32 * vs.length
        writes := 24 * vs.length } ∧
      (refSendPayload k vs s).rbuf = s.rbuf ∧
      lineOf s.params .dir (refSendPayload k vs s).ctrl = true ∧
      (lineOf s.params .clk s.ctrl = true → lineOf s.params .clk (refSendPayload k vs s).ctrl = true) ∧
      lineOf s.params .csN (refSendPayload k vs s).ctrl = lineOf s.params .csN s.ctrl ∧
      lineOf s.params .cap (refSendPayload k vs s).ctrl = lineOf s.params .cap s.ctrl := by
  induction vs generalizing k s with
  | nil =>
    exact ⟨[], by simpa [applyAssign, refSendPayload] using Did.ofAssign s (.shift s.shift) rfl, rfl, hd, id, rfl, rfl⟩
  | cons v vs ih =>
    let a := applyAssign (.byteIdx k) s
    have ha : Did (lineOf s.params .csN s.ctrl) s a [] _ := Did.ofAssign s (.byteIdx k) rfl
    obtain ⟨e1, h1⟩ := Did.sendByte v a
    have hl := fun l => refSendByte_lines v l a
    have hp : (refSendByte v a).params = s.params := refSendByte_params v a
    have hap : a.params = s.params := rfl
    rw [hap] at hl h1
    obtain ⟨e2, h2, r2, d2, c2, n2, p2⟩ := ih (k + 1) (refSendByte v a) (by rw [hp, hl])
    rw [hp, hl] at h2
    rw [hp] at d2
    rw [hp, hl] at c2
    rw [hp, hl] at n2 p2
    refine ⟨_, ((ha.trans h1).trans h2).cast ?_, ?_, d2, fun _ => c2 rfl, n2, p2⟩
    · have had : lineOf s.params .dir a.ctrl = true := hd
      simp only [Tally.then, had, if_true, List.nil_append, List.flatMap_cons, List.length_cons, Nat.zero_add,
        Tally.mk.injEq, true_and]
      exact ⟨by omega, by omega⟩
    · rw [refSendPayload, r2, sendByte_rbuf]; rfl

theorem Did.sendBytes (vs : List Byte) (s : State) (hd : lineOf s.params .dir s.ctrl = true) :
    ∃ es, Did (lineOf s.params .csN s.ctrl) s (refSendBytes vs s) es
      { sent := vs.flatMap wireBits, got := [], presented := 0, reads := 32 * vs.length
        writes := 24 * vs.length } ∧
      (refSendBytes vs s).rbuf = s.rbuf ∧
      lineOf s.params .dir (refSendBytes vs s).ctrl = true ∧
      (lineOf s.params .clk s.ctrl = true → lineOf s.params .clk (refSendBytes vs s).ctrl = true) ∧
      lineOf s.params .csN (refSendBytes vs s).ctrl = lineOf s.params .csN s.ctrl ∧
      lineOf s.params .cap (refSendBytes vs s).ctrl = lineOf s.params .cap s.ctrl := by
  induction vs generalizing s with
  | nil =>
    exact ⟨[], by simpa [applyAssign, refSendBytes] using Did.ofAssign s (.shift s.shift) rfl, rfl, hd, id, rfl, rfl⟩
  | cons v vs ih =>
    obtain ⟨e1, h1⟩ := Did.sendByte v s
    have hl := fun l => refSendByte_lines v l s
    have hp : (refSendByte v s).params = s.params := refSendByte_params v s
    obtain ⟨e2, h2, r2, d2, c2, n2, p2⟩ := ih (refSendByte v s) (by rw [hp, hl])
    rw [hp, hl] at h2
    rw [hp] at d2
    rw [hp, hl] at c2
    rw [hp, hl] at n2 p2
    refine ⟨_, (h1.trans h2).cast ?_, ?_, d2, fun _ => c2 rfl, n2, p2⟩
    · simp only [Tally.then, hd, if_true, List.nil_append, List.flatMap_cons, List.length_cons, Nat.zero_add,
        Tally.mk.injEq, true_and]
      exact ⟨by omega, by omega⟩
    · rw [show refSendBytes (v :: vs) s = refSendBytes vs (refSendByte v s) from rfl, r2, sendByte_rbuf]

theorem bytesOfBits_cons (n : Nat) (b bs : List Bool) (h : b.length = 8) :
    bytesOfBits (n + 1) (b ++ bs) = byteOfBits b :: bytesOfBits n bs := by
  rw [bytesOfBits, ← h, List.take_left, List.drop_left]

/-- Bytes received into RBUF (43_transactions.md R170, R173, R179). -/
theorem Did.recvPayload (k n : Nat) (s : State) (hc : lineOf s.params .clk s.ctrl = true) :
    ∃ es bs, Did (lineOf s.params .csN s.ctrl) s (refRecvPayload k n s) es
      { sent := [], got := bs, presented := 8 * n, reads := 17 * n, writes := 17 * n } ∧
      bs.length = 8 * n ∧ (refRecvPayload k n s).rbuf = s.rbuf ++ bytesOfBits n bs ∧
      lineOf s.params .clk (refRecvPayload k n s).ctrl = true ∧
      lineOf s.params .csN (refRecvPayload k n s).ctrl = lineOf s.params .csN s.ctrl ∧
      lineOf s.params .cap (refRecvPayload k n s).ctrl = lineOf s.params .cap s.ctrl := by
  induction n generalizing k s with
  | zero =>
    exact ⟨[], [], by simpa [applyAssign, refRecvPayload] using Did.ofAssign s (.shift s.shift) rfl, rfl,
      by simp [refRecvPayload, bytesOfBits], hc, rfl, rfl⟩
  | succ n ih =>
    let a := applyAssign (.byteIdx k) s
    let c := applyAssign .pushRbuf (refRecvByte a)
    have ha : Did (lineOf s.params .csN s.ctrl) s a [] _ := Did.ofAssign s (.byteIdx k) rfl
    obtain ⟨e1, b1, h1, l1, s1⟩ := Did.recvByte a
    have hb : Did (lineOf s.params .csN s.ctrl) (refRecvByte a) c [] _ := Did.ofAssign (refRecvByte a) .pushRbuf rfl
    have hl := fun l => refRecvByte_lines l a
    have hap : a.params = s.params := rfl
    have hac : a.ctrl = s.ctrl := rfl
    have hcp : c.params = s.params := by simp [c, a]
    have hcc : c.ctrl = (refRecvByte a).ctrl := rfl
    rw [hap, hac] at hl h1
    obtain ⟨e2, b2, h2, l2, r2, d2, n2, p2⟩ := ih (k + 1) c (by rw [hcp, hcc, hl]; rfl)
    rw [hcp, hcc, hl] at h2 n2 p2
    rw [hcp] at d2
    refine ⟨_, b1 ++ b2, (((ha.trans h1).trans hb).trans h2).cast ?_, ?_, ?_, d2, n2, p2⟩
    · simp only [Tally.then, List.nil_append, List.append_nil, Nat.zero_add, Nat.add_zero, Tally.mk.injEq, true_and]
      exact ⟨by omega, by omega, by omega⟩
    · rw [List.length_append, l1, l2]; omega
    · rw [show refRecvPayload k (n + 1) s = refRecvPayload (k + 1) n c from rfl, r2, bytesOfBits_cons n b1 b2 l1]
      have : c.rbuf = s.rbuf ++ [byteOfBits b1] := by
        rw [← s1]
        show (refRecvByte a).rbuf ++ [(refRecvByte a).shift] = _
        rw [refRecvByte_rbuf]; rfl
      rw [this, List.append_assoc]; rfl

/-! ### Whole frames -/

/-- What a frame leaves on the lines: deselected, CLK high, CAP as given (43_transactions.md R176, R178). -/
structure EndsFrame (s t : State) (cap : Bool) : Prop where
  csN : lineOf s.params .csN t.ctrl = true
  clk : lineOf s.params .clk t.ctrl = true
  cap : lineOf s.params .cap t.ctrl = cap

/-- The deselect that ends a frame. -/
theorem endsFrame_deselect {s u : State} {cap : Bool} (hp : u.params = s.params)
    (hclk : lineOf s.params .clk u.ctrl = true) (hcap : lineOf s.params .cap u.ctrl = cap) :
    EndsFrame s (refSetBit .csN true u) cap := by
  constructor <;> rw [refSetBit_ctrl, hp, lineOf_setLine] <;> simp [hclk, hcap]

/-- The writes of a frame that sends `n` bytes, by DIR on entry. -/
def frameWrites (own : Nat) (dir : Bool) : Nat := own + if dir then 0 else 1

/-- select and the opcode byte, common to all frames, from `s` with the device deselected or not. -/
theorem Did.selectOpcode (op : Byte) (s : State) :
    ∃ es, Did false s (refSendByte op (refSetBit .csN false s)) es
      { sent := wireBits op, got := [], presented := 0, reads := 33
        writes := frameWrites 25 (lineOf s.params .dir s.ctrl) } ∧
      (refSendByte op (refSetBit .csN false s)).params = s.params ∧
      (refSendByte op (refSetBit .csN false s)).rbuf = s.rbuf ∧
      lineOf s.params .clk (refSendByte op (refSetBit .csN false s)).ctrl = true ∧
      lineOf s.params .dir (refSendByte op (refSetBit .csN false s)).ctrl = true ∧
      lineOf s.params .csN (refSendByte op (refSetBit .csN false s)).ctrl = false ∧
      lineOf s.params .cap (refSendByte op (refSetBit .csN false s)).ctrl = lineOf s.params .cap s.ctrl := by
  let a := refSetBit .csN false s
  have ha : Did false s a _ _ := Did.setBit (by decide) false s
  obtain ⟨e, h⟩ := Did.sendByte op a
  have hap : a.params = s.params := rfl
  have hal : ∀ l, lineOf s.params l a.ctrl = if l = .csN then false else lineOf s.params l s.ctrl :=
    fun l => lineOf_setLine s.params l .csN false s.ctrl
  have hl := fun l => refSendByte_lines op l a
  rw [hap] at hl
  simp only [hal] at hl
  rw [hap, hal, hal] at h
  refine ⟨_, (ha.trans h).cast ?_, refSendByte_params op a, sendByte_rbuf op a, hl .clk, hl .dir, hl .csN, hl .cap⟩
  simp only [Tally.then, frameWrites]
  cases lineOf s.params .dir s.ctrl <;> simp

/-- The write-enable frame (R171). -/
theorem Did.wrenTxn (s : State) :
    ∃ es, Did false s (refWrenTxn s) es
      { sent := wireBits wrenByte, got := [], presented := 0, reads := 34
        writes := frameWrites 26 (lineOf s.params .dir s.ctrl) } ∧
      (refWrenTxn s).rbuf = s.rbuf ∧ EndsFrame s (refWrenTxn s) (lineOf s.params .cap s.ctrl) := by
  obtain ⟨e, h, hp, hr, hk, _, _, hc⟩ := Did.selectOpcode wrenByte s
  refine ⟨_, (h.trans (Did.setBit (by decide) true _)).cast ?_, hr, endsFrame_deselect hp hk hc⟩
  simp only [Tally.then, frameWrites, List.append_nil, Nat.add_zero]
  congr 1
  omega

/-- The register-write frame (R172). -/
theorem Did.regWriteTxn (op : Byte) (data : List Byte) (s : State) :
    ∃ es, Did false s (refRegWriteTxn op data s) es
      { sent := (op :: data).flatMap wireBits, got := [], presented := 0, reads := 34 + 32 * data.length
        writes := frameWrites (26 + 24 * data.length) (lineOf s.params .dir s.ctrl) } ∧
      (refRegWriteTxn op data s).rbuf = s.rbuf ∧
      EndsFrame s (refRegWriteTxn op data s) (lineOf s.params .cap s.ctrl) := by
  obtain ⟨e, h, hp, hr, hk, hd, hn, hc⟩ := Did.selectOpcode op s
  obtain ⟨e2, h2, r2, _, k2, _, c2⟩ := Did.sendPayload 0 data _ (hp ▸ hd)
  rw [hp, hn] at h2
  rw [hp] at k2 c2
  refine ⟨_, ((h.trans h2).trans (Did.setBit (by decide) true _)).cast ?_, r2.trans hr,
    endsFrame_deselect (h2.moved.params.trans hp) (k2 hk) (c2.trans hc)⟩
  simp only [Tally.then, frameWrites, List.append_nil, Nat.add_zero, List.flatMap_cons, Tally.mk.injEq, true_and]
  exact ⟨by omega, by omega⟩

/-- select, opcode and address, common to the frames with an address. -/
theorem Did.selectAddress (op : Byte) (a : Addr) (s : State) :
    ∃ es t, t = refSendBytes (addrBytes a) (refSendByte op (refSetBit .csN false s)) ∧
      Did false s t es
        { sent := (op :: addrBytes a).flatMap wireBits, got := [], presented := 0, reads := 129
          writes := frameWrites 97 (lineOf s.params .dir s.ctrl) } ∧
      t.params = s.params ∧ t.rbuf = s.rbuf ∧ lineOf s.params .clk t.ctrl = true ∧
      lineOf s.params .dir t.ctrl = true ∧ lineOf s.params .csN t.ctrl = false ∧
      lineOf s.params .cap t.ctrl = lineOf s.params .cap s.ctrl := by
  obtain ⟨e, h, hp, hr, hk, hd, hn, hc⟩ := Did.selectOpcode op s
  obtain ⟨e2, h2, r2, d2, k2, n2, c2⟩ := Did.sendBytes (addrBytes a) _ (hp ▸ hd)
  rw [hp, hn] at h2
  rw [hp] at d2 k2 n2 c2
  refine ⟨_, _, rfl, (h.trans h2).cast ?_, h2.moved.params.trans hp, r2.trans hr, k2 hk, d2, n2.trans hn, c2.trans hc⟩
  simp only [Tally.then, frameWrites, List.append_nil, Nat.add_zero, List.flatMap_cons, Tally.mk.injEq, true_and,
    addrBytes, List.length_cons, List.length_nil]
  omega

/-- The program frame (R174). -/
theorem Did.progTxn (op : Byte) (a : Addr) (data : List Byte) (s : State) :
    ∃ es, Did false s (refProgTxn op a data s) es
      { sent := (op :: (addrBytes a ++ data)).flatMap wireBits, got := [], presented := 0
        reads := 130 + 32 * data.length
        writes := frameWrites (98 + 24 * data.length) (lineOf s.params .dir s.ctrl) } ∧
      (refProgTxn op a data s).rbuf = s.rbuf ∧
      EndsFrame s (refProgTxn op a data s) (lineOf s.params .cap s.ctrl) := by
  obtain ⟨e, t, ht, h, hp, hr, hk, hd, hn, hc⟩ := Did.selectAddress op a s
  obtain ⟨e2, h2, r2, _, k2, _, c2⟩ := Did.sendPayload 0 data t (hp ▸ hd)
  rw [hp, hn] at h2
  rw [hp] at k2 c2
  have hf : refProgTxn op a data s = refSetBit .csN true (refSendPayload 0 data t) := by rw [ht]; rfl
  rw [hf]
  refine ⟨_, ((h.trans h2).trans (Did.setBit (by decide) true _)).cast ?_, r2.trans hr,
    endsFrame_deselect (h2.moved.params.trans hp) (k2 hk) (c2.trans hc)⟩
  simp only [Tally.then, frameWrites, List.append_nil, Nat.add_zero, List.flatMap_cons, List.flatMap_append,
    List.append_assoc, Tally.mk.injEq, true_and]
  exact ⟨by omega, by omega⟩

/-- The erase frame (R175). -/
theorem Did.eraseTxn (op : Byte) (a : Addr) (s : State) :
    ∃ es, Did false s (refEraseTxn op a s) es
      { sent := (op :: addrBytes a).flatMap wireBits, got := [], presented := 0, reads := 130
        writes := frameWrites 98 (lineOf s.params .dir s.ctrl) } ∧
      (refEraseTxn op a s).rbuf = s.rbuf ∧ EndsFrame s (refEraseTxn op a s) (lineOf s.params .cap s.ctrl) := by
  obtain ⟨e, t, ht, h, hp, hr, hk, _, _, hc⟩ := Did.selectAddress op a s
  have hf : refEraseTxn op a s = refSetBit .csN true t := by rw [ht]; rfl
  rw [hf]
  refine ⟨_, (h.trans (Did.setBit (by decide) true _)).cast ?_, hr, endsFrame_deselect hp hk hc⟩
  simp only [Tally.then, frameWrites, List.append_nil, Nat.add_zero, Tally.mk.injEq, true_and]
  omega

/-- Receive `n` bytes into an emptied RBUF and deselect: the end of the two frames that receive. -/
theorem Did.receiveAndDeselect (n : Nat) (s : State) (hk : lineOf s.params .clk s.ctrl = true)
    (hn : lineOf s.params .csN s.ctrl = false) :
    ∃ es bs, Did false s (refSetBit .csN true (refRecvPayload 0 n (applyAssign .clearRbuf s))) es
        { sent := [], got := bs, presented := 8 * n, reads := 17 * n + 1, writes := 17 * n + 1 } ∧
      bs.length = 8 * n ∧
      (refSetBit .csN true (refRecvPayload 0 n (applyAssign .clearRbuf s))).rbuf = bytesOfBits n bs ∧
      EndsFrame s (refSetBit .csN true (refRecvPayload 0 n (applyAssign .clearRbuf s)))
        (lineOf s.params .cap s.ctrl) := by
  have ha : Did false s (applyAssign .clearRbuf s) [] _ := Did.ofAssign s .clearRbuf rfl
  obtain ⟨e, bs, h, hlen, hr, k2, _, c2⟩ := Did.recvPayload 0 n (applyAssign .clearRbuf s) hk
  simp only [applyAssign_params, applyAssign_ctrl, hn] at h k2 c2
  refine ⟨_, bs, ((ha.trans h).trans (Did.setBit (by decide) true _)).cast ?_, hlen, ?_,
    endsFrame_deselect h.moved.params k2 c2⟩
  · simp [Tally.then]
  · rw [refSetBit_rbuf, hr]; rfl

/-- The status-read frame (R170). -/
theorem Did.statusRead (op : Byte) (n : Nat) (s : State) :
    ∃ es bs, Did false s (refStatusRead op n s) es
      { sent := wireBits op, got := bs, presented := 8 * n, reads := 36 + 17 * n
        writes := frameWrites (28 + 17 * n) (lineOf s.params .dir s.ctrl) } ∧
      bs.length = 8 * n ∧ (refStatusRead op n s).rbuf = bytesOfBits n bs ∧
      EndsFrame s (refStatusRead op n s) true := by
  let a := refSetBit .csN true s
  let b := refSetBit .cap true a
  have ha : Did false s a _ _ := Did.setBit (by decide) true s
  have hb : Did false a b _ _ := Did.setBit (by decide) true a
  have hbp : b.params = s.params := rfl
  have hbl : ∀ l, lineOf s.params l b.ctrl =
      if l = .cap then true else if l = .csN then true else lineOf s.params l s.ctrl := fun l => by
    rw [show b.ctrl = setLine s.params .cap true (setLine s.params .csN true s.ctrl) from rfl, lineOf_setLine,
      lineOf_setLine]
  obtain ⟨e, h, hp, _, hk, _, hn, hc⟩ := Did.selectOpcode op b
  rw [hbp] at h hk hn hc hp
  rw [hbl] at h hc
  obtain ⟨e2, bs, h2, hlen, hr, hf⟩ := Did.receiveAndDeselect n _ (hp ▸ hk) (hp ▸ hn)
  rw [hp, hc] at hf
  refine ⟨_, bs, (((ha.trans hb).trans h).trans h2).cast ?_, hlen, hr, ⟨hp ▸ hf.csN, hp ▸ hf.clk, hp ▸ hf.cap⟩⟩
  simp only [Tally.then, frameWrites, List.append_nil, List.nil_append, Nat.zero_add, Tally.mk.injEq, true_and]
  refine ⟨by omega, ?_⟩
  simp
  omega

/-- The data-read frame (R173). -/
theorem Did.readTxn (op : Byte) (a : Addr) (n : Nat) (s : State) :
    ∃ es bs, Did false s (refReadTxn op a n s) es
      { sent := (op :: addrBytes a).flatMap wireBits, got := bs, presented := 8 * n, reads := 131 + 17 * n
        writes := frameWrites (99 + 17 * n) (lineOf s.params .dir s.ctrl) } ∧
      bs.length = 8 * n ∧ (refReadTxn op a n s).rbuf = bytesOfBits n bs ∧
      EndsFrame s (refReadTxn op a n s) true := by
  obtain ⟨e, t, ht, h, hp, _, hk, _, hn, _⟩ := Did.selectAddress op a s
  let b := refSetBit .cap true t
  have hb : Did false t b _ _ := Did.setBit (by decide) true t
  have hbp : b.params = s.params := hp
  have hbl : ∀ l, lineOf s.params l b.ctrl = if l = .cap then true else lineOf s.params l t.ctrl := fun l => by
    rw [show b.ctrl = setLine t.params .cap true t.ctrl from rfl, hp, lineOf_setLine]
  obtain ⟨e2, bs, h2, hlen, hr, hf⟩ := Did.receiveAndDeselect n b (by rw [hbp, hbl]; exact hk) (by rw [hbp, hbl]; exact hn)
  rw [hbp, hbl] at hf
  have hfr : refReadTxn op a n s = refSetBit .csN true (refRecvPayload 0 n (applyAssign .clearRbuf b)) := by
    rw [show b = refSetBit .cap true t from rfl, ht]; rfl
  rw [hfr]
  refine ⟨_, bs, ((h.trans hb).trans h2).cast ?_, hlen, hr, ⟨hbp ▸ hf.csN, hbp ▸ hf.clk, hbp ▸ hf.cap⟩⟩
  simp only [Tally.then, frameWrites, List.append_nil, List.nil_append, Nat.zero_add, Tally.mk.injEq, true_and]
  exact ⟨by omega, by omega⟩

/-! ### A scripted device -/

/-- What a scripted device has left to answer is used up by DinReads only. -/
theorem deviceAfterWrite_scripted (p : Params) (o n : Byte) (xs : List Byte) :
    deviceAfterWrite p o n (.scripted xs) = .scripted xs := rfl

theorem refSetBit_scripted {s : State} {xs : List Byte} (l : Line) (v : Bool) (h : s.device = .scripted xs) :
    (refSetBit l v s).device = .scripted xs := by
  show deviceAfterWrite _ _ _ (ctrlRead s).device = _
  rw [ctrlRead_device, h]; rfl

theorem refSendByte_scripted {s : State} {xs : List Byte} (v : Byte) (h : s.device = .scripted xs) :
    (refSendByte v s).device = .scripted xs := by
  have h1 : ∀ (is : List (Fin 8)) (t : State), t.device = .scripted xs →
      (is.foldl (fun t i => refSendBit i t) t).device = .scripted xs := by
    intro is
    induction is with
    | nil => exact fun _ h => h
    | cons i is ih =>
      intro t ht
      apply ih
      refine refSetBit_scripted _ _ (refSetBit_scripted _ _ ?_)
      unfold refDirOut
      split
      · exact refSetBit_scripted _ _ ht
      · exact refSetBit_scripted _ _ (refSetBit_scripted _ _ ht)
  exact h1 _ _ h

theorem refSendBytes_scripted {s : State} {xs : List Byte} (vs : List Byte) (h : s.device = .scripted xs) :
    (refSendBytes vs s).device = .scripted xs := by
  induction vs generalizing s with
  | nil => exact h
  | cons v vs ih => exact ih (refSendByte_scripted v h)

theorem refSendPayload_scripted {s : State} {xs : List Byte} (k : Nat) (vs : List Byte)
    (h : s.device = .scripted xs) : (refSendPayload k vs s).device = .scripted xs := by
  induction vs generalizing k s with
  | nil => exact h
  | cons v vs ih => exact ih (k + 1) (refSendByte_scripted v h)

/-- One bit of a scripted byte received. -/
theorem refRecvBit_scripted {s : State} {b : Bool} {xs : List Byte} (i : Fin 8)
    (h : s.device = .scripted ((BitVec.ofBool b).setWidth 8 :: xs)) :
    (refRecvBit i s).device = .scripted xs ∧ (refRecvBit i s).shift = putBit s.shift i b := by
  have hd : (refClock (applyAssign (.bitIdx i) s)).device = .scripted ((BitVec.ofBool b).setWidth 8 :: xs) :=
    refSetBit_scripted _ _ (refSetBit_scripted _ _ h)
  constructor
  · show deviceAfterRead (refClock (applyAssign (.bitIdx i) s)).device = _
    rw [hd]; rfl
  · show putBit _ _ (dinBit (dinAnswer (refClock (applyAssign (.bitIdx i) s)))) = _
    rw [show dinAnswer (refClock (applyAssign (.bitIdx i) s)) = (BitVec.ofBool b).setWidth 8 by
      unfold dinAnswer; rw [hd]]
    cases b <;> rfl

theorem refRecvBits_scripted {s : State} (is : List (Fin 8)) (bs : List Bool) {xs : List Byte}
    (hl : bs.length = is.length)
    (h : s.device = .scripted (bs.map (fun b => (BitVec.ofBool b).setWidth 8) ++ xs)) :
    (is.foldl (fun t i => refRecvBit i t) s).device = .scripted xs ∧
      (is.foldl (fun t i => refRecvBit i t) s).shift = putBits s.shift is bs := by
  induction is generalizing s bs with
  | nil => cases bs with
    | nil => exact ⟨h, rfl⟩
    | cons b bs => simp at hl
  | cons i is ih => cases bs with
    | nil => simp at hl
    | cons b bs =>
      obtain ⟨h1, h2⟩ := refRecvBit_scripted i h
      obtain ⟨h3, h4⟩ := ih bs (by simpa using hl) h1
      exact ⟨h3, by rw [List.foldl_cons, h4, h2]; rfl⟩

/-- The bits of a byte, put together again, are the byte (30_encoding.md R95, R97). -/
theorem byteOfBits_wireBits (v : Byte) : byteOfBits (wireBits v) = v := by
  revert v; decide

/-- A scripted device that has the byte `v` ready answers it to a receive. -/
theorem refRecvByte_scripted {s : State} {v : Byte} {xs : List Byte}
    (h : s.device = .scripted (deviceAnswers [v] ++ xs)) :
    (refRecvByte s).device = .scripted xs ∧ (refRecvByte s).shift = v := by
  have ha : (applyAssign (.shift 0x00#8) (refSetBit .dir false s)).device =
      .scripted ((wireBits v).map (fun b => (BitVec.ofBool b).setWidth 8) ++ xs) := by
    have := refSetBit_scripted .dir false h
    simpa [deviceAnswers] using this
  obtain ⟨h1, h2⟩ := refRecvBits_scripted bitOrder (wireBits v) rfl ha
  refine ⟨h1, ?_⟩
  rw [show refRecvByte s = bitOrder.foldl (fun t i => refRecvBit i t) _ from rfl, h2]
  show putBits 0x00#8 bitOrder (wireBits v) = v
  rw [putBits_bitOrder _ rfl, byteOfBits_wireBits]

/-- A poll, with its one-byte receive written out (44_busy_poll.md R200, 92_eei_decisions.md D41). -/
theorem refPoll_eq (sop : Byte) (s : State) :
    refPoll sop s = applyAssign .pstat (refSetBit .csN true (applyAssign .pushRbuf (refRecvByte
      (applyAssign (.byteIdx 0) (applyAssign .clearRbuf
        (refSendByte sop (refSetBit .csN false (refSetBit .cap true (refSetBit .csN true s))))))))) := by
  simp only [refPoll, refStatusRead, refRecvPayload]

/-- A poll of a scripted device that has the byte `v` ready: PSTAT is `v` (44_busy_poll.md R200). -/
theorem refPoll_scripted {s : State} {v : Byte} {xs : List Byte} (sop : Byte)
    (h : s.device = .scripted (deviceAnswers [v] ++ xs)) :
    (refPoll sop s).device = .scripted xs ∧ (refPoll sop s).pstat = v := by
  have h1 : (refSendByte sop (refSetBit .csN false (refSetBit .cap true (refSetBit .csN true s)))).device =
      .scripted (deviceAnswers [v] ++ xs) :=
    refSendByte_scripted sop (refSetBit_scripted _ _ (refSetBit_scripted _ _ (refSetBit_scripted _ _ h)))
  rw [refPoll_eq]
  generalize refSendByte sop (refSetBit .csN false (refSetBit .cap true (refSetBit .csN true s))) = a at h1
  have h2 := refRecvByte_scripted (s := applyAssign (.byteIdx 0) (applyAssign .clearRbuf a)) (by simpa using h1)
  have hr := refRecvByte_rbuf (applyAssign (.byteIdx 0) (applyAssign .clearRbuf a))
  generalize refRecvByte (applyAssign (.byteIdx 0) (applyAssign .clearRbuf a)) = b at h2 hr
  have hb : b.rbuf = [] := hr
  constructor
  · rw [applyAssign_device]
    exact refSetBit_scripted _ _ h2.1
  · show (b.rbuf ++ [b.shift]).headD 0#8 = v
    rw [hb, h2.2]; rfl

end Sys2Proof.Machine
end

