-- ==== Sys2Proof/Laws/Operations.lean ====
section
/-!
SUPPORT. Stretches of an operation that hold waits: what a wait that ends at its first poll did, and how such stretches
add up to a whole operation with a scripted device.
-/

namespace Sys2Proof.Machine

/-- From `s` to `t` the block sent the bits `sent` and read the times `times`, gave no response, and moved no more than
frames and waits move. -/
structure Saw (s t : State) (es : List Event) (sent : List Bool) (times : List Nat) : Prop where
  trace : t.trace = s.trace ++ es
  ctrl : t.ctrl = (ctrlWrites es).getLastD s.ctrl
  moved : OnlyWaited s t
  sent : sentBits s.params s.ctrl (ctrlWrites es) = sent
  times : timeReads es = times
  noReply : responses es = []

theorem OnlyWaited.refl (s : State) : OnlyWaited s s := rfl

theorem OnlyWaited.trans {s t u : State} (h : OnlyWaited s t) (g : OnlyWaited t u) : OnlyWaited s u := by
  unfold OnlyWaited at *
  rw [g, h]

theorem OnlyWaited.params {s t : State} (h : OnlyWaited s t) : t.params = s.params := by rw [h]

theorem OnlyLinesMoved.onlyWaited {s t : State} (h : OnlyLinesMoved s t) : OnlyWaited s t := by
  unfold OnlyLinesMoved at h
  unfold OnlyWaited
  rw [h]

theorem Saw.trans {s t u : State} {a b : List Event} {x y : List Bool} {m n : List Nat} (h : Saw s t a x m)
    (g : Saw t u b y n) : Saw s u (a ++ b) (x ++ y) (m ++ n) := by
  have hp := h.moved.params
  have hc := h.ctrl
  obtain ⟨g1, g2, g3, g4, g5, g6⟩ := g
  rw [hp, hc] at g4
  rw [hc] at g2
  constructor
  · rw [g1, h.trace, List.append_assoc]
  · rw [g2, ctrlWrites_append, getLastD_append]
  · exact h.moved.trans g3
  · rw [ctrlWrites_append, sentBits_append, h.sent, g4]
  · rw [timeReads_append, h.times, g5]
  · rw [responses_append, h.noReply, g6]; rfl

theorem Did.saw {cs : Bool} {s t : State} {es : List Event} {y : Tally} (h : Did cs s t es y) :
    Saw s t es y.sent [] where
  trace := h.trace
  ctrl := h.ctrl
  moved := h.moved.onlyWaited
  sent := h.sent
  times := h.noTime
  noReply := h.noReply

/-- The entry of a wait reads the time. -/
theorem Saw.entry (s : State) (deadline : Nat) :
    Saw s { now s with deadline := deadline } [.tr (nowAnswer s)] [] [nowAnswer s] where
  trace := by simp
  ctrl := rfl
  moved := rfl
  sent := rfl
  times := rfl
  noReply := rfl

/-- The time read after a poll that found the flag set. -/
theorem Saw.timedOut (s : State) (r : WaitResult) :
    Saw s { now s with wres := r } [.tr (nowAnswer s)] [] [nowAnswer s] where
  trace := by simp
  ctrl := rfl
  moved := rfl
  sent := rfl
  times := rfl
  noReply := rfl

theorem Saw.setWres (s : State) (r : WaitResult) : Saw s { s with wres := r } [] [] [] where
  trace := by simp
  ctrl := rfl
  moved := rfl
  sent := rfl
  times := rfl
  noReply := rfl

/-- One poll: the one-byte status read, with CS_N = 1 after it (44_busy_poll.md R200). -/
theorem Saw.poll (sop : Byte) (s : State) :
    ∃ es, Saw s (refPoll sop s) es (wireBits sop) [] ∧ lineOf s.params .csN (refPoll sop s).ctrl = true ∧
      (refPoll sop s).time = s.time ∧ (refPoll sop s).deadline = s.deadline ∧ (refPoll sop s).req = s.req := by
  obtain ⟨es, bs, h, _, _, he⟩ := Did.statusRead sop 1 s
  have hs := h.saw
  refine ⟨es, ⟨hs.trace, hs.ctrl, hs.moved.trans rfl, hs.sent, hs.times, hs.noReply⟩, he.csN, ?_, ?_, ?_⟩
  · show (refStatusRead sop 1 s).time = _; rw [h.moved]
  · show (refStatusRead sop 1 s).deadline = _; rw [h.moved]
  · show (refStatusRead sop 1 s).req = _; rw [h.moved]

/-- A wait whose first poll finds the flag clear (44_busy_poll.md R200). -/
theorem refWait_firstClear {s : State} {v : Byte} {xs : List Byte} (polls : Nat) (w : WaitForm)
    (hd : s.device = .scripted (deviceAnswers [v] ++ xs)) (hv : v &&& w.mask = 0x00#8) :
    ∃ t es n, refWait (polls + 1) w s = some t ∧ Saw s t es (wireBits w.sop) [n] ∧ t.wres = .ok ∧
      t.device = .scripted xs ∧ lineOf s.params .csN t.ctrl = true ∧ t.req = s.req := by
  obtain ⟨es, h, hcs, _, _, hr⟩ := Saw.poll w.sop { now s with deadline := nowAnswer s + w.ms }
  obtain ⟨h1, h2⟩ := refPoll_scripted (s := { now s with deadline := nowAnswer s + w.ms }) w.sop hd
  generalize ht : refPoll w.sop { now s with deadline := nowAnswer s + w.ms } = t at h hcs hr h1 h2
  refine ⟨{ t with wres := .ok }, _, _, ?_, ((Saw.entry s _).trans h).trans (Saw.setWres t .ok), rfl, h1, hcs, hr⟩
  simp only [refWait, refWaitLoop, ht, h2, flagClear, hv, beq_self_eq_true, if_true]

/-- A wait whose first poll finds the flag set and whose next time is past the deadline (44_busy_poll.md R203). -/
theorem refWait_firstTimeout {s : State} {v : Byte} {xs : List Byte} {a b : Nat} {more : List Nat} (polls : Nat)
    (w : WaitForm) (hd : s.device = .scripted (deviceAnswers [v] ++ xs)) (hv : v &&& w.mask ≠ 0x00#8)
    (ht : s.time.advances = a :: b :: more) (hb : b > w.ms) :
    ∃ t es, refWait (polls + 1) w s = some t ∧
      Saw s t es (wireBits w.sop) [s.time.last + a, s.time.last + a + b] ∧ t.wres = .timeout ∧
      lineOf s.params .csN t.ctrl = true := by
  obtain ⟨es, h, hcs, htm, hdl, _⟩ := Saw.poll w.sop { now s with deadline := nowAnswer s + w.ms }
  obtain ⟨_, h2⟩ := refPoll_scripted (s := { now s with deadline := nowAnswer s + w.ms }) w.sop hd
  generalize hp : refPoll w.sop { now s with deadline := nowAnswer s + w.ms } = t at h hcs htm hdl h2
  have hn : nowAnswer s = s.time.last + a := by rw [nowAnswer, ht]
  have hn2 : nowAnswer t = s.time.last + a + b := by
    rw [nowAnswer, htm]
    show nowAnswer s + _ = _
    rw [hn]
    simp [ht]
  have hs := ((Saw.entry s (nowAnswer s + w.ms)).trans h).trans (Saw.timedOut t .timeout)
  rw [hn, hn2] at hs
  refine ⟨{ now t with wres := .timeout }, _, ?_, hs, rfl, hcs⟩
  have hlate : nowAnswer t > t.deadline := by
    rw [hn2, hdl]
    show _ > nowAnswer s + w.ms
    rw [hn]
    omega
  have hf : flagClear t.pstat w.mask = false := by rw [h2, flagClear, beq_eq_false_iff_ne]; exact hv
  simp only [refWait, refWaitLoop, hp, hf, if_pos hlate, Bool.false_eq_true, if_false]

/-! ### Frames leave the script of a scripted device alone where they read nothing -/

theorem refWrenTxn_scripted {s : State} {xs : List Byte} (h : s.device = .scripted xs) :
    (refWrenTxn s).device = .scripted xs :=
  refSetBit_scripted _ _ (refSendByte_scripted _ (refSetBit_scripted _ _ h))

theorem refRegWriteTxn_scripted {s : State} {xs : List Byte} (op : Byte) (data : List Byte)
    (h : s.device = .scripted xs) : (refRegWriteTxn op data s).device = .scripted xs :=
  refSetBit_scripted _ _ (refSendPayload_scripted _ _ (refSendByte_scripted _ (refSetBit_scripted _ _ h)))

theorem refProgTxn_scripted {s : State} {xs : List Byte} (op : Byte) (a : Addr) (data : List Byte)
    (h : s.device = .scripted xs) : (refProgTxn op a data s).device = .scripted xs :=
  refSetBit_scripted _ _ (refSendPayload_scripted _ _ (refSendBytes_scripted _ (refSendByte_scripted _
    (refSetBit_scripted _ _ h))))

theorem refEraseTxn_scripted {s : State} {xs : List Byte} (op : Byte) (a : Addr) (h : s.device = .scripted xs) :
    (refEraseTxn op a s).device = .scripted xs :=
  refSetBit_scripted _ _ (refSendBytes_scripted _ (refSendByte_scripted _ (refSetBit_scripted _ _ h)))

/-- A frame that reads nothing leaves PSTAT, DEADLINE, WRES, time and REQ alone; so does every stretch of accesses. -/
theorem OnlyLinesMoved.req {s t : State} (h : OnlyLinesMoved s t) : t.req = s.req := by rw [h]

theorem OnlyLinesMoved.time {s t : State} (h : OnlyLinesMoved s t) : t.time = s.time := by rw [h]

theorem OnlyWaited.req {s t : State} (h : OnlyWaited s t) : t.req = s.req := by rw [h]

end Sys2Proof.Machine
end

