-- ==== Sys2Proof/Laws/PerInstr.lean ====
section
/-!
SUPPORT. What holds of every instruction as syntax, one lemma per constructor: decoding what encoding gives answers an
instruction whose encoding is the same, so the words on the wire and in the request determine what runs.
-/

namespace Sys2Proof.Laws

/-- The three bytes of an address, put together again, are the address (30_encoding.md R96). -/
theorem addrOfBytes_addrBytes (a : Addr) :
    addrOfBytes (a.extractLsb' 16 8) (a.extractLsb' 8 8) (a.extractLsb' 0 8) = a := by
  apply BitVec.eq_of_getLsbD_eq
  intro i hi
  simp only [addrOfBytes, BitVec.getLsbD_append, BitVec.getLsbD_extractLsb']
  by_cases h1 : i < 8
  · simp [h1]
  · by_cases h2 : i - 8 < 8
    · simp [h1, h2, show 8 + (i - 8) = i by omega]
    · simp [h1, h2, show i - 8 - 8 < 8 by omega, show 16 + (i - 8 - 8) = i by omega]

/-- The frame `op, address bytes, tail` decodes its address. -/
theorem decodeAddressed_addrBytes (k : Addr → List Byte → Decoded) (a : Addr) (tail : List Byte) :
    decodeAddressed k (addrBytes a ++ tail) = k a tail := by
  simp only [addrBytes, List.cons_append, List.nil_append, decodeAddressed, addrOfBytes_addrBytes]

/-- Decoding the encoding of `i` gives an instruction with that same encoding (30_encoding.md R84 to R94). -/
def Encoding.Statement (i : Instr) : Prop := ∃ j, decode (encode i) = .instr j ∧ encode j = encode i

theorem Encoding.hostOpen : Encoding.Statement .hostOpen := ⟨_, rfl, rfl⟩

theorem Encoding.hostClose : Encoding.Statement .hostClose := ⟨_, rfl, rfl⟩

theorem Encoding.readReg (opcode : Byte) (len : Nat) : Encoding.Statement (.readReg opcode len) := ⟨_, rfl, rfl⟩

theorem Encoding.writeReg (opcode : Byte) (data : List Byte) : Encoding.Statement (.writeReg opcode data) :=
  ⟨_, rfl, rfl⟩

theorem Encoding.readData (opcode : Byte) (addr : Addr) (len : Nat) :
    Encoding.Statement (.readData opcode addr len) := ⟨_, rfl, rfl⟩

theorem Encoding.program (opcode : Byte) (addr : Addr) (data : List Byte) :
    Encoding.Statement (.program opcode addr data) := ⟨_, rfl, rfl⟩

theorem Encoding.erase (opcode : Byte) (addr : Addr) : Encoding.Statement (.erase opcode addr) := ⟨_, rfl, rfl⟩

theorem Encoding.reserved : Encoding.Statement .reserved := ⟨_, rfl, rfl⟩

theorem Encoding.opWren : Encoding.Statement .opWren := ⟨_, rfl, rfl⟩

theorem Encoding.opRdsr : Encoding.Statement .opRdsr := ⟨_, rfl, rfl⟩

theorem Encoding.opRfsr : Encoding.Statement .opRfsr := ⟨_, rfl, rfl⟩

/-- A status-read frame, also where it is the frame of a fixed opcode (R89). -/
theorem encode_decodeStatusRead (op : Byte) (n : Nat) :
    encode (decodeStatusRead op n) = .wireFrame (statusReadFrame op n) := by
  unfold decodeStatusRead
  split
  · rename_i h
    rw [h.1, h.2]; rfl
  · split
    · rename_i h
      rw [h.1, h.2]; rfl
    · rfl

theorem Encoding.callerOpcode (opcode : Byte) (shape : FrameShape) :
    Encoding.Statement (.callerOpcode opcode shape) := by
  cases shape with
  | statusRead n => exact ⟨decodeStatusRead opcode n, rfl, encode_decodeStatusRead opcode n⟩
  | regWrite data => exact ⟨_, rfl, rfl⟩
  | dataRead a n =>
    refine ⟨.callerOpcode opcode (.dataRead a n), ?_, rfl⟩
    have h := decodeAddressed_addrBytes
      (fun a tail => if tail = [] then .instr (.callerOpcode opcode (.dataRead a n)) else .bad .extraBytes) a []
    simpa [encode, shapeFrame, decode, decodeFrame] using h
  | dataProgram a data =>
    refine ⟨.callerOpcode opcode (.dataProgram a data), ?_, rfl⟩
    have h := decodeAddressed_addrBytes
      (fun a tail => .instr (.callerOpcode opcode (.dataProgram a tail))) a data
    simpa [encode, shapeFrame, decode, decodeFrame] using h
  | dataErase a =>
    refine ⟨.callerOpcode opcode (.dataErase a), ?_, rfl⟩
    have h := decodeAddressed_addrBytes
      (fun a tail => if tail = [] then .instr (.callerOpcode opcode (.dataErase a)) else .bad .extraBytes) a []
    simpa [encode, shapeFrame, decode, decodeFrame] using h

end Sys2Proof.Laws
end

