-- ==== Sys2Proof/Machine/Text.lean ====
section
/-!
DEFINITION. The textual syntax of requests and of trace events (30_encoding.md R99, R100, 92_eei_decisions.md D35).
-/

namespace Sys2Proof.Machine

/-- One hexadecimal digit, capital. -/
def hexDigit (n : Nat) : Char := ['0', '1', '2', '3', '4', '5', '6', '7', '8', '9', 'A', 'B', 'C', 'D', 'E', 'F'].getD n '0'

/-- The `w` low hexadecimal digits of `n`, most significant first. -/
def hexDigits : Nat → Nat → List Char
  | 0, _ => []
  | w + 1, n => hexDigits w (n / 16) ++ [hexDigit (n % 16)]

/-- `hh`, a byte as R100 writes it. -/
def hexByte (v : Byte) : String := String.ofList (hexDigits 2 v.toNat)

/-- A length, a count or a time, in decimal (R99, R100). -/
def decimal (n : Nat) : String := String.ofList (Nat.toDigits 10 n)

/-- `0xhh` (R99). -/
def byteText (v : Byte) : String := "0x" ++ hexByte v

/-- `0xhhhhhh`, a 24-bit address (R99). -/
def addrText (a : Addr) : String := "0x" ++ String.ofList (hexDigits 6 a.toNat)

/-- Items separated by commas. -/
def commaText : List String → String
  | [] => ""
  | [x] => x
  | x :: xs => x ++ ", " ++ commaText xs

/-- A byte list in brackets (R99). -/
def dataText (vs : List Byte) : String := "[" ++ commaText (vs.map byteText) ++ "]"

/-- A request in the syntax of R99: the mnemonic, then the used fields in the order opcode, addr, then len or data. The
reserved tag has no mnemonic in R85; it is written as the opcode table names its row (log entry 16). -/
def requestText (q : Request) : String :=
  match decodeRequest q with
  | .hostOpen => "OPEN"
  | .hostClose => "CLOSE"
  | .readReg opcode len => "READ_REG " ++ commaText [byteText opcode, decimal len]
  | .writeReg opcode data => "WRITE_REG " ++ commaText [byteText opcode, dataText data]
  | .readData opcode addr len => "READ " ++ commaText [byteText opcode, addrText addr, decimal len]
  | .program opcode addr data => "PROGRAM " ++ commaText [byteText opcode, addrText addr, dataText data]
  | .erase opcode addr => "ERASE " ++ commaText [byteText opcode, addrText addr]
  | .reserved => "reserved"
  | .opWren => ""
  | .opRdsr => ""
  | .opRfsr => ""
  | .callerOpcode _ _ => ""

/-- The name of a status (R91, 60_exceptions.md R250). -/
def statusText : Status → String
  | .ok => "OK"
  | .timeout => "TIMEOUT"
  | .programError => "PROGRAM_ERROR"

/-- The name of a fault reason (60_exceptions.md R255). -/
def faultText : FaultReason → String
  | .busy => "F_BUSY"
  | .badOp => "F_BAD_OP"
  | .notOpen => "F_NOT_OPEN"
  | .len => "F_LEN"

/-- An event in the syntax of R100. -/
def eventText : Event → String
  | .req q => "REQ " ++ requestText q
  | .cr v => "CR " ++ hexByte v
  | .cw v => "CW " ++ hexByte v
  | .dr v => "DR " ++ hexByte v
  | .ew v => "EW " ++ hexByte v
  | .tr t => "TR " ++ decimal t
  | .rsp r =>
    "RSP " ++ commaText [statusText r.status, dataText r.rdata, decimal r.count, if r.eerr then "1" else "0"]
  | .flt r => "FLT " ++ faultText r

/-- A trace in the syntax of R100. -/
def traceText (es : List Event) : String := commaText (es.map eventText)

end Sys2Proof.Machine
end

