-- ==== Sys2Proof/Tests/Slice0.lean ====
section
/-!
SUPPORT. Tests: ill-formed terms the checks refuse, words written out from the spec's encodings, single steps with the
results of spec/95_test_vectors.md, and for each statement with hypotheses a state and operands that meet them.
-/

namespace Sys2Proof.Tests

open Sys2Proof Sys2Proof.Machine

/-! ### Small states -/

/-- BASE 0x1000, DATA_OUT_BIT 4, MAX_LEN 4 (the value of vectors X3 and X4), CTRL_POR 0xE0. -/
def params : Params := { base := 0x1000, dataOutBit := .bit4, maxLen := 4, ctrlPor := 0xE0#8 }

/-- A block in IDLE and CLOSED with CTRL = 0x04, a serial host with nothing to ask, and a scripted device. -/
def closedIdle : State :=
  { State.reset with
    params := params, ctrl := 0x04#8, en := 0x00#8, device := .scripted [],
    time := { last := 0, advances := [] }, host := .serial [] }

/-- The same block after an OPEN. -/
def openIdle : State := { closedIdle with life := .opened, en := 0x01#8, lastEn := some 0x01#8 }

/-- `openIdle` whose host offers `q` now. -/
def offering (q : Request) : State := { openIdle with host := .script [some q] }

/-- `openIdle` with CTRL = `c` and something to do. -/
def doing (c : Byte) (k : List Micro) : State := { openIdle with ctrl := c, phase := k }

/-- The text of TRACE after an outcome (30_encoding.md R100). -/
def traceAfter : Host.Outcome State Fault Refusal → String
  | .next t => traceText t.trace
  | .fault _ => "fault"
  | .refused _ => "refused"

/-- What is left of an outcome's phase, its first item only. -/
def headAfter : Host.Outcome State Fault Refusal → Option Micro
  | .next t => t.phase.head?
  | .fault _ => none
  | .refused _ => none

/-- FAULT after an outcome. -/
def faultAfter : Host.Outcome State Fault Refusal → Option FaultReason
  | .next t => t.fault
  | .fault _ => none
  | .refused _ => none

/-- CTRL after an outcome. -/
def ctrlAfter : Host.Outcome State Fault Refusal → Option Byte
  | .next t => some t.ctrl
  | .fault _ => none
  | .refused _ => none

/-! ### Ill-formed terms (30_encoding.md R87) -/

theorem test_wf_readReg : ¬ Instr.WellFormed params (.readReg 0x05#8 5) := by decide
theorem test_wf_writeReg : ¬ Instr.WellFormed params (.writeReg 0x01#8 [1#8, 2#8, 3#8, 4#8, 5#8]) := by decide
theorem test_wf_readData : ¬ Instr.WellFormed params (.readData 0x03#8 0#24 5) := by decide
theorem test_wf_program : ¬ Instr.WellFormed params (.program 0x02#8 0#24 [1#8, 2#8, 3#8, 4#8, 5#8]) := by decide
theorem test_wf_statusRead : ¬ Instr.WellFormed params (.callerOpcode 0x05#8 (.statusRead 5)) := by decide
theorem test_wf_regWrite :
    ¬ Instr.WellFormed params (.callerOpcode 0x01#8 (.regWrite [1#8, 2#8, 3#8, 4#8, 5#8])) := by decide
theorem test_wf_dataRead : ¬ Instr.WellFormed params (.callerOpcode 0x03#8 (.dataRead 0#24 5)) := by decide
theorem test_wf_dataProgram :
    ¬ Instr.WellFormed params (.callerOpcode 0x02#8 (.dataProgram 0#24 [1#8, 2#8, 3#8, 4#8, 5#8])) := by decide
theorem test_wf_request_len :
    ¬ Request.WellFormed params { op := 0b100#3, opcode := 0x03#8, addr := 0#24, len := 5, data := [] } := by decide
theorem test_wf_request_data :
    ¬ Request.WellFormed params
      { op := 0b101#3, opcode := 0x02#8, addr := 0#24, len := 0, data := [1#8, 2#8, 3#8, 4#8, 5#8] } := by decide
/-- A length of MAX_LEN, and a length field the operation does not use, are well formed (R86, R87). -/
theorem test_wf_boundary :
    Instr.WellFormed params (.readReg 0x05#8 4) ∧
      Request.WellFormed params { op := 0b000#3, opcode := 0#8, addr := 0#24, len := 9, data := [] } := by decide

/-! ### Words written out from the encodings (R85, R88, R94, R96) -/

/-- The host requests, tag and fields as R85 lists them. -/
theorem test_decode_host :
    decodeRequest { op := 0b000#3, opcode := 0xFF#8, addr := 1#24, len := 9, data := [1#8] } = .hostOpen ∧
    decodeRequest { op := 0b001#3, opcode := 0xFF#8, addr := 1#24, len := 9, data := [1#8] } = .hostClose ∧
    decodeRequest { op := 0b010#3, opcode := 0x05#8, addr := 1#24, len := 1, data := [1#8] } = .readReg 0x05#8 1 ∧
    decodeRequest { op := 0b011#3, opcode := 0x01#8, addr := 1#24, len := 9, data := [0#8] } =
      .writeReg 0x01#8 [0#8] := by decide

theorem test_decode_host_data :
    decodeRequest { op := 0b100#3, opcode := 0x03#8, addr := 0x000100#24, len := 2, data := [1#8] } =
      .readData 0x03#8 0x000100#24 2 ∧
    decodeRequest { op := 0b101#3, opcode := 0x02#8, addr := 0x012345#24, len := 9, data := [0xDE#8, 0xAD#8] } =
      .program 0x02#8 0x012345#24 [0xDE#8, 0xAD#8] ∧
    decodeRequest { op := 0b110#3, opcode := 0xD8#8, addr := 0x010000#24, len := 9, data := [1#8] } =
      .erase 0xD8#8 0x010000#24 ∧
    decodeRequest { op := 0b111#3, opcode := 0xD8#8, addr := 1#24, len := 9, data := [1#8] } = .reserved := by decide

/-- The rows of spec/opcode_table.json with their words. -/
theorem test_table_words :
    [0, 1, 2, 3, 4, 5, 6, 7, 0x70, 0x9F].map (decodeTableWord 8) =
      [some .hostOpen, some .hostClose, some (.readReg 0#8 0), some (.writeReg 0#8 []), some (.readData 0#8 0#24 0),
        some (.program 0#8 0#24 []), some (.erase 0#8 0#24), some .reserved, some .opRfsr,
        some (.callerOpcode 0x9F#8 (.statusRead 0))] := by decide

/-- The wire frames of R94, byte by byte. -/
theorem test_decode_frames :
    decodeFrame { format := .writeEnable, out := [0b00000110#8], nIn := 0 } = .instr .opWren ∧
    decodeFrame { format := .statusRead, out := [0b00000101#8], nIn := 1 } = .instr .opRdsr ∧
    decodeFrame { format := .statusRead, out := [0b01110000#8], nIn := 1 } = .instr .opRfsr ∧
    decodeFrame { format := .statusRead, out := [0x70#8], nIn := 2 } =
      .instr (.callerOpcode 0x70#8 (.statusRead 2)) ∧
    decodeFrame { format := .registerWrite, out := [0x01#8, 0x02#8], nIn := 0 } =
      .instr (.callerOpcode 0x01#8 (.regWrite [0x02#8])) := by decide

theorem test_decode_frames_addressed :
    decodeFrame { format := .dataRead, out := [0x03#8, 0x01#8, 0x23#8, 0x45#8], nIn := 2 } =
      .instr (.callerOpcode 0x03#8 (.dataRead 0x012345#24 2)) ∧
    decodeFrame { format := .dataProgram, out := [0x02#8, 0x01#8, 0x23#8, 0x45#8, 0xDE#8], nIn := 0 } =
      .instr (.callerOpcode 0x02#8 (.dataProgram 0x012345#24 [0xDE#8])) ∧
    decodeFrame { format := .erase, out := [0xD8#8, 0x01#8, 0x00#8, 0x00#8], nIn := 0 } =
      .instr (.callerOpcode 0xD8#8 (.dataErase 0x010000#24)) := by decide

/-- Frames that are none of R94. -/
theorem test_decode_refuses :
    decodeFrame { format := .erase, out := [], nIn := 0 } = .bad .noOpcode ∧
    decodeFrame { format := .writeEnable, out := [0x05#8], nIn := 0 } = .bad .notWriteEnable ∧
    decodeFrame { format := .erase, out := [0xD8#8, 0x01#8, 0x00#8], nIn := 0 } = .bad .shortAddress ∧
    decodeFrame { format := .statusRead, out := [0x05#8, 0x00#8], nIn := 1 } = .bad .extraBytes ∧
    decodeFrame { format := .registerWrite, out := [0x01#8], nIn := 1 } = .bad .unexpectedInput := by decide

/-- The encoder's request for R99's example, as text. -/
theorem test_text :
    requestText (programRequest 0x02#8 0x012345#24 [0xDE#8, 0xAD#8]) = "PROGRAM 0x02, 0x012345, [0xDE, 0xAD]" ∧
      requestText (readRegRequest 0x05#8 1) = "READ_REG 0x05, 1" := by decide

/-! ### Single steps -/

/-- R221: the acceptance of OPEN, its first primitive still to come. -/
theorem test_open :
    traceAfter (exec .hostOpen closedIdle) = "REQ OPEN" ∧
      headAfter (exec .hostOpen closedIdle) = some (.prim (.setRead .clk false)) := by decide

/-- Vector X5: a request offered while an OPEN runs faults F_BUSY. -/
theorem test_open_busy :
    traceAfter (step { doing 0x04#8 [.prim (.enWrite 0x01#8)] with
      host := .script [some (readRequest 0x03#8 0#24 1)] }) =
        "REQ READ 0x03, 0x000000, 1, FLT F_BUSY" := by decide

/-- Vector X7: CLOSE needs no OPEN; R222: its first primitive is the write of EN. -/
theorem test_close :
    traceAfter (exec .hostClose closedIdle) = "REQ CLOSE" ∧
      headAfter (exec .hostClose closedIdle) = some (.prim (.enWrite 0x00#8)) := by decide

/-- R222: the write of EN sets LIFE = CLOSED with it, and the response follows. -/
theorem test_close_en :
    traceAfter (step (doing 0x04#8 closeCode)) = "EW 00" ∧
      headAfter (step (doing 0x04#8 closeCode)) = some (.prim (.respond .ok)) := by decide

/-- R223: READ_REG calls the status-read frame of its opcode. -/
theorem test_readReg :
    traceAfter (exec (.readReg 0x9F#8 3) openIdle) = "REQ READ_REG 0x9F, 3" ∧
      headAfter (exec (.readReg 0x9F#8 3) openIdle) = some (.frame (.callerOpcode 0x9F#8 (.statusRead 3))) := by decide

/-- R220: a length above MAX_LEN faults. -/
theorem test_readReg_len : faultAfter (exec (.readReg 0x9F#8 5) openIdle) = some .len := by decide

/-- R224: WRITE_REG starts with the write-enable frame. -/
theorem test_writeReg :
    traceAfter (exec (.writeReg 0x01#8 [0#8]) openIdle) = "REQ WRITE_REG 0x01, [0x00]" ∧
      headAfter (exec (.writeReg 0x01#8 [0#8]) openIdle) = some (.frame .opWren) := by decide

theorem test_writeReg_closed : faultAfter (exec (.writeReg 0x01#8 [0#8]) closedIdle) = some .notOpen := by decide

/-- Vector X4: 4 is not above MAX_LEN = 4. -/
theorem test_read :
    traceAfter (exec (.readData 0x03#8 0#24 4) openIdle) = "REQ READ 0x03, 0x000000, 4" ∧
      headAfter (exec (.readData 0x03#8 0#24 4) openIdle) =
        some (.frame (.callerOpcode 0x03#8 (.dataRead 0#24 4))) := by decide

/-- Vector X1. -/
theorem test_read_closed :
    traceAfter (exec (.readData 0x03#8 0#24 1) closedIdle) = "REQ READ 0x03, 0x000000, 1, FLT F_NOT_OPEN" := by decide

theorem test_program : headAfter (exec (.program 0x02#8 0#24 [1#8]) openIdle) = some (.frame .opWren) := by decide

/-- Vector X3. -/
theorem test_program_len :
    faultAfter (exec (.program 0x02#8 0#24 [1#8, 2#8, 3#8, 4#8, 5#8]) openIdle) = some .len := by decide

theorem test_erase :
    traceAfter (exec (.erase 0xD8#8 0x010000#24) openIdle) = "REQ ERASE 0xD8, 0x010000" ∧
      headAfter (exec (.erase 0xD8#8 0x010000#24) openIdle) = some (.frame .opWren) := by decide

theorem test_erase_busy :
    faultAfter (exec (.erase 0xD8#8 0#24) (doing 0x04#8 [.prim (.respond .ok)])) = some .busy := by decide

/-- Vectors X2 and X6. -/
theorem test_reserved :
    faultAfter (exec .reserved openIdle) = some .badOp ∧
      faultAfter (exec .reserved (doing 0x04#8 [.prim (.respond .ok)])) = some .busy := by decide

/-- R257: with FAULT set nothing runs. -/
theorem test_reserved_faulted :
    exec .reserved { openIdle with fault := some .badOp } = .fault (.stopped .badOp) := by rfl

/-- Vector LA2: the select of the write-enable frame; its read now, its write next. -/
theorem test_opWren :
    traceAfter (exec .opWren openIdle) = "CR 04" ∧
      headAfter (exec .opWren openIdle) = some (.prim (.setWrite .csN false 0x04#8)) := by decide

theorem test_opWren_write :
    traceAfter (step (doing 0xE4#8 [.prim (.setWrite .csN false 0xE4#8), .prim (.respond .ok)])) = "CW E0" := by decide

/-- R170: the status read starts with a deselect (vector LA6). -/
theorem test_opRdsr :
    headAfter (exec .opRdsr (doing 0x13#8 [])) = some (.prim (.setWrite .csN true 0x13#8)) := by decide

/-- Vector LA12: DIN bits 7 to 1 are ignored, and 0xFE gives bit 0. -/
theorem test_sample :
    traceAfter (step { doing 0x09#8 [.prim .sample, .prim (.respond .ok)] with device := .scripted [0xFE#8] }) =
      "DR FE" := by decide

theorem test_opRfsr :
    headAfter (exec .opRfsr openIdle) = some (.prim (.setWrite .csN true 0x04#8)) := by decide

/-- Vector LA9: `dirOutIfNeeded` writes once, then not. -/
theorem test_dirOut :
    headAfter (step (doing 0x10#8 [.prim .dirRead, .prim (.respond .ok)])) =
        some (.prim (.setWrite .dir true 0x10#8)) ∧
      headAfter (step (doing 0x12#8 [.prim .dirRead, .prim (.respond .ok)])) = some (.prim (.respond .ok)) := by decide

/-- R173: the data-read frame has no leading deselect. -/
theorem test_callerOpcode :
    headAfter (exec (.callerOpcode 0x03#8 (.dataRead 0#24 1)) openIdle) =
      some (.prim (.setWrite .csN false 0x04#8)) := by decide

/-- R170: a status read of the caller's opcode starts with one. -/
theorem test_callerOpcode_statusRead :
    headAfter (exec (.callerOpcode 0x9F#8 (.statusRead 3)) openIdle) =
      some (.prim (.setWrite .csN true 0x04#8)) := by decide

/-- Vectors W2 and W4: a time equal to DEADLINE polls again, one later is TIMEOUT. -/
theorem test_pollTime :
    headAfter (step { doing 0x04#8 [.prim (.pollTime 0x05#8 0x01#8), .abortIfTimeout, .prim (.respond .ok)] with
      deadline := 50, time := { last := 0, advances := [50] } }) = some (.frame .opRdsr) ∧
    headAfter (step { doing 0x04#8 [.prim (.pollTime 0x05#8 0x01#8), .abortIfTimeout, .prim (.respond .ok)] with
      deadline := 50, time := { last := 0, advances := [51] } }) = some (.prim (.respond .timeout)) := by decide

/-- Vectors F13, F14, F18: FSR bit 4 is PROGRAM_ERROR, bit 5 is `eerr`. -/
theorem test_replies :
    traceAfter (step { doing 0x0D#8 [.prim (.respond .program)] with pstat := 0x90#8 }) =
      "RSP PROGRAM_ERROR, [], 0, 0" ∧
    traceAfter (step { doing 0x0D#8 [.prim (.respond .erase)] with pstat := 0xA0#8 }) = "RSP OK, [], 0, 1" := by decide

/-- Vector BF4: the first bit of `sendByte(0x80)` with DATA_OUT_BIT 7 from CTRL = 0x00. -/
theorem test_sendBit :
    ctrlWrites ((refSendBit 7 { openIdle with
      params := { params with dataOutBit := .bit7 }, ctrl := 0x00#8, shift := 0x80#8 }).trace) =
      [0x80#8, 0x82#8, 0x82#8, 0x83#8] := by decide

/-! ### Witnesses: the hypotheses of each statement, met by a state and operands -/

theorem openIdle_ready : Ready openIdle := ⟨rfl, rfl⟩
theorem openIdle_ended : EndedWell openIdle := ⟨openIdle_ready, rfl⟩
/-- A host with an offer still to make is not done, and one whose moves are all no offer is. -/
theorem test_hostDone :
    ¬ hostDone { openIdle with host := .script [none, some (bareRequest 0b001#3)] } ∧
      hostDone { openIdle with host := .script [none, none] } := by
  simp [hostDone]

theorem openIdle_serial : SerialHost openIdle := ⟨[], rfl⟩
theorem doing_serial (c : Byte) (k : List Micro) : SerialHost (doing c k) := ⟨[], rfl⟩

theorem witness_DecodeInvertsEncode :
    Instr.callerOpcode 0x05#8 (.statusRead 2) ≠ .callerOpcode rdsrByte (.statusRead 1) ∧
      Instr.callerOpcode 0x05#8 (.statusRead 2) ≠ .callerOpcode rfsrByte (.statusRead 1) := by decide

/-- Two requests that differ in every field READ_REG does not use. -/
theorem witness_UnusedRequestFieldsIgnored :
    let q : Request := { op := 0b010#3, opcode := 5#8, addr := 1#24, len := 2, data := [] }
    let q' : Request := { op := 0b010#3, opcode := 5#8, addr := 9#24, len := 2, data := [7#8] }
    q ≠ q' ∧ q.op = q'.op ∧
      (q.op ∈ [tagReadReg, tagWriteReg, tagRead, tagProgram, tagErase] → q.opcode = q'.opcode) ∧
      (q.op ∈ [tagRead, tagProgram, tagErase] → q.addr = q'.addr) ∧
      (q.op ∈ [tagReadReg, tagRead] → q.len = q'.len) ∧
      (q.op ∈ [tagWriteReg, tagProgram] → q.data = q'.data) := by decide

theorem witness_AddressBytesMostSignificantFirst : addrBytes 0xFF0180#24 = [0xFF#8, 0x01#8, 0x80#8] := by decide

theorem witness_StepRunsTheOfferedRequest :
    (offering (bareRequest 0b110#3)).fault = none ∧
      hostOffer (offering (bareRequest 0b110#3)) = some (bareRequest 0b110#3) := by decide

theorem witness_StepRunsTheCalledFrame :
    (doing 0x04#8 [.frame .opRdsr]).fault = none ∧ hostOffer (doing 0x04#8 [.frame .opRdsr]) = none ∧
      (doing 0x04#8 [.frame .opRdsr]).phase = .frame .opRdsr :: [] := by decide

theorem witness_PlacedWordRunsNext : State.reset.fault = none ∧ 255 < 256 := ⟨rfl, by decide⟩

theorem witness_FaultedBlockTakesNoStep : { openIdle with fault := some .len }.fault = some .len := rfl

/-- Both clauses: a primitive, and a frame call. -/
theorem witness_ControllerStepAddsOneEvent :
    ((doing 0x04#8 [.prim .dataRead]).fault = none ∧ hostOffer (doing 0x04#8 [.prim .dataRead]) = none) ∧
      (doing 0x04#8 [.frame .opWren]).fault = none ∧ hostOffer (doing 0x04#8 [.frame .opWren]) = none ∧
        encode .opWren = .wireFrame wrenFrame := by decide

theorem witness_StepsExtendTheTrace :
    step (doing 0x04#8 [.prim (.respond .ok)]) = .next (respond .ok (doing 0x04#8 [.prim (.respond .ok)])) := rfl

theorem witness_NoStepFailsWithoutFault : openIdle.fault = none := rfl

/-- Clauses 1 and 2: BUSY with the reserved tag (F_BUSY only), and IDLE with it. -/
theorem witness_FaultsAtAcceptance_busy_badOp :
    ((doing 0x04#8 [.prim (.respond .ok)]).fault = none ∧ (doing 0x04#8 [.prim (.respond .ok)]).phase ≠ []) ∧
      openIdle.fault = none ∧ openIdle.phase = [] ∧ (bareRequest 0b111#3).op = 0b111#3 := by decide

/-- Clause 3 at a length above MAX_LEN, which clause 4 does not reach while CLOSED; clause 4 at MAX_LEN + 1, both for a
length and for a payload. -/
theorem witness_FaultsAtAcceptance_notOpen_len :
    (closedIdle.fault = none ∧ closedIdle.phase = [] ∧ closedIdle.life = .closed ∧
      (readRequest 0x03#8 0#24 5).op ≠ 0b111#3 ∧ (readRequest 0x03#8 0#24 5).op ≠ 0b000#3 ∧
      (readRequest 0x03#8 0#24 5).op ≠ 0b001#3) ∧
    (openIdle.fault = none ∧ openIdle.phase = [] ∧ openIdle.life = .opened ∧
      (readRequest 0x03#8 0#24 5).op = 0b100#3 ∧ (readRequest 0x03#8 0#24 5).len > openIdle.params.maxLen ∧
      (writeRegRequest 0x01#8 [0#8, 0#8, 0#8, 0#8, 0#8]).op = 0b011#3 ∧
      (writeRegRequest 0x01#8 [0#8, 0#8, 0#8, 0#8, 0#8]).data.length > openIdle.params.maxLen) := by decide

theorem witness_ReservedTagFaults : Ready openIdle := openIdle_ready

/-- A READ of MAX_LEN bytes while OPEN, and an OPEN while CLOSED. -/
theorem witness_AcceptanceChangesOnlyRequestAndPhase :
    (Ready openIdle ∧ encode (.readData 0x03#8 0#24 4) = .hostReq (readRequest 0x03#8 0#24 4) ∧
      (readRequest 0x03#8 0#24 4).op ≠ 0b111#3 ∧ openIdle.life = .opened ∧
      Instr.WellFormed openIdle.params (.readData 0x03#8 0#24 4)) ∧
    (Ready closedIdle ∧ encode .hostOpen = .hostReq (bareRequest 0b000#3) ∧
      Instr.WellFormed closedIdle.params .hostOpen) :=
  ⟨⟨openIdle_ready, rfl, by decide, rfl, by decide⟩, ⟨rfl, rfl⟩, rfl, by decide⟩

/-- Every statement about the call of a frame: a frame that receives, from a block nothing disturbs. -/
theorem witness_FrameCalls :
    openIdle.fault = none ∧ SerialHost openIdle ∧
      encode (.callerOpcode 0x03#8 (.dataRead 0x012345#24 4)) =
        .wireFrame { format := .dataRead, out := [0x03#8, 0x01#8, 0x23#8, 0x45#8], nIn := 4 } :=
  ⟨rfl, openIdle_serial, by decide⟩

/-- The shapes that receive nothing, for the clauses of the frame statements about them. -/
theorem witness_FrameCalls_noInput :
    encode .opWren = .wireFrame { format := .writeEnable, out := [0x06#8], nIn := 0 } ∧
      encode (.callerOpcode 0x01#8 (.regWrite [])) =
        .wireFrame { format := .registerWrite, out := [0x01#8], nIn := 0 } := by decide

theorem witness_AccessesGoToTheThreeRegisters : busAddress params (.dr 0#8) = some 0x1004 := by decide

theorem witness_SetLineSetsOneBit : lineIndex params .dout = 4 ∧ 7 < 8 := by decide

/-- `setBit` and `dirOutIfNeeded`, with DIR = 1 and with DIR = 0. -/
theorem witness_SetBit_Direction :
    ((doing 0xE4#8 [.prim (.setRead .csN false)]).fault = none ∧
      SerialHost (doing 0xE4#8 [.prim (.setRead .csN false)])) ∧
    ((doing 0x12#8 [.prim .dirRead]).fault = none ∧ SerialHost (doing 0x12#8 [.prim .dirRead]) ∧
      (doing 0x12#8 [.prim .dirRead]).ctrl.getLsbD 1 = true ∧
      (doing 0x10#8 [.prim .dirRead]).ctrl.getLsbD 1 = false) :=
  ⟨⟨rfl, doing_serial _ _⟩, rfl, doing_serial _ _, rfl, rfl⟩

/-- The pulse, byte and address statements: a block nothing disturbs, CLK 1 on entry. -/
theorem witness_ClockAndBytes : (doing 0x13#8 []).fault = none ∧ SerialHost (doing 0x13#8 []) := ⟨rfl, doing_serial _ _⟩

theorem witness_LoopbackReturnsTheByteSent :
    { openIdle with device := .loopback 0xFF#8 true }.fault = none ∧
      SerialHost { openIdle with device := .loopback 0xFF#8 true } ∧
      { openIdle with device := .loopback 0xFF#8 true }.device = .loopback 0xFF#8 true :=
  ⟨rfl, openIdle_serial, rfl⟩

/-- Both clauses: WORK_IN_PROGRESS clear with every other bit set, and set alone. -/
theorem witness_PollTestsThenReadsTime :
    openIdle.fault = none ∧ SerialHost openIdle ∧
      { openIdle with pstat := 0xFE#8 }.pstat &&& 0x01#8 = 0x00#8 ∧
      { openIdle with pstat := 0x01#8 }.pstat &&& 0x01#8 ≠ 0x00#8 :=
  ⟨rfl, openIdle_serial, by decide, by decide⟩

/-- A wait that ends OK and one that ends TIMEOUT (vectors W7 and W6). -/
theorem witness_Waits :
    (∃ t, refWait 1 waitShort { openIdle with device := .scripted (deviceAnswers [0xFE#8] ++ []) } = some t ∧
      t.wres = .ok) ∧
    (∃ t, refWait 1 waitShort { openIdle with
        device := .scripted (deviceAnswers [0x01#8] ++ []), time := { last := 0, advances := [0, 10000] } } = some t ∧
      t.wres = .timeout) := by
  constructor
  · obtain ⟨t, _, _, h, _, hok, _⟩ := refWait_firstClear (s := { openIdle with
      device := .scripted (deviceAnswers [0xFE#8] ++ []) }) 0 waitShort rfl (by decide)
    exact ⟨t, h, hok⟩
  · obtain ⟨t, _, h, _, hto, _⟩ := refWait_firstTimeout (s := { openIdle with
      device := .scripted (deviceAnswers [0x01#8] ++ []), time := { last := 0, advances := [0, 10000] } })
      0 waitShort rfl (by decide) rfl (by decide)
    exact ⟨t, h, hto⟩

/-- Advances that add up to one millisecond more than the wait's (vector W4). -/
theorem witness_WaitEndsWhenTimePassesTheDeadline :
    { openIdle with time := { last := 0, advances := [0, 50, 1] } }.time.advances = 0 :: ([50, 1] ++ []) ∧
      [50, 1].sum > waitShort.ms := by decide

theorem witness_WaitEndsWhenTheFlagClears :
    { openIdle with device := .scripted (deviceAnswers ([0x80#8, 0x80#8] ++ [0x00#8]) ++ []) }.device =
        .scripted (deviceAnswers ([0x80#8, 0x80#8] ++ [0x00#8]) ++ []) ∧
      0x00#8 &&& waitEraseBusy.mask = 0x00#8 := ⟨rfl, by decide⟩

/-- OPEN and CLOSE, once and twice. -/
theorem witness_OpenClose : Ready closedIdle ∧ SerialHost closedIdle ∧ Instr.hostOpen ∈ [Instr.hostOpen, .hostClose] :=
  ⟨⟨rfl, rfl⟩, ⟨[], rfl⟩, by decide⟩

/-- The run of a CLOSE: accepted, EN written, answered, idle for good. -/
def closeRun : Nat → State
  | 0 => { closedIdle with
      req := bareRequest 0b001#3, trace := [.req (bareRequest 0b001#3)], phase := closeCode }
  | 1 => { closedIdle with
      req := bareRequest 0b001#3, trace := [.req (bareRequest 0b001#3), .ew 0x00#8], lastEn := some 0x00#8,
      phase := [.prim (.respond .ok)] }
  | _ + 2 => { closedIdle with
      req := bareRequest 0b001#3, lastEn := some 0x00#8,
      trace := [.req (bareRequest 0b001#3), .ew 0x00#8,
        .rsp { status := .ok, rdata := [], count := 0, eerr := false }] }

theorem closeRun_reads (n : Nat) : timeReads (closeRun n).trace = [] := by
  match n with
  | 0 => rfl
  | 1 => rfl
  | _ + 2 => rfl

theorem witness_EveryOperationResponds :
    Ready closedIdle ∧ SerialHost closedIdle ∧ encode .hostClose = .hostReq (bareRequest 0b001#3) ∧
      acceptFault (bareRequest 0b001#3) closedIdle = none ∧ exec .hostClose closedIdle = .next (closeRun 0) ∧
      IsRun closeRun ∧ TimeUnbounded closeRun := by
  refine ⟨⟨rfl, rfl⟩, ⟨[], rfl⟩, rfl, by decide, rfl, ?_, ?_⟩
  · intro n
    match n with
    | 0 => rfl
    | 1 => rfl
    | _ + 2 => rfl
  · intro h
    obtain ⟨n, hn⟩ := h 1
    rw [closeRun_reads] at hn
    exact absurd hn (by decide)

/-- READ_REG and READ at MAX_LEN. -/
theorem witness_Reads : Ready openIdle ∧ SerialHost openIdle ∧ openIdle.life = .opened ∧ 4 ≤ openIdle.params.maxLen :=
  ⟨openIdle_ready, openIdle_serial, rfl, by decide⟩

/-- An operation that polls nothing, and one with waits that is accepted and is no OPEN and no CLOSE. -/
theorem witness_OperationsFollowTheirPseudocode :
    (Ready openIdle ∧ SerialHost openIdle ∧ encode (.readReg 0x05#8 4) = .hostReq (readRegRequest 0x05#8 4) ∧
      acceptFault (readRegRequest 0x05#8 4) openIdle = none ∧
      ∃ t, refOperation 0 (.readReg 0x05#8 4)
        { openIdle with req := readRegRequest 0x05#8 4,
                        trace := openIdle.trace ++ [.req (readRegRequest 0x05#8 4)] } = some t) ∧
    ((readRegRequest 0x05#8 4).op ∉ [0b000#3, 0b001#3] ∧ (readRegRequest 0x05#8 4).op ∈ [0b010#3, 0b100#3]) ∧
    (encode (.erase 0xD8#8 0#24) = .hostReq (eraseRequest 0xD8#8 0#24) ∧
      acceptFault (eraseRequest 0xD8#8 0#24) openIdle = none ∧ (eraseRequest 0xD8#8 0#24).op ∉ [0b000#3, 0b001#3]) :=
  ⟨⟨openIdle_ready, openIdle_serial, rfl, by decide, _, rfl⟩, ⟨by decide, by decide⟩, rfl, by decide, by decide⟩

/-- WRITE_REG with a payload of MAX_LEN bytes, both waits ending at their first poll. -/
theorem witness_WriteRegCompletes :
    let s : State := { openIdle with device := .scripted (deviceAnswers [0x00#8, 0xFE#8] ++ []) }
    Ready s ∧ SerialHost s ∧ s.life = .opened ∧ [1#8, 2#8, 3#8, 4#8].length ≤ s.params.maxLen ∧
      s.device = .scripted (deviceAnswers [0x00#8, 0xFE#8] ++ []) ∧
      (0x00#8).getLsbD 0 = false ∧ (0xFE#8).getLsbD 0 = false :=
  ⟨⟨rfl, rfl⟩, ⟨[], rfl⟩, rfl, by decide, rfl, rfl, rfl⟩

/-- PROGRAM with FSR bit 4 set, and with every other bit set. -/
theorem witness_ProgramCompletes :
    let s : State := { openIdle with device := .scripted (deviceAnswers [0x00#8, 0x00#8, 0x90#8] ++ []) }
    Ready s ∧ SerialHost s ∧ s.life = .opened ∧ [0x11#8].length ≤ s.params.maxLen ∧
      s.device = .scripted (deviceAnswers [0x00#8, 0x00#8, 0x90#8] ++ []) ∧
      (0x90#8).getLsbD 4 = true ∧ (0xEF#8).getLsbD 4 = false :=
  ⟨⟨rfl, rfl⟩, ⟨[], rfl⟩, rfl, by decide, rfl, rfl, rfl⟩

/-- ERASE with FSR bit 5 set. -/
theorem witness_EraseCompletes :
    let s : State := { openIdle with device := .scripted (deviceAnswers [0x00#8, 0x7F#8, 0x00#8, 0xA0#8] ++ []) }
    Ready s ∧ SerialHost s ∧ s.life = .opened ∧
      s.device = .scripted (deviceAnswers [0x00#8, 0x7F#8, 0x00#8, 0xA0#8] ++ []) ∧
      (0x00#8).getLsbD 0 = false ∧ (0x7F#8).getLsbD 7 = false ∧ (0xA0#8).getLsbD 5 = true :=
  ⟨⟨rfl, rfl⟩, ⟨[], rfl⟩, rfl, rfl, rfl, rfl, rfl⟩

/-- An advance of 51 milliseconds, one more than T_SHORT (vector F16). -/
theorem witness_FirstWaitTimeoutEndsTheOperation :
    let s : State := { openIdle with
      device := .scripted (deviceAnswers [0x01#8] ++ []), time := { last := 0, advances := [0, 51] } }
    Ready s ∧ SerialHost s ∧ s.life = .opened ∧
      encode (.program 0x02#8 0x10#24 [0x11#8]) = .hostReq (programRequest 0x02#8 0x10#24 [0x11#8]) ∧
      (programRequest 0x02#8 0x10#24 [0x11#8]).op ∈ [0b011#3, 0b101#3, 0b110#3] ∧
      Instr.WellFormed s.params (.program 0x02#8 0x10#24 [0x11#8]) ∧
      s.device = .scripted (deviceAnswers [0x01#8] ++ []) ∧ (0x01#8).getLsbD 0 = true ∧
      s.time.advances = 0 :: 51 :: [] ∧ 51 > 50 :=
  ⟨⟨rfl, rfl⟩, ⟨[], rfl⟩, rfl, rfl, by decide, by decide, rfl, rfl, rfl, by decide⟩

/-- In the middle of a read-modify-write that selects the device, a response still to come. -/
def selecting : State :=
  { State.reset with
    params := { params with ctrlPor := 0x04#8 }, ctrl := 0x04#8, host := .serial [], req := readRegRequest 0x05#8 1,
    trace := [.req (readRegRequest 0x05#8 1), .cr 0x04#8],
    phase := .prim (.setWrite .csN false 0x04#8) :: (deselectCode ++ [.prim (.respond .okData)]) }

theorem selecting_steps : ∃ t, step selecting = .next t ∧ lineOf selecting.params .csN t.ctrl = false :=
  ⟨_, rfl, rfl⟩

/-- The invariants in the middle of an operation. -/
theorem witness_EveryStepKeeps_lines :
    RmwWhole selecting ∧ CtrlIsLastWrite selecting ∧ ReservedBitsKept selecting ∧
      lineOf selecting.params .csN selecting.ctrl = true ∧ ∃ t, step selecting = .next t :=
  ⟨⟨rfl, rfl⟩, rfl, rfl, rfl, _, rfl⟩

theorem witness_EveryStepKeeps_records :
    EnRecorded selecting ∧ TimeMonotone selecting ∧ AnsweredOnce selecting ∧ FaultRecorded selecting ∧
      LifeMatchesEnable selecting ∧ ∃ t, step selecting = .next t := by
  refine ⟨⟨rfl, ?_, ?_, rfl⟩, ⟨List.Pairwise.nil, ?_⟩, ?_, ?_, ⟨by decide, rfl⟩, _, rfl⟩
  · intro v h; cases h
  · intro v h; cases h
  · intro t h; cases h
  · intro _; exact ⟨rfl, .inr rfl⟩
  · intro r h; simp [selecting] at h

theorem witness_EveryStepKeepsBracketing :
    RmwWhole selecting ∧ Bracketed selecting ∧ ∃ t, step selecting = .next t := by
  refine ⟨⟨rfl, rfl⟩, ⟨?_, ?_, fun _ _ => rfl⟩, _, rfl⟩
  · intro h; cases h
  · intro h; exact absurd h (by decide)

/-- An operation other than CLOSE about to respond with the device deselected. -/
theorem witness_RespondsWithDeviceDeselected :
    let s := doing 0x04#8 [.prim (.respond .ok)]
    let r : Response := { status := .ok, rdata := [], count := 0, eerr := false }
    Bracketed s ∧ s.req.op ≠ 0b001#3 ∧ ∃ t, step s = .next t ∧ t.trace = s.trace ++ [.rsp r] := by
  refine ⟨⟨?_, ?_, fun _ _ => rfl⟩, by decide, _, rfl, rfl⟩
  · intro h; cases h
  · intro h; exact absurd h (by decide)

/-- A step that writes EN, and one that does not. -/
theorem witness_EnChangesOnlyByEnWrite :
    (∃ t, step (doing 0x04#8 closeCode) = .next t ∧ t.en = 0x00#8) ∧ ∃ t, step selecting = .next t :=
  ⟨⟨_, rfl, rfl⟩, _, rfl⟩

theorem witness_FaultsOnlyAtAcceptance :
    hostOffer (doing 0x04#8 [.frame .opWren]) = none ∧
      (∀ i k, (doing 0x04#8 [.frame .opWren]).phase = .frame i :: k → ∃ f, encode i = .wireFrame f) ∧
      ∃ t, step (doing 0x04#8 [.frame .opWren]) = .next t := by
  refine ⟨rfl, ?_, _, rfl⟩
  intro i k h
  cases h
  exact ⟨_, rfl⟩

end Sys2Proof.Tests
end

section
/-!
The trace over one step (00_scope.md R7, 10_state.md R44): which event each primitive records, and that `exec` and
`step` keep the parameters and only append to TRACE.
-/

namespace Sys2Proof.Machine

/-- The event the primitive `p` records when it runs in `s` (00_scope.md R9). -/
def primEvent (p : Prim) (s : State) : Event :=
  match p with
  | .setRead _ _ => .cr s.ctrl
  | .setWrite l v r => .cw (setLine s.params l v r)
  | .dataRead => .cr s.ctrl
  | .dirRead => .cr s.ctrl
  | .sample => .dr (dinAnswer s)
  | .enWrite v => .ew v
  | .waitEntry _ => .tr (nowAnswer s)
  | .pollTime _ _ => .tr (nowAnswer s)
  | .respond r => .rsp (replyOf s r)

@[simp] theorem runPrim_trace (p : Prim) (k : List Micro) (s : State) :
    (runPrim p k s).trace = s.trace ++ [primEvent p s] := by
  cases p with
  | dirRead => simp only [runPrim]; split <;> simp [primEvent]
  | pollTime sop mask => simp only [runPrim]; split <;> simp [primEvent]
  | _ => simp [runPrim, primEvent]

@[simp] theorem runPrim_params (p : Prim) (k : List Micro) (s : State) : (runPrim p k s).params = s.params := by
  cases p with
  | dirRead => simp only [runPrim]; split <;> simp
  | pollTime sop mask => simp only [runPrim]; split <;> simp
  | _ => simp [runPrim]

/-- `t` has the parameters of `s`, and a TRACE that starts with that of `s`. -/
def Extends (s t : State) : Prop := t.params = s.params ∧ s.trace <+: t.trace

theorem Extends.of_append {s t : State} {es : List Event} (hp : t.params = s.params)
    (ht : t.trace = s.trace ++ es) : Extends s t :=
  ⟨hp, ht ▸ List.prefix_append s.trace es⟩

theorem runPrim_extends (p : Prim) (k : List Micro) (s : State) : Extends s (runPrim p k s) :=
  .of_append (runPrim_params p k s) (runPrim_trace p k s)

theorem settle_extends (k : List Micro) (s : State) : Extends s (settle k s) :=
  .of_append (es := []) (settle_params s k) (by simp)

theorem exec_extends {i : Instr} {s t : State} (h : exec i s = .next t) : Extends s t := by
  obtain ⟨-, ⟨q, r, -, -, rfl⟩ | ⟨q, -, -, rfl⟩ | ⟨-, v, c, -, -, rfl⟩⟩ := exec_cases h
  · exact .of_append (es := [.req q, .flt r]) (by simp) (by simp)
  · exact .of_append (es := [.req q]) (by simp) (by simp)
  · exact runPrim_extends _ _ s

/-- Settles O13: of the four kinds of step, the host's and the frame call go through `exec`, a primitive appends its
one event, and settling appends none. -/
theorem stepsExtendTheTrace : Obligations.StepsExtendTheTrace := by
  intro s t h
  obtain ⟨-, ⟨q, -, hx⟩ | ⟨-, ⟨p, k, -, rfl⟩ | ⟨i, k, -, hx⟩ | ⟨-, -, rfl⟩⟩⟩ := step_cases h
  · exact (exec_extends hx :)
  · exact runPrim_extends p k { s with host := hostNext s }
  · exact (exec_extends hx :)
  · exact settle_extends s.phase { s with host := hostNext s }

end Sys2Proof.Machine
end

section
/-!
The forms of one step, with the instruction it runs and the phase behind it named: every invariant of 10_state.md goes
through `step_stepped`, by one case for each form.
-/

namespace Sys2Proof.Machine

/-- The step from `s` runs `exec i` with `x` as the phase: the host offers the request that decodes to `i`, or it offers
nothing and the phase stands at the frame call of `i`. -/
def RunsInstr (s : State) (i : Instr) (x : List Micro) : Prop :=
  (∃ q, hostOffer s = some q ∧ i = decodeRequest q ∧ x = s.phase) ∨ (hostOffer s = none ∧ s.phase = .frame i :: x)

/-- What the step from `s` can make of it: a fault at acceptance, an acceptance, the first read of a called frame, a
primitive, or settling. -/
inductive Stepped (s : State) : State → Prop where
  | faulted {i : Instr} {x : List Micro} {q : Request} {r : FaultReason} (hi : RunsInstr s i x)
      (he : encode i = .hostReq q) (ha : acceptFault q { s with phase := x, host := hostNext s } = some r) :
      Stepped s (raiseFault r (emit (.req q) { s with phase := x, host := hostNext s }))
  | accepted {i : Instr} {x : List Micro} {q : Request} (hi : RunsInstr s i x) (he : encode i = .hostReq q)
      (ha : acceptFault q { s with phase := x, host := hostNext s } = none) :
      Stepped s (settle (operationCode i) { emit (.req q) { s with phase := x, host := hostNext s } with req := q })
  | called {i : Instr} {x : List Micro} {f : Frame} {v : Bool} {c : List Micro} (ho : hostOffer s = none)
      (hp : s.phase = .frame i :: x) (he : encode i = .wireFrame f) (hc : frameCode i = .prim (.setRead .csN v) :: c) :
      Stepped s (runPrim (.setRead .csN v) (c ++ x) { s with phase := x, host := hostNext s })
  | primitive {p : Prim} {k : List Micro} (ho : hostOffer s = none) (hp : s.phase = .prim p :: k) :
      Stepped s (runPrim p k { s with host := hostNext s })
  | settled (ho : hostOffer s = none) : Stepped s (settle s.phase { s with host := hostNext s })

/-- The instruction a step runs is a host request, or else the phase called its frame. -/
theorem RunsInstr.called_of_wireFrame {s : State} {i : Instr} {x : List Micro} {f : Frame} (hi : RunsInstr s i x)
    (he : encode i = .wireFrame f) : hostOffer s = none ∧ s.phase = .frame i :: x := by
  obtain ⟨q, -, rfl, -⟩ | h := hi
  · rw [encode_decodeRequest] at he; cases he
  · exact h

theorem RunsInstr.stepped {s t : State} {i : Instr} {x : List Micro} (hi : RunsInstr s i x)
    (h : exec i { s with phase := x, host := hostNext s } = .next t) : Stepped s t := by
  obtain ⟨-, ⟨q, r, he, ha, rfl⟩ | ⟨q, he, ha, rfl⟩ | ⟨f, v, c, he, hc, rfl⟩⟩ := exec_cases h
  · exact .faulted hi he ha
  · exact .accepted hi he ha
  · obtain ⟨ho, hp⟩ := hi.called_of_wireFrame he
    exact .called ho hp he hc

/-- Every next state of `step` has one of the forms of `Stepped`, and only a block without a fault has one. -/
theorem step_stepped {s t : State} (h : step s = .next t) : s.fault = none ∧ Stepped s t := by
  obtain ⟨hf, ⟨q, ho, hx⟩ | ⟨ho, ⟨p, k, hp, rfl⟩ | ⟨i, k, hp, hx⟩ | ⟨-, -, rfl⟩⟩⟩ := step_cases h
  · exact ⟨hf, RunsInstr.stepped (.inl ⟨q, ho, rfl, rfl⟩) hx⟩
  · exact ⟨hf, .primitive ho hp⟩
  · exact ⟨hf, RunsInstr.stepped (.inr ⟨ho, hp⟩) hx⟩
  · exact ⟨hf, .settled ho⟩

/-- The phase behind the instruction a step runs has every property of items that the phase has. -/
theorem RunsInstr.all_of_phase {g : Micro → Bool} {s : State} {i : Instr} {x : List Micro} (hi : RunsInstr s i x)
    (h : s.phase.all g = true) : x.all g = true := by
  obtain ⟨q, -, -, rfl⟩ | ⟨-, hp⟩ := hi
  · exact h
  · rw [hp, List.all_cons, Bool.and_eq_true] at h
    exact h.2

/-! ### What a primitive leaves of each register, in terms of the event it records -/

@[simp] theorem runPrim_fault (p : Prim) (k : List Micro) (s : State) : (runPrim p k s).fault = s.fault := by
  cases p with
  | dirRead => simp only [runPrim]; split <;> simp
  | pollTime sop mask => simp only [runPrim]; split <;> simp
  | _ => simp [runPrim]

/-- CTRL takes the value a primitive's CW records (10_state.md R30). -/
theorem runPrim_ctrl (p : Prim) (k : List Micro) (s : State) :
    (runPrim p k s).ctrl = (ctrlWrites [primEvent p s]).getLastD s.ctrl := by
  cases p with
  | dirRead => simp only [runPrim]; split <;> simp [primEvent, ctrlWrites]
  | pollTime sop mask => simp only [runPrim]; split <;> simp [primEvent, ctrlWrites]
  | _ => simp [runPrim, primEvent, ctrlWrites]

/-- EN takes the value a primitive writes to it (20_memory.md R65). -/
theorem runPrim_en (p : Prim) (k : List Micro) (s : State) : (runPrim p k s).en = (primEnValue p).getD s.en := by
  cases p with
  | dirRead => simp only [runPrim]; split <;> simp [primEnValue]
  | pollTime sop mask => simp only [runPrim]; split <;> simp [primEnValue]
  | _ => simp [runPrim, primEnValue]

/-- LAST_EN takes the value a primitive writes to EN (10_state.md R35). -/
theorem runPrim_lastEn (p : Prim) (k : List Micro) (s : State) :
    (runPrim p k s).lastEn = (primEnValue p).or s.lastEn := by
  cases p with
  | dirRead => simp only [runPrim]; split <;> simp [primEnValue]
  | pollTime sop mask => simp only [runPrim]; split <;> simp [primEnValue]
  | _ => simp [runPrim, primEnValue]

/-- A primitive records an EW exactly where it writes EN. -/
theorem enWrites_primEvent (p : Prim) (s : State) : enWrites [primEvent p s] = (primEnValue p).toList := by
  cases p <;> rfl

theorem primEvent_ne_req (p : Prim) (s : State) (q : Request) : primEvent p s ≠ .req q := by
  cases p <;> simp [primEvent]

theorem primEvent_ne_flt (p : Prim) (s : State) (r : FaultReason) : primEvent p s ≠ .flt r := by
  cases p <;> simp [primEvent]

/-- The time source's next answer is never earlier than its last (10_state.md R41). -/
theorem last_le_nowAnswer (s : State) : s.time.last ≤ nowAnswer s := Nat.le_add_right _ _

/-- A primitive reads no time and leaves the time source alone, or reads its next answer, which is then the last. -/
theorem runPrim_time (p : Prim) (k : List Micro) (s : State) :
    (timeReads [primEvent p s] = [] ∧ (runPrim p k s).time = s.time) ∨
      (timeReads [primEvent p s] = [nowAnswer s] ∧ (runPrim p k s).time.last = nowAnswer s) := by
  cases p with
  | waitEntry ms => exact .inr ⟨rfl, by simp [runPrim]⟩
  | pollTime sop mask => exact .inr ⟨rfl, by simp only [runPrim]; split <;> simp⟩
  | dirRead => exact .inl ⟨rfl, by simp only [runPrim]; split <;> simp⟩
  | _ => exact .inl ⟨rfl, by simp [runPrim]⟩

/-! ### A property of every item of the phase -/

/-- The items a step can put in the phase: those of frames and operations, the write half of a read-modify-write, and
the time read after a poll. -/
def isPhaseItem (m : Micro) : Bool :=
  isFrameItem m || isOperationItem m ||
    match m with
    | .prim (.setWrite _ _ _) => true
    | .prim (.pollTime _ _) => true
    | _ => false

theorem pollCode_items (sop mask : Byte) : (pollCode sop mask).all isPhaseItem = true := by
  have hd : isPhaseItem (.frame (decodeStatusRead sop 1)) = true := by
    unfold decodeStatusRead
    split_ifs <;> rfl
  simp only [pollCode, List.all_cons, hd]
  rfl

section
variable {g : Micro → Bool} (hg : ∀ m, isPhaseItem m = true → g m = true)
include hg

theorem settle_all_items (k : List Micro) (s : State) (h : k.all g = true) : (settle k s).phase.all g = true :=
  settle_all (fun _ _ => hg _ rfl) (hg _ rfl) k s h

/-- A property that every phase item has is kept by a primitive. -/
theorem runPrim_all_items (p : Prim) (k : List Micro) (s : State) (h : k.all g = true) :
    (runPrim p k s).phase.all g = true := by
  have hw : ∀ l v r, (Micro.prim (.setWrite l v r) :: k).all g = true := fun l v r => by
    rw [List.all_cons, hg _ rfl, h]; rfl
  cases p with
  | setRead l v => exact settle_all_items hg _ _ (hw ..)
  | dataRead => exact settle_all_items hg _ _ (hw ..)
  | dirRead =>
    simp only [runPrim]
    split
    · exact settle_all_items hg _ _ h
    · exact settle_all_items hg _ _ (hw ..)
  | pollTime sop mask =>
    have hpoll : (pollCode sop mask).all g = true :=
      List.all_eq_true.2 fun m hm => hg m (List.all_eq_true.1 (pollCode_items sop mask) m hm)
    simp only [runPrim]
    split
    · exact settle_all_items hg _ _ h
    · exact settle_all_items hg _ _ (by rw [List.all_append, hpoll, h]; rfl)
  | respond r => rfl
  | _ => exact settle_all_items hg _ _ h

/-- A property that every phase item has is kept by every step. -/
theorem Stepped.all_items {s t : State} (ht : Stepped s t) (h : s.phase.all g = true) : t.phase.all g = true := by
  cases ht with
  | faulted hi => exact hi.all_of_phase h
  | accepted =>
    exact settle_all_items hg _ _ (operationCode_all (fun m hm => hg m (by simp [isPhaseItem, hm])) _)
  | @called i x f v c ho hp he hc =>
    have hcode : (frameCode i).all g = true := frameCode_all (fun m hm => hg m (by simp [isPhaseItem, hm])) i
    rw [hc, List.all_cons, Bool.and_eq_true] at hcode
    rw [hp, List.all_cons, Bool.and_eq_true] at h
    exact runPrim_all_items hg _ _ _ (by rw [List.all_append, hcode.2, h.2]; rfl)
  | primitive ho hp =>
    rw [hp, List.all_cons, Bool.and_eq_true] at h
    exact runPrim_all_items hg _ _ _ h.2
  | settled => exact settle_all_items hg _ _ h

end

end Sys2Proof.Machine
end

section
/-!
The statements of 10_state.md: what a step runs and records, and the invariants of CTRL, EN, LAST_EN, LIFE, the time
source and FAULT.
-/

namespace Sys2Proof.Machine

/-! ### LIFE and LAST_EN (R35, R36) -/

/-- An item that neither writes EN nor assigns LIFE. -/
def leavesLifeAndEn (m : Micro) : Bool := (lifeEn m).isNone && (enValue m).isNone

theorem lifeFollowsEn_cons {m : Micro} (hm : leavesLifeAndEn m = true) (k : List Micro) :
    lifeFollowsEn none (m :: k) = lifeFollowsEn none k := by
  simp only [leavesLifeAndEn, Bool.and_eq_true, Option.isNone_iff_eq_none] at hm
  simp [lifeFollowsEn, hm.1, hm.2]

theorem lifeFollowsEn_append {c : List Micro} (hc : c.all leavesLifeAndEn = true) (k : List Micro) :
    lifeFollowsEn none (c ++ k) = lifeFollowsEn none k := by
  induction c with
  | nil => rfl
  | cons m c ih =>
    rw [List.all_cons, Bool.and_eq_true] at hc
    rw [List.cons_append, lifeFollowsEn_cons hc.1, ih hc.2]

theorem leavesLifeAndEn_of_isFrameItem (m : Micro) (h : isFrameItem m = true) : leavesLifeAndEn m = true := by
  cases m with
  | assign a =>
    cases a with
    | life l => cases h
    | _ => rfl
  | prim p =>
    cases p with
    | enWrite v => cases h
    | _ => rfl
  | _ => rfl

theorem lifeFollowsEn_operationCode (i : Instr) : lifeFollowsEn none (operationCode i) = true := by
  cases i <;> rfl

theorem applyAssign_life {a : Assign} (ha : assignedEn a = none) (s : State) : (applyAssign a s).life = s.life := by
  cases a with
  | life l => cases l <;> cases ha
  | _ => rfl

/-- An assignment to LIFE gives it the state that goes with the value of EN just written. -/
theorem applyAssign_life_of_en {a : Assign} {v : Byte} {s : State} (ha : assignedEn a = some v)
    (hv : s.lastEn = some v) : (applyAssign a s).life = .opened ↔ (applyAssign a s).lastEn = some enOn := by
  rw [applyAssign_lastEn, hv, ← ha]
  cases a with
  | life l => cases l <;> simp [applyAssign, assignedEn, enOn, enOff]
  | _ => cases ha

/-- Settling code in which LIFE follows EN keeps LIFE and LAST_EN in agreement. -/
theorem settle_lifeMatchesEnable (k : List Micro) (s : State) (hl : s.life = .opened ↔ s.lastEn = some enOn)
    (hk : lifeFollowsEn none k = true) : LifeMatchesEnable (settle k s) := by
  induction k generalizing s with
  | nil => exact ⟨hl, rfl⟩
  | cons m k ih =>
    obtain ⟨hm, hk'⟩ : lifeEn m = none ∧ lifeFollowsEn (enValue m) k = true := by simpa [lifeFollowsEn] using hk
    cases m with
    | assign a => exact ih _ (by rwa [applyAssign_life hm, applyAssign_lastEn]) hk'
    | test sop mask =>
      rw [settle]
      split
      · exact ih _ hl hk'
      · exact ⟨hl, (lifeFollowsEn_cons rfl k).trans hk'⟩
    | abortIfTimeout =>
      rw [settle]
      split
      · exact ⟨hl, rfl⟩
      · exact ih _ hl hk'
    | prim p => exact ⟨hl, hk⟩
    | frame i => exact ⟨hl, hk⟩

/-- Right after EN was written, settling does the assignment to LIFE that has to follow. -/
theorem settle_lifeMatchesEnable_of_enWrite {v : Byte} (k : List Micro) (s : State) (hv : s.lastEn = some v)
    (hk : lifeFollowsEn (some v) k = true) : LifeMatchesEnable (settle k s) := by
  cases k with
  | nil => cases hk
  | cons m k =>
    obtain ⟨hm, hk'⟩ : lifeEn m = some v ∧ lifeFollowsEn (enValue m) k = true := by simpa [lifeFollowsEn] using hk
    cases m with
    | assign a => exact settle_lifeMatchesEnable k _ (applyAssign_life_of_en hm hv) hk'
    | _ => cases hm

theorem pollCode_leavesLifeAndEn (sop mask : Byte) : (pollCode sop mask).all leavesLifeAndEn = true := rfl

/-- A primitive keeps LIFE and LAST_EN in agreement: an EN write has its assignment to LIFE right behind it, every other
primitive leaves both alone. -/
theorem runPrim_lifeMatchesEnable {p : Prim} {k : List Micro} {s : State}
    (hl : s.life = .opened ↔ s.lastEn = some enOn) (hk : lifeFollowsEn (primEnValue p) k = true) :
    LifeMatchesEnable (runPrim p k s) := by
  have hw : ∀ l v r, lifeFollowsEn none (.prim (.setWrite l v r) :: k) = lifeFollowsEn none k := fun l v r =>
    lifeFollowsEn_cons rfl k
  cases p with
  | setRead l v => exact settle_lifeMatchesEnable _ _ hl ((hw ..).trans hk)
  | dataRead => exact settle_lifeMatchesEnable _ _ hl ((hw ..).trans hk)
  | dirRead =>
    simp only [runPrim]
    split
    · exact settle_lifeMatchesEnable k _ hl hk
    · exact settle_lifeMatchesEnable _ _ hl ((hw ..).trans hk)
  | enWrite v => exact settle_lifeMatchesEnable_of_enWrite k _ rfl hk
  | pollTime sop mask =>
    simp only [runPrim]
    split
    · exact settle_lifeMatchesEnable k _ hl hk
    · exact settle_lifeMatchesEnable _ _ hl ((lifeFollowsEn_append (pollCode_leavesLifeAndEn sop mask) k).trans hk)
  | respond r => exact ⟨hl, rfl⟩
  | _ => exact settle_lifeMatchesEnable k _ hl hk

/-- Settles O53: by the forms of a step. The phase is settled with LIFE and LAST_EN in agreement, except behind an EN
write, where settling does the assignment to LIFE that restores it. -/
theorem everyStepKeepsLifeMatchesEnable : Obligations.EveryStepKeepsLifeMatchesEnable := by
  intro s t ⟨hl, hk⟩ h
  cases (step_stepped h).2 with
  | @faulted i x q r hi =>
    refine ⟨hl, ?_⟩
    obtain ⟨q', -, -, rfl⟩ | ⟨-, hp⟩ := hi
    · exact hk
    · rwa [hp, lifeFollowsEn_cons rfl] at hk
  | accepted => exact settle_lifeMatchesEnable _ _ hl (lifeFollowsEn_operationCode _)
  | @called i x f v c ho hp he hc =>
    have hcode := frameCode_all leavesLifeAndEn_of_isFrameItem i
    rw [hc, List.all_cons, Bool.and_eq_true] at hcode
    rw [hp, lifeFollowsEn_cons rfl] at hk
    exact runPrim_lifeMatchesEnable hl ((lifeFollowsEn_append hcode.2 x).trans hk)
  | primitive ho hp =>
    rw [hp] at hk
    exact runPrim_lifeMatchesEnable hl (by simpa [lifeFollowsEn, lifeEn, enValue] using hk)
  | settled => exact settle_lifeMatchesEnable _ _ hl hk

/-! ### What a step runs and records (R31, R32, R42) -/

/-- Settles O9: the controller's step at a frame call is `exec` of the instruction called. -/
theorem stepRunsTheCalledFrame : Obligations.StepRunsTheCalledFrame := by
  intro s i k hf ho hp
  rw [step_of_no_offer hf ho]
  simp only [controllerStep, hp]

/-- Settles O12: at a primitive the step runs it, at a frame call it runs the frame's first primitive, and a primitive
records one event, never a REQ. -/
theorem controllerStepAddsOneEvent : Obligations.ControllerStepAddsOneEvent := by
  rintro s m k hf ho hp (⟨p, rfl⟩ | ⟨i, f, rfl, he⟩)
  · refine ⟨_, _, ?_, runPrim_trace p k { s with host := hostNext s }, primEvent_ne_req p _⟩
    rw [step_of_no_offer hf ho]
    simp only [controllerStep, hp]
  · obtain ⟨v, c, hc⟩ := frameCode_head he
    refine ⟨_, _, ?_, runPrim_trace (.setRead .csN v) (c ++ k) { s with host := hostNext s }, primEvent_ne_req _ _⟩
    rw [stepRunsTheCalledFrame s i k hf ho hp, exec_of_wireFrame he, hc]
    exact callFrame_prim (s := { s with host := hostNext s }) hf (.setRead .csN v) c k

theorem accept_of_fault {s : State} {r : FaultReason} (hf : s.fault = some r) (q : Request) (code : List Micro) :
    accept q code s = .fault (.stopped r) := by
  simp only [accept, hf]

theorem callFrame_of_fault {s : State} {r : FaultReason} (hf : s.fault = some r) (code : List Micro) :
    callFrame code s = .fault (.stopped r) := by
  simp only [callFrame, hf]

/-- Settles O11: `step`, request acceptance and the frame call each look at FAULT first. -/
theorem faultedBlockTakesNoStep : Obligations.FaultedBlockTakesNoStep := by
  intro s r hf
  refine ⟨by simp only [step, hf], fun i => ?_⟩
  cases he : encode i with
  | hostReq q => rw [exec_of_hostReq he, accept_of_fault hf]
  | wireFrame f => rw [exec_of_wireFrame he, callFrame_of_fault hf]

/-! ### CTRL (R29, R30) -/

theorem runPrim_ctrlIsLastWrite {s : State} {p : Prim} {k : List Micro} (h : CtrlIsLastWrite s) :
    CtrlIsLastWrite (runPrim p k s) := by
  unfold CtrlIsLastWrite at h ⊢
  rw [runPrim_ctrl, runPrim_trace, runPrim_params, ctrlWrites_append, getLastD_append, ← h]

/-- Settles O49: only a primitive's CtrlWrite changes CTRL, and it records the value as the last CW. -/
theorem everyStepKeepsCtrlLastWrite : Obligations.EveryStepKeepsCtrlLastWrite := by
  intro s t hs h
  cases (step_stepped h).2 with
  | faulted => simpa [CtrlIsLastWrite, ctrlWrites] using hs
  | accepted => simpa [CtrlIsLastWrite, ctrlWrites] using hs
  | called => exact runPrim_ctrlIsLastWrite hs
  | primitive => exact runPrim_ctrlIsLastWrite hs
  | settled => simpa [CtrlIsLastWrite] using hs

/-- No line of CTRL is one of the three bits without a meaning. -/
theorem lineMask_and_reservedMask (p : Params) (l : Line) :
    lineMask p l &&& reservedMask p = 0#8 ∧ ~~~(lineMask p l) &&& reservedMask p = reservedMask p := by
  unfold reservedMask lineMask
  cases l <;> simp only [lineIndex] <;> cases p.dataOutBit <;> decide

/-- Setting a line leaves the three bits without a meaning alone. -/
theorem setLine_and_reservedMask (p : Params) (l : Line) (v : Bool) (c : Byte) :
    setLine p l v c &&& reservedMask p = c &&& reservedMask p := by
  obtain ⟨h0, h1⟩ := lineMask_and_reservedMask p l
  unfold setLine
  split
  · rw [BitVec.and_comm, BitVec.and_or_distrib_left, BitVec.and_comm _ (lineMask p l), h0, BitVec.or_zero,
      BitVec.and_comm]
  · rw [BitVec.and_assoc, h1]

/-- A primitive keeps the reserved bits, a pending write being of CTRL's value as it was read. -/
theorem runPrim_reservedBitsKept {s : State} {p : Prim} {k : List Micro} (h : ReservedBitsKept s)
    (hp : pendingWriteCurrent s.ctrl (.prim p :: k) = true) : ReservedBitsKept (runPrim p k s) := by
  unfold ReservedBitsKept at h ⊢
  rw [runPrim_params, ← h, runPrim_ctrl]
  cases p with
  | setWrite l v r =>
    obtain rfl : r = s.ctrl := by simpa [pendingWriteCurrent] using hp
    exact setLine_and_reservedMask s.params l v s.ctrl
  | _ => rfl

/-- Settles O50: CTRL is only written by the second half of a `setBit`, and whole read-modify-writes set one line in the
value CTRL holds. -/
theorem everyStepKeepsReservedBits : Obligations.EveryStepKeepsReservedBits := by
  rintro s t ⟨hw, -⟩ hs h
  cases (step_stepped h).2 with
  | faulted => exact hs
  | accepted => simpa [ReservedBitsKept] using hs
  | called => exact runPrim_reservedBitsKept hs rfl
  | primitive ho hp =>
    exact runPrim_reservedBitsKept hs (by rw [← hp]; exact hw)
  | settled => simpa [ReservedBitsKept] using hs

/-! ### EN and LAST_EN (R34, R35) -/

/-- An item writes no other value to EN than EN_ON and EN_OFF (30_encoding.md R83). -/
def enOnOrOff : Micro → Bool
  | .prim (.enWrite v) => v == enOn || v == enOff
  | _ => true

theorem onlyEnOnOff_eq_all (k : List Micro) : onlyEnOnOff k = k.all enOnOrOff := by
  induction k with
  | nil => rfl
  | cons m k ih =>
    rw [List.all_cons, ← ih]
    cases m with
    | prim p => cases p <;> simp [onlyEnOnOff, enOnOrOff]
    | _ => simp [onlyEnOnOff, enOnOrOff]

theorem enOnOrOff_of_isPhaseItem (m : Micro) (h : isPhaseItem m = true) : enOnOrOff m = true := by
  unfold enOnOrOff
  split
  · simpa [isPhaseItem, isFrameItem, isOperationItem] using h
  · rfl

/-- The part of `EnRecorded` that speaks of EN, LAST_EN and TRACE. -/
def EnInTrace (s : State) : Prop :=
  s.lastEn = (enWrites s.trace).getLast? ∧ (∀ v, s.lastEn = some v → s.en = v) ∧
    ∀ v ∈ enWrites s.trace, v = enOn ∨ v = enOff

theorem enRecorded_iff (s : State) : EnRecorded s ↔ EnInTrace s ∧ s.phase.all enOnOrOff = true := by
  simp only [EnRecorded, EnInTrace, onlyEnOnOff_eq_all, and_assoc]

theorem runPrim_enInTrace {s : State} {p : Prim} {k : List Micro} (h : EnInTrace s)
    (hp : enOnOrOff (.prim p) = true) : EnInTrace (runPrim p k s) := by
  obtain ⟨hlast, hen, hall⟩ := h
  unfold EnInTrace
  rw [runPrim_lastEn, runPrim_en, runPrim_trace, enWrites_append, enWrites_primEvent]
  cases p with
  | enWrite v =>
    have hv : v = enOn ∨ v = enOff := by simpa [enOnOrOff] using hp
    refine ⟨by simp [primEnValue], by simp [primEnValue], fun w hw => ?_⟩
    obtain hw | hw := List.mem_append.1 hw
    · exact hall w hw
    · rwa [List.mem_singleton.1 hw]
  | _ => simpa [primEnValue] using ⟨hlast, hen, hall⟩

/-- Settles O51: EN is only written by the `enWrite` primitive, which records the value, and every item a step puts in
the phase writes EN_ON or EN_OFF if it writes EN. -/
theorem everyStepKeepsEnRecorded : Obligations.EveryStepKeepsEnRecorded := by
  intro s t hs h
  rw [enRecorded_iff] at hs ⊢
  obtain ⟨hen, hphase⟩ := hs
  have ht := (step_stepped h).2
  refine ⟨?_, ht.all_items enOnOrOff_of_isPhaseItem hphase⟩
  cases ht with
  | faulted => simpa [EnInTrace, enWrites] using hen
  | accepted => simpa [EnInTrace, enWrites] using hen
  | called => exact runPrim_enInTrace hen rfl
  | primitive ho hp =>
    rw [hp, List.all_cons, Bool.and_eq_true] at hphase
    exact runPrim_enInTrace hen hphase.1
  | settled => simpa [EnInTrace] using hen

/-! ### The time source (R41) -/

theorem runPrim_timeMonotone {s : State} {p : Prim} {k : List Micro} (h : TimeMonotone s) :
    TimeMonotone (runPrim p k s) := by
  obtain ⟨hmono, hlast⟩ := h
  unfold TimeMonotone
  rw [runPrim_trace, timeReads_append]
  obtain ⟨hr, ht⟩ | ⟨hr, ht⟩ := runPrim_time p k s
  · rw [hr, ht, List.append_nil]
    exact ⟨hmono, hlast⟩
  · have hle : ∀ t ∈ timeReads s.trace, t ≤ nowAnswer s := fun t h => (hlast t h).trans (last_le_nowAnswer s)
    rw [hr, ht]
    constructor
    · simpa [List.pairwise_append] using ⟨hmono, hle⟩
    · simpa [or_imp, forall_and] using hle

/-- Settles O52: only the two time reads move the time source, and their answer is not before its last. -/
theorem everyStepKeepsTimeMonotone : Obligations.EveryStepKeepsTimeMonotone := by
  intro s t hs h
  cases (step_stepped h).2 with
  | faulted => simpa [TimeMonotone, timeReads] using hs
  | accepted => simpa [TimeMonotone, timeReads] using hs
  | called => exact runPrim_timeMonotone hs
  | primitive => exact runPrim_timeMonotone hs
  | settled => simpa [TimeMonotone] using hs

/-! ### FAULT (R42) -/

theorem faultRecorded_of_none {s : State} (hf : s.fault = none) :
    FaultRecorded s ↔ ∀ r, Event.flt r ∉ s.trace := by
  simp only [FaultRecorded, hf]

theorem faultRecorded_raiseFault {s : State} {r : FaultReason} (h : ∀ r, Event.flt r ∉ s.trace) :
    FaultRecorded (raiseFault r s) := ⟨s.trace, rfl, h⟩

theorem runPrim_faultRecorded {s : State} {p : Prim} {k : List Micro} (hf : s.fault = none)
    (h : ∀ r, Event.flt r ∉ s.trace) : FaultRecorded (runPrim p k s) := by
  rw [faultRecorded_of_none (by simpa using hf), runPrim_trace]
  intro r
  simpa [h r] using (primEvent_ne_flt p s r).symm

/-- Settles O58: a step starts without a fault, so without an FLT in TRACE; a fault at acceptance sets FAULT and appends
its FLT, and no other form of a step does either. -/
theorem everyStepKeepsFaultRecorded : Obligations.EveryStepKeepsFaultRecorded := by
  intro s t hs h
  obtain ⟨hf, ht⟩ := step_stepped h
  rw [faultRecorded_of_none hf] at hs
  cases ht with
  | faulted => exact faultRecorded_raiseFault (by simpa using hs)
  | accepted =>
    rw [faultRecorded_of_none (by simpa using hf)]
    simpa using hs
  | called => exact runPrim_faultRecorded hf hs
  | primitive => exact runPrim_faultRecorded hf hs
  | settled =>
    rw [faultRecorded_of_none (by simpa using hf)]
    simpa using hs

/-! ### Power-on (R46) -/

/-- Settles O7: at power-on TRACE and the phase are empty, LIFE is CLOSED and CTRL is CTRL_POR. -/
theorem powerOnMeetsEveryInvariant : Obligations.PowerOnMeetsEveryInvariant := by
  have hRmw : RmwWhole State.reset := ⟨rfl, rfl⟩
  have hEn : EnRecorded State.reset := ⟨rfl, nofun, nofun, rfl⟩
  have hTime : TimeMonotone State.reset := ⟨.nil, nofun⟩
  have hBracketed : Bracketed State.reset := ⟨nofun, fun _ => .inr (.inr rfl), fun h => absurd rfl h⟩
  have hAnswered : AnsweredOnce State.reset := fun _ => ⟨rfl, .inl rfl⟩
  have hFault : FaultRecorded State.reset := nofun
  have hLife : LifeMatchesEnable State.reset := ⟨⟨nofun, nofun⟩, rfl⟩
  exact ⟨hRmw, rfl, rfl, hEn, hTime, hBracketed, hAnswered, hFault, hLife⟩

end Sys2Proof.Machine
end

section
/-!
The statements of 20_memory.md: that no step of an unfaulted block fails, what a placed word runs, the register map, the
read-modify-write of CTRL, and what a step does to EN.
-/

namespace Sys2Proof.Machine

/-! ### No access fails (R66) -/

theorem accept_answers {s : State} (hf : s.fault = none) (q : Request) (code : List Micro) :
    ∃ t, accept q code s = .next t := by
  simp only [accept, hf]
  cases acceptFault q s with
  | some r => exact ⟨_, rfl⟩
  | none => exact ⟨_, rfl⟩

/-- Without a fault every instruction has a next state: a request is accepted or faults, a frame call does its first
primitive. -/
theorem exec_answers {s : State} (hf : s.fault = none) (i : Instr) : ∃ t, exec i s = .next t := by
  cases he : encode i with
  | hostReq q => rw [exec_of_hostReq he]; exact accept_answers hf q (operationCode i)
  | wireFrame f =>
    obtain ⟨v, c, hc⟩ := frameCode_head he
    rw [exec_of_wireFrame he, hc]
    exact ⟨_, callFrame_prim hf (.setRead .csN v) c s.phase⟩

theorem controllerStep_answers {s : State} (hf : s.fault = none) : ∃ t, controllerStep s = .next t := by
  unfold controllerStep
  split
  · exact ⟨_, rfl⟩
  · rename_i i k hp; exact exec_answers (s := { s with phase := k }) hf i
  · exact ⟨_, rfl⟩

/-- Settles O14: the host's step and the controller's each have a next state in every state without a fault. -/
theorem noStepFailsWithoutFault : Obligations.NoStepFailsWithoutFault := by
  intro s hf
  cases ho : hostOffer s with
  | some q =>
    rw [step_of_offer hf ho]
    exact exec_answers (s := { s with host := hostNext s }) hf (decodeRequest q)
  | none =>
    rw [step_of_no_offer hf ho]
    exact controllerStep_answers (s := { s with host := hostNext s }) hf

/-! ### The read-modify-write of CTRL (R71) -/

/-- An item is not the second half of a read-modify-write. -/
def noSetWrite : Micro → Bool
  | .prim (.setWrite _ _ _) => false
  | _ => true

theorem noPendingWrite_eq_all (k : List Micro) : noPendingWrite k = k.all noSetWrite := by
  induction k with
  | nil => rfl
  | cons m k ih =>
    rw [List.all_cons, ← ih]
    cases m with
    | prim p => cases p <;> simp [noPendingWrite, noSetWrite]
    | _ => simp [noPendingWrite, noSetWrite]

theorem noPendingWrite_append (c k : List Micro) :
    noPendingWrite (c ++ k) = (noPendingWrite c && noPendingWrite k) := by
  simp only [noPendingWrite_eq_all, List.all_append]

theorem noSetWrite_of_isFrameItem (m : Micro) (h : isFrameItem m = true) : noSetWrite m = true := by
  unfold noSetWrite
  split
  · cases h
  · rfl

theorem noSetWrite_of_isOperationItem (m : Micro) (h : isOperationItem m = true) : noSetWrite m = true := by
  unfold noSetWrite
  split
  · cases h
  · rfl

theorem noPendingWrite_frameCode (i : Instr) : noPendingWrite (frameCode i) = true := by
  rw [noPendingWrite_eq_all]
  exact frameCode_all noSetWrite_of_isFrameItem i

theorem noPendingWrite_operationCode (i : Instr) : noPendingWrite (operationCode i) = true := by
  rw [noPendingWrite_eq_all]
  exact operationCode_all noSetWrite_of_isOperationItem i

theorem noPendingWrite_pollCode (sop mask : Byte) : noPendingWrite (pollCode sop mask) = true := rfl

/-- `RmwWhole` of the phase `k` where CTRL holds `c`. -/
def WholeCode (c : Byte) (k : List Micro) : Prop :=
  pendingWriteCurrent c k = true ∧ noPendingWrite k.tail = true

/-- Code with no pending write at all is whole, whatever CTRL holds. -/
theorem wholeCode_of_noPendingWrite {k : List Micro} (h : noPendingWrite k = true) (c : Byte) : WholeCode c k := by
  rw [noPendingWrite_eq_all] at h
  rw [WholeCode, noPendingWrite_eq_all]
  cases k with
  | nil => exact ⟨rfl, rfl⟩
  | cons m k =>
    rw [List.all_cons, Bool.and_eq_true] at h
    obtain ⟨hm, hk⟩ := h
    refine ⟨?_, hk⟩
    unfold pendingWriteCurrent
    split
    · rename_i heq; cases heq; cases hm
    · rfl

/-- The pending write of the value CTRL holds, in front of code with none, is whole. -/
theorem wholeCode_setWrite (l : Line) (v : Bool) (c : Byte) {k : List Micro} (h : noPendingWrite k = true) :
    WholeCode c (.prim (.setWrite l v c) :: k) := ⟨by simp [pendingWriteCurrent], h⟩

/-- Settling drops items of the front or puts in one that is no pending write, so it keeps a whole phase whole. -/
theorem settle_rmwWhole {k : List Micro} {s : State} (h : WholeCode s.ctrl k) : RmwWhole (settle k s) := by
  unfold RmwWhole
  rw [settle_ctrl]
  refine settle_phase_of (P := WholeCode s.ctrl) ?_ ?_ ?_ k s h
  · rintro a k ⟨-, hk⟩; exact wholeCode_of_noPendingWrite hk _
  · rintro sop mask k ⟨-, hk⟩; exact ⟨wholeCode_of_noPendingWrite hk _, rfl, hk⟩
  · rintro k ⟨-, hk⟩; exact ⟨wholeCode_of_noPendingWrite hk _, rfl, rfl⟩

/-- A primitive in front of code with no pending write leaves at most its own, of the value it just read. -/
theorem runPrim_rmwWhole (p : Prim) {k : List Micro} (s : State) (hk : noPendingWrite k = true) :
    RmwWhole (runPrim p k s) := by
  have hsettle : ∀ u, RmwWhole (settle k u) := fun u => settle_rmwWhole (wholeCode_of_noPendingWrite hk _)
  have hwrite : ∀ l v, RmwWhole (settle (.prim (.setWrite l v s.ctrl) :: k) (ctrlRead s)) := fun l v =>
    settle_rmwWhole (wholeCode_setWrite l v s.ctrl hk)
  cases p with
  | setRead l v => exact hwrite l v
  | dataRead => exact hwrite _ _
  | dirRead =>
    simp only [runPrim]
    split
    · exact hsettle _
    · exact hwrite _ _
  | pollTime sop mask =>
    simp only [runPrim]
    split
    · exact hsettle _
    · refine settle_rmwWhole (wholeCode_of_noPendingWrite ?_ _)
      rw [noPendingWrite_append, noPendingWrite_pollCode, hk]; rfl
  | respond r => exact ⟨rfl, rfl⟩
  | _ => exact hsettle _

/-- Settles O48: by the forms of a step. Code put in the phase has no pending write, so the only one there is comes from
the read half of a `setBit`, and the step after it makes the write or faults with CTRL untouched. -/
theorem everyStepKeepsRmwWhole : Obligations.EveryStepKeepsRmwWhole := by
  intro s t hs h
  have ⟨_, htail⟩ := hs
  cases (step_stepped h).2 with
  | faulted hi =>
    obtain ⟨q, -, -, rfl⟩ | ⟨-, hp⟩ := hi
    · exact hs
    · rw [hp] at htail
      exact wholeCode_of_noPendingWrite htail s.ctrl
  | accepted => exact settle_rmwWhole (wholeCode_of_noPendingWrite (noPendingWrite_operationCode _) _)
  | @called i x f v c ho hp he hc =>
    have hcode : noPendingWrite c = true := by simpa [hc, noPendingWrite] using noPendingWrite_frameCode i
    rw [hp] at htail
    refine runPrim_rmwWhole _ _ ?_
    rw [noPendingWrite_append, hcode]
    exact htail
  | primitive ho hp =>
    rw [hp] at htail
    exact runPrim_rmwWhole _ _ htail
  | settled => exact settle_rmwWhole hs

/-! ### EN (R65) -/

/-- `t` has the EN, LAST_EN and EW events of `s`, or one EW more, with its value in both registers. -/
def EnByWriteOnly (s t : State) : Prop :=
  (t.en = s.en ∧ t.lastEn = s.lastEn ∧ enWrites t.trace = enWrites s.trace) ∨
    ∃ v, t.en = v ∧ t.lastEn = some v ∧ t.trace = s.trace ++ [.ew v]

theorem runPrim_enByWriteOnly (p : Prim) (k : List Micro) (s : State) : EnByWriteOnly s (runPrim p k s) := by
  unfold EnByWriteOnly
  rw [runPrim_en, runPrim_lastEn, runPrim_trace, enWrites_append, enWrites_primEvent]
  cases p with
  | enWrite v => exact .inr ⟨v, rfl, rfl, rfl⟩
  | _ => exact .inl ⟨rfl, rfl, List.append_nil _⟩

/-- Settles O59: of the forms of a step only a primitive can write EN; acceptance and settling leave it alone. -/
theorem enChangesOnlyByEnWrite : Obligations.EnChangesOnlyByEnWrite := by
  intro s t h
  cases (step_stepped h).2 with
  | faulted => exact .inl ⟨rfl, rfl, by simp [enWrites]⟩
  | accepted => exact .inl ⟨by simp, by simp, by simp [enWrites]⟩
  | called => exact runPrim_enByWriteOnly _ _ { s with phase := _, host := hostNext s }
  | primitive => exact runPrim_enByWriteOnly _ _ { s with host := hostNext s }
  | settled => exact .inl ⟨by simp, by simp, by simp⟩

/-! ### Words of the opcode table (R72) -/

theorem decode_opcodeFrame (op : Byte) : ∃ i, decode (.wireFrame (opcodeFrame op)) = .instr i := by
  unfold opcodeFrame
  split_ifs <;> exact ⟨_, rfl⟩

/-- Every 8-bit word encodes something that decodes. -/
theorem tableWord_decodes {w : Nat} (hw : w < 256) : ∃ e i, tableWord 8 w = some e ∧ decode e = .instr i := by
  by_cases htag : w < 8
  · exact ⟨_, _, if_pos htag, rfl⟩
  · obtain ⟨i, hi⟩ := decode_opcodeFrame (BitVec.ofNat 8 w)
    exact ⟨_, i, by simp [tableWord, htag, hw], hi⟩

/-- The step at a placed word: a request is the host's one offer, a wire command the frame call in front of the phase;
either way the host has nothing left to offer. -/
theorem step_placeWord {s : State} {e : Encoded} {i : Instr} (hf : s.fault = none) (he : decode e = .instr i) :
    step (placeWord s e) = exec i { s with host := .script [] } := by
  cases e with
  | hostReq q =>
    obtain rfl : decodeRequest q = i := by simpa [decode] using he
    exact step_of_offer (s := { s with host := .script [some q] }) hf rfl
  | wireFrame f =>
    have hp : placeWord s (.wireFrame f) = { s with phase := .frame i :: s.phase, host := .script [] } := by
      simp only [placeWord, he, Decoded.toOption]
    rw [hp]
    exact stepRunsTheCalledFrame _ i s.phase hf rfl rfl

/-- Settles O10: an 8-bit word always encodes an instruction, and the step at the placed word runs it. -/
theorem placedWordRunsNext : Obligations.PlacedWordRunsNext := by
  intro s w hf hw
  obtain ⟨e, i, hword, he⟩ := tableWord_decodes hw
  refine ⟨i, ?_, ?_⟩
  · simp only [decodeTableWord, hword, he, Decoded.toOption]
  · simp only [State.withFetchWord, hword]
    exact step_placeWord hf he

/-! ### The register map (R60, R80) -/

/-- The address of an access is that of one of the three line registers. -/
theorem busAddress_eq_regAddress {p : Params} {e : Event} {a : Nat} (h : busAddress p e = some a) :
    ∃ r, a = regAddress p r := by
  cases e with
  | cr v => exact ⟨.ctrl, (Option.some.inj h).symm⟩
  | cw v => exact ⟨.ctrl, (Option.some.inj h).symm⟩
  | dr v => exact ⟨.din, (Option.some.inj h).symm⟩
  | ew v => exact ⟨.en, (Option.some.inj h).symm⟩
  | _ => cases h

/-- Settles O19: the four accesses have the addresses of the map, and no other event has one. -/
theorem accessesGoToTheThreeRegisters : Obligations.AccessesGoToTheThreeRegisters := by
  refine fun p => ⟨fun v => ⟨rfl, rfl, rfl, rfl⟩, fun e a h => ?_⟩
  obtain ⟨r, rfl⟩ := busAddress_eq_regAddress h
  cases r <;> simp [regAddress, regOffset]

end Sys2Proof.Machine
end

section
/-!
The statements of 30_encoding.md: the decoder and the encoder of requests and frames, the request fields an operation
does not use, the address bytes, and what the frame of every wire command puts on the wire.
-/

namespace Sys2Proof.Machine

/-! ### Decoding what encoding gives (R84 to R96) -/

theorem decodeStatusRead_of_ne {op : Byte} {n : Nat}
    (hsr : Instr.callerOpcode op (.statusRead n) ≠ .callerOpcode rdsrByte (.statusRead 1))
    (hfsr : Instr.callerOpcode op (.statusRead n) ≠ .callerOpcode rfsrByte (.statusRead 1)) :
    decodeStatusRead op n = .callerOpcode op (.statusRead n) := by
  rw [decodeStatusRead, if_neg, if_neg]
  · rintro ⟨rfl, rfl⟩; exact hfsr rfl
  · rintro ⟨rfl, rfl⟩; exact hsr rfl

/-- The bytes of an address and nothing after them: the case of `Laws.decodeAddressed_addrBytes` without a tail. -/
theorem decodeAddressed_addrBytes_nil (k : Addr → List Byte → Decoded) (a : Addr) :
    decodeAddressed k (addrBytes a) = k a [] :=
  Laws.decodeAddressed_addrBytes k a []

theorem decodeFrame_statusReadFrame (op : Byte) (n : Nat) :
    decodeFrame (statusReadFrame op n) = .instr (decodeStatusRead op n) := rfl

/-- A frame of a request's opcode that is no status read decodes to itself: the shapes without an address by the
definitions, the others because the address bytes are read back (R96). -/
theorem decodeFrame_shapeFrame (op : Byte) {shape : FrameShape} (h : ∀ n, shape ≠ .statusRead n) :
    decodeFrame (shapeFrame op shape) = .instr (.callerOpcode op shape) := by
  cases shape with
  | statusRead n => exact absurd rfl (h n)
  | regWrite data => rfl
  | dataRead a n => simp [shapeFrame, decodeFrame, decodeAddressed_addrBytes_nil]
  | dataProgram a data => simp [shapeFrame, decodeFrame, Laws.decodeAddressed_addrBytes]
  | dataErase a => simp [shapeFrame, decodeFrame, decodeAddressed_addrBytes_nil]

/-- Settles O2: a request decodes by its tag and a fixed frame by its opcode; a frame of a request's opcode decodes to
itself, a status read as long as it is not the frame of one of the two fixed rows. -/
theorem decodeInvertsEncode : Obligations.DecodeInvertsEncode := by
  intro i hsr hfsr
  cases i with
  | callerOpcode op shape =>
    show decodeFrame (shapeFrame op shape) = _
    cases shape with
    | statusRead n => rw [shapeFrame, decodeFrame_statusReadFrame, decodeStatusRead_of_ne hsr hfsr]
    | _ => exact decodeFrame_shapeFrame op nofun
  | _ => rfl

/-- Settles O1: each word and each frame is a literal, so the decoder computes its instruction. -/
theorem tableWordsDecode : Obligations.TableWordsDecode := by
  unfold Obligations.TableWordsDecode
  decide

/-- Settles O3: the decoder reads a one-byte status read of 0x05 or 0x70 as the fixed row, and both instructions call
the same frame procedure. -/
theorem sharedStatusReadFrames : Obligations.SharedStatusReadFrames :=
  ⟨decodeFrame_statusReadFrame rdsrByte 1, decodeFrame_statusReadFrame rfsrByte 1, fun s =>
    ⟨(exec_statusRead rdsrByte s).symm, (exec_statusRead rfsrByte s).symm⟩⟩

/-! ### Unused request fields (R86) -/

/-- Requests with the same tag that agree on the fields it uses decode to the same instruction: by the tag, no branch
of the decoder reads another field. -/
theorem decodeRequest_eq_of_used_eq {q q' : Request} (hop : q.op = q'.op)
    (hopcode : q.op ∈ [tagReadReg, tagWriteReg, tagRead, tagProgram, tagErase] → q.opcode = q'.opcode)
    (haddr : q.op ∈ [tagRead, tagProgram, tagErase] → q.addr = q'.addr)
    (hlen : q.op ∈ [tagReadReg, tagRead] → q.len = q'.len)
    (hdata : q.op ∈ [tagWriteReg, tagProgram] → q.data = q'.data) : decodeRequest q = decodeRequest q' := by
  unfold decodeRequest
  rw [← hop]
  split_ifs with _ _ hReadReg hWriteReg hRead hProgram hErase
  · rfl
  · rfl
  · rw [hopcode (by simp [hReadReg]), hlen (by simp [hReadReg])]
  · rw [hopcode (by simp [hWriteReg]), hdata (by simp [hWriteReg])]
  · rw [hopcode (by simp [hRead]), haddr (by simp [hRead]), hlen (by simp [hRead])]
  · rw [hopcode (by simp [hProgram]), haddr (by simp [hProgram]), hdata (by simp [hProgram])]
  · rw [hopcode (by simp [hErase]), haddr (by simp [hErase])]
  · rfl

/-- Settles O4: the host's step sees the request through the decoder only. -/
theorem unusedRequestFieldsIgnored : Obligations.UnusedRequestFieldsIgnored := by
  intro q q' s hop hopcode haddr hlen hdata
  rw [hostStep, hostStep, decodeRequest_eq_of_used_eq hop hopcode haddr hlen hdata]

/-! ### Address bytes (R96) -/

theorem map_toNat_addrBytes (a : Addr) :
    (addrBytes a).map BitVec.toNat = [a.toNat / 65536 % 256, a.toNat / 256 % 256, a.toNat % 256] := by
  simp [addrBytes, Nat.shiftRight_eq_div_pow]

/-- Settles O5: each byte is a field of the address, and the three appended are the address. -/
theorem addressBytesMostSignificantFirst : Obligations.AddressBytesMostSignificantFirst := by
  refine fun a => ⟨map_toNat_addrBytes a, fun hi mid lo h => ?_⟩
  obtain ⟨rfl, rfl, rfl, -⟩ : _ ∧ _ ∧ _ ∧ _ := by simpa only [addrBytes, List.cons.injEq] using h
  exact Laws.addrOfBytes_addrBytes a

/-! ### Frames on the wire (R93 to R97, 43_transactions.md R170 to R178) -/

/-- The frame receives bytes into RBUF, in capture mode (R94, 43_transactions.md R178). -/
abbrev Receives (f : Frame) : Prop := f.format = .statusRead ∨ f.format = .dataRead

/-- How many `setBit`s a frame has besides those of its bytes (43_transactions.md R170 to R175). -/
def ownSetBits : FrameFormat → Nat
  | .statusRead => 4
  | .dataRead => 3
  | .writeEnable => 2
  | .registerWrite => 2
  | .dataProgram => 2
  | .erase => 2

/-- The totals of a frame on the wire that starts with DIR = `dir` and reads the bits `bs`. -/
def frameTally (f : Frame) (dir : Bool) (bs : List Bool) : Tally where
  sent := f.out.flatMap wireBits
  got := bs
  presented := 8 * f.nIn
  reads := ownSetBits f.format + 32 * f.out.length + 17 * f.nIn
  writes := frameWrites (ownSetBits f.format + 24 * f.out.length + 17 * f.nIn) dir

/-- From `s` to `t` the events `es` are the frame `f`, selected at every pulse; it read the bits `bs`, which are RBUF
where it receives, and leaves the lines as a frame does. -/
structure CarriesFrame (f : Frame) (s t : State) (es : List Event) (bs : List Bool) : Prop where
  did : Did false s t es (frameTally f (lineOf s.params .dir s.ctrl) bs)
  length_bits : bs.length = 8 * f.nIn
  rbuf : t.rbuf = if Receives f then bytesOfBits f.nIn bs else s.rbuf
  ends : EndsFrame s t (if Receives f then true else lineOf s.params .cap s.ctrl)

theorem CarriesFrame.statusRead (op : Byte) (n : Nat) (s : State) :
    ∃ es bs, CarriesFrame (statusReadFrame op n) s (refStatusRead op n s) es bs := by
  obtain ⟨es, bs, hdid, hlen, hrbuf, hends⟩ := Did.statusRead op n s
  exact ⟨es, bs, hdid.cast (by simp [frameTally, statusReadFrame, ownSetBits]), hlen, hrbuf, hends⟩

theorem CarriesFrame.wrenTxn (s : State) : ∃ es bs, CarriesFrame wrenFrame s (refWrenTxn s) es bs := by
  obtain ⟨es, hdid, hrbuf, hends⟩ := Did.wrenTxn s
  exact ⟨es, [], hdid.cast (by simp [frameTally, wrenFrame, ownSetBits]), rfl, hrbuf, hends⟩

/-- The frame of each shape: what `Did` counts along the shape's procedure are the totals of the frame's bytes. -/
theorem CarriesFrame.shape (op : Byte) (shape : FrameShape) (s : State) :
    ∃ es bs, CarriesFrame (shapeFrame op shape) s (refShape op shape s) es bs := by
  cases shape with
  | statusRead n => exact CarriesFrame.statusRead op n s
  | regWrite data =>
    obtain ⟨es, hdid, hrbuf, hends⟩ := Did.regWriteTxn op data s
    refine ⟨es, [], hdid.cast ?_, rfl, hrbuf, hends⟩
    simp only [frameTally, frameWrites, shapeFrame, ownSetBits, List.length_cons, Tally.mk.injEq, true_and]
    omega
  | dataRead a n =>
    obtain ⟨es, bs, hdid, hlen, hrbuf, hends⟩ := Did.readTxn op a n s
    exact ⟨es, bs, hdid.cast (by simp [frameTally, shapeFrame, ownSetBits, addrBytes]), hlen, hrbuf, hends⟩
  | dataProgram a data =>
    obtain ⟨es, hdid, hrbuf, hends⟩ := Did.progTxn op a data s
    refine ⟨es, [], hdid.cast ?_, rfl, hrbuf, hends⟩
    simp only [frameTally, frameWrites, shapeFrame, ownSetBits, addrBytes, List.length_append, List.length_cons,
      List.length_nil, Tally.mk.injEq, true_and]
    omega
  | dataErase a =>
    obtain ⟨es, hdid, hrbuf, hends⟩ := Did.eraseTxn op a s
    exact ⟨es, [], hdid.cast (by simp [frameTally, shapeFrame, ownSetBits, addrBytes]), rfl, hrbuf, hends⟩

/-- The code of every wire command runs to a state that its frame on the wire leads to. -/
theorem frameCode_carriesFrame {i : Instr} {f : Frame} (he : encode i = .wireFrame f) :
    ∃ g, FrameRunsTo (frameCode i) g ∧ ∀ s, ∃ es bs, CarriesFrame f s (g s) es bs := by
  cases i with
  | opWren => cases he; exact ⟨refWrenTxn, .wrenTxn, CarriesFrame.wrenTxn⟩
  | opRdsr => cases he; exact ⟨refStatusRead rdsrByte 1, .statusRead rdsrByte 1, CarriesFrame.statusRead rdsrByte 1⟩
  | opRfsr => cases he; exact ⟨refStatusRead rfsrByte 1, .statusRead rfsrByte 1, CarriesFrame.statusRead rfsrByte 1⟩
  | callerOpcode op shape => cases he; exact ⟨refShape op shape, .shape op shape, CarriesFrame.shape op shape⟩
  | _ => cases he

/-- The call of a wire command runs to its end, and what was done is its frame. -/
theorem exec_carriesFrame {i : Instr} {f : Frame} {s : State} (he : encode i = .wireFrame f) (hq : Quiet s)
    (k : List Micro) :
    ∃ u t es bs, exec i { s with phase := k } = .next u ∧ Reaches u (settle k t) ∧ CarriesFrame f s t es bs := by
  obtain ⟨g, hruns, hcarries⟩ := frameCode_carriesFrame he
  obtain ⟨-, u, hcall, hreach⟩ := hruns k s hq
  obtain ⟨es, bs, hc⟩ := hcarries s
  exact ⟨u, g s, es, bs, by rw [exec_of_wireFrame he, hcall], hreach, hc⟩

/-- Settles O29: the frame's totals, RBUF and last lines are those of its bytes, whatever the shape. -/
theorem framesCarryTheirEncoding : Obligations.FramesCarryTheirEncoding := by
  intro i f k s hf hs he
  obtain ⟨u, t, es, bs, hexec, hreach, hdid, hlen, hrbuf, hends⟩ := exec_carriesFrame he ⟨hf, hs⟩ k
  have hbits : dataBits es = bs := hdid.got
  have hreads : (dinReads es).length = 8 * f.nIn := by rw [← hlen, ← hbits, dataBits, List.length_map]
  refine ⟨u, t, es, hexec, hreach, hdid.moved, hdid.trace, hdid.sent, hdid.presented, hreads, hdid.selected,
    hends.csN, hends.clk, fun hin => ?_, fun hsr hdr => ?_⟩
  · rw [hbits, hrbuf, if_pos hin]
  · rw [hrbuf, if_neg (not_or.2 ⟨hsr, hdr⟩)]

end Sys2Proof.Machine
end

section
/-!
The statements of 40_line_access.md: the byte a `setBit` writes, the two accesses of `setBit` and of `dirOutIfNeeded`,
and that a line changes only by the write of a `setBit` on it.
-/

namespace Sys2Proof.Machine

/-! ### The byte a `setBit` writes (R120) -/

theorem getLsbD_lineMask (p : Params) (l : Line) {n : Nat} (hn : n < 8) :
    (lineMask p l).getLsbD n = decide (n = lineIndex p l) := by
  rw [lineMask, BitVec.getLsbD_shiftLeft, BitVec.getLsbD_one, Bool.eq_iff_iff]
  simp only [Bool.and_eq_true, Bool.not_eq_true', decide_eq_true_eq, decide_eq_false_iff_not]
  omega

/-- Settles O20: or-ing the line's mask in sets its one bit, and-ing the complement clears it. -/
theorem setLineSetsOneBit : Obligations.SetLineSetsOneBit := by
  intro p l v r n hn
  have hmask := getLsbD_lineMask p l hn
  cases v with
  | true =>
    rw [setLine, if_pos rfl, BitVec.getLsbD_or, hmask]
    by_cases h : n = lineIndex p l <;> simp [h]
  | false =>
    rw [setLine, if_neg Bool.false_ne_true, BitVec.getLsbD_and, BitVec.getLsbD_not, hmask]
    by_cases h : n = lineIndex p l <;> simp [h, hn]

/-! ### The accesses of `setBit` and of `dirOutIfNeeded` (R120, R128) -/

/-- What `setBit` leaves, field by field (20_memory.md R62, R63). -/
theorem refSetBit_eq (l : Line) (v : Bool) (s : State) :
    refSetBit l v s =
      { s with
        ctrl := setLine s.params l v s.ctrl
        trace := s.trace ++ [.cr s.ctrl, .cw (setLine s.params l v s.ctrl)]
        device := deviceAfterWrite s.params s.ctrl (setLine s.params l v s.ctrl) s.device } := by
  simp [refSetBit, ctrlRead, ctrlWrite, emit]

/-- The DIR line is bit 1, so setting it is the `r | DIR` of R128. -/
theorem setLine_dir_true (p : Params) (r : Byte) : setLine p .dir true r = r ||| 0x02#8 := rfl

/-- A quiet block that stands at a primitive runs it. -/
theorem step_of_quiet_prim {s : State} {p : Prim} {k : List Micro} (hq : Quiet s) (hp : s.phase = .prim p :: k) :
    step s = .next (runPrim p k s) := by
  rw [step_of_quiet_busy hq hp]
  simp only [controllerStep, hp]

/-- A primitive that is the read half of a `setBit`, and the step after it, are that `setBit`. -/
theorem stepN_two_of_readHalf {s : State} {p : Prim} {k : List Micro} {l : Line} {v : Bool} (hq : Quiet s)
    (hp : s.phase = .prim p :: k)
    (hread : runPrim p k s = settle (.prim (.setWrite l v s.ctrl) :: k) (ctrlRead s)) :
    stepN 2 s = .next (settle k (refSetBit l v s)) := by
  have hwrite : step (runPrim p k s) = .next (settle k (refSetBit l v s)) :=
    hread ▸ step_settle_prim (s := ctrlRead s) hq (.setWrite l v s.ctrl) k
  simp only [stepN, step_of_quiet_prim hq hp, hwrite]

/-- Settles O21: `setRead` is the read half of the `setBit`. -/
theorem setBitReadsThenWrites : Obligations.SetBitReadsThenWrites := by
  intro l v k s hf hs hp
  rw [stepN_two_of_readHalf ⟨hf, hs⟩ hp rfl, refSetBit_eq]

/-- Settles O22: with DIR = 1 the primitive is the read alone, with DIR = 0 it is the read half of setting DIR. -/
theorem directionSwitchedOnlyIfNeeded : Obligations.DirectionSwitchedOnlyIfNeeded := by
  intro k s hf hs hp
  refine ⟨fun hdir => ?_, fun hdir => ?_⟩
  · have hread : runPrim .dirRead k s = settle k { s with trace := s.trace ++ [.cr s.ctrl] } := if_pos hdir
    simp only [stepN, step_of_quiet_prim ⟨hf, hs⟩ hp, hread]
  · have hread : runPrim .dirRead k s = settle (.prim (.setWrite .dir true s.ctrl) :: k) (ctrlRead s) :=
      if_neg (Bool.eq_false_iff.1 hdir)
    rw [stepN_two_of_readHalf ⟨hf, hs⟩ hp hread, refSetBit_eq, setLine_dir_true]

/-! ### What changes a line (R120, 41_bit_clock.md R143) -/

/-- A primitive that changes a line is the write half of a `setBit` on it, of the value CTRL holds, and gives the line
the value of that `setBit`. -/
theorem runPrim_changes_line {s : State} {p : Prim} {k : List Micro} {l : Line}
    (hw : pendingWriteCurrent s.ctrl (.prim p :: k) = true)
    (hne : lineOf s.params l (runPrim p k s).ctrl ≠ lineOf s.params l s.ctrl) :
    ∃ v r, p = .setWrite l v r ∧ lineOf s.params l (runPrim p k s).ctrl = v ∧
      primEvent p s = .cw (runPrim p k s).ctrl := by
  rw [runPrim_ctrl] at hne ⊢
  cases p with
  | setWrite m v r =>
    obtain rfl : r = s.ctrl := by simpa [pendingWriteCurrent] using hw
    have hset : lineOf s.params l (setLine s.params m v s.ctrl) = if l = m then v else lineOf s.params l s.ctrl :=
      lineOf_setLine s.params l m v s.ctrl
    by_cases hl : l = m
    · subst hl
      exact ⟨v, s.ctrl, rfl, hset.trans (if_pos rfl), rfl⟩
    · exact absurd (hset.trans (if_neg hl)) hne
  | _ => exact absurd rfl hne

/-- Settles O54: of the forms of a step only a primitive can write CTRL; a frame call's first primitive is a read, and
acceptance and settling leave CTRL alone. -/
theorem linesChangeOnlyBySetBit : Obligations.LinesChangeOnlyBySetBit := by
  rintro s t l ⟨hw, -⟩ h hne
  cases (step_stepped h).2 with
  | faulted => exact absurd rfl hne
  | accepted => exact absurd (congrArg _ (settle_ctrl _ _)) hne
  | called => exact absurd (congrArg _ (runPrim_ctrl _ _ _)) hne
  | @primitive p k ho hp =>
    rw [hp] at hw
    obtain ⟨v, r, rfl, hv, he⟩ := runPrim_changes_line (s := { s with host := hostNext s }) hw hne
    exact ⟨v, r, k, hp, hv, by rw [runPrim_trace, he]⟩
  | settled => exact absurd (congrArg _ (settle_ctrl _ _)) hne

end Sys2Proof.Machine
end

section
/-!
The statements of 41_bit_clock.md: the clock pulse, its one rising edge, and the input bit it samples.
-/

namespace Sys2Proof.Machine

/-! ### The pulse (R140) -/

/-- The CLK line is bit 0, so its mask is 0x01. -/
theorem lineMask_clk (p : Params) : lineMask p .clk = 0x01#8 := rfl

theorem setLine_clk_true (p : Params) (r : Byte) : setLine p .clk true r = r ||| 0x01#8 := by
  rw [setLine, if_pos rfl, lineMask_clk]

theorem setLine_clk_false (p : Params) (r : Byte) : setLine p .clk false r = r &&& 0xFE#8 := by
  rw [setLine, if_neg Bool.false_ne_true, lineMask_clk, show ~~~(0x01#8) = 0xFE#8 by decide]

theorem refClock_ctrl (s : State) : (refClock s).ctrl = (s.ctrl &&& 0xFE#8) ||| 0x01#8 := by
  rw [refClock, refSetBit_ctrl, refSetBit_ctrl, setLine_clk_false, setLine_clk_true]

/-- The events of a pulse, as R140 writes their values. -/
theorem clockEvents_eq (p : Params) (c : Byte) :
    clockEvents p c = [.cr c, .cw (c &&& 0xFE#8), .cr (c &&& 0xFE#8), .cw ((c &&& 0xFE#8) ||| 0x01#8)] := by
  rw [clockEvents, setLine_clk_false, setLine_clk_true]

/-- Writing CLK = 0 and then CLK = 1 makes one rising edge, at the second write, whatever CLK was (R140, R142). -/
theorem risingEdges_pulse (p : Params) (c : Byte) :
    risingEdges p c [c &&& 0xFE#8, (c &&& 0xFE#8) ||| 0x01#8] = [(c &&& 0xFE#8) ||| 0x01#8] := by
  rw [← setLine_clk_true p, ← setLine_clk_false p]
  have hlow : lineOf p .clk (setLine p .clk false c) = false := lineOf_setLine p .clk .clk false c
  have hhigh : lineOf p .clk (setLine p .clk true (setLine p .clk false c)) = true := lineOf_setLine p .clk .clk true _
  simp [risingEdges, hlow, hhigh]

/-- Settles O23: `clockOut` runs to `refClock`, whose accesses are those of one pulse. -/
theorem clockPulseIsOneRisingEdge : Obligations.ClockPulseIsOneRisingEdge := by
  intro k s hf hs
  have hdid := Did.clock s
  have htrace := hdid.trace
  rw [clockEvents_eq] at htrace
  exact ⟨refClock s, (RunsTo.clock k s ⟨hf, hs⟩).2, hdid.moved, refClock_ctrl s, htrace,
    risingEdges_pulse s.params s.ctrl⟩

/-! ### The input bit (R141, 42_byte_framer.md R151) -/

theorem RunsTo.clockIn : RunsTo clockInCode (fun s => refSample (refClock s)) := RunsTo.clock.append RunsTo.sample

/-- Storing a bit at `i` gives bit `i` its value and keeps the others. -/
theorem getLsbD_putBit (v : Byte) (i : Fin 8) (b : Bool) {n : Nat} (hn : n < 8) :
    (putBit v i b).getLsbD n = if n = i.val then b else v.getLsbD n := by
  have hmask : (1#8 <<< i.val).getLsbD n = decide (n = i.val) := by
    rw [← BitVec.twoPow_eq, BitVec.getLsbD_twoPow, decide_eq_true i.isLt, Bool.true_and]
    exact decide_eq_decide.2 eq_comm
  cases b with
  | true =>
    rw [putBit, if_pos rfl, BitVec.getLsbD_or, hmask]
    by_cases h : n = i.val <;> simp [h]
  | false =>
    rw [putBit, if_neg Bool.false_ne_true, BitVec.getLsbD_and, BitVec.getLsbD_not, hmask]
    by_cases h : n = i.val <;> simp [h, hn]

/-- Settles O24: `clockIn` is a pulse and then the sample, which stores bit 0 of its one DinRead, the device's answer
after the pulse. -/
theorem clockInSamplesOnce : Obligations.ClockInSamplesOnce := by
  intro k s hf hs
  have hdid := (Did.clock s).trans (Did.sample (refClock s))
  have htrace := hdid.trace
  rw [clockEvents_eq] at htrace
  have hshift : (refSample (refClock s)).shift = putBit s.shift s.bitIdx (dinBit (dinAnswer (refClock s))) := rfl
  refine ⟨refSample (refClock s), dinAnswer (refClock s), (RunsTo.clockIn k s ⟨hf, hs⟩).2, hdid.moved,
    refClock_ctrl s, htrace, fun n hn => ?_⟩
  rw [hshift, getLsbD_putBit _ _ _ hn, dinBit]

end Sys2Proof.Machine
end

section
/-!
The statements of 42_byte_framer.md: a byte sent, a byte received, the 3-byte address, and the reference loopback device
of 92_eei_decisions.md D24 followed through a byte sent and a byte received.
-/

namespace Sys2Proof.Machine

/-! ### Bytes and the address on the wire (R150 to R152) -/

/-- A stretch that reads no bit has no DinRead. -/
theorem Did.dinReads_length {cs : Bool} {s t : State} {es : List Event} {y : Tally} (h : Did cs s t es y) :
    (dinReads es).length = y.got.length := by
  rw [← h.got, dataBits, List.length_map]

/-- Settles O25: `sendByte` runs to `refSendByte`, whose totals and last lines are those of its eight bits. -/
theorem sendByteIsMostSignificantBitFirst : Obligations.SendByteIsMostSignificantBitFirst := by
  intro v k s hf hs
  obtain ⟨es, hdid⟩ := Did.sendByte v s
  have hlines := fun l => refSendByte_lines v l s
  exact ⟨refSendByte v s, es, (RunsTo.sendByte v k s ⟨hf, hs⟩).2, hdid.moved, hdid.trace, hdid.sent, hdid.presented,
    List.eq_nil_of_length_eq_zero hdid.dinReads_length, hdid.reads, hdid.writes,
    hlines .clk, hlines .dir, hlines .dout, hlines .csN, hlines .cap⟩

/-- Settles O26: `recvByte` runs to `refRecvByte`, which puts the eight bits it reads at 7, 6, ..., 0. -/
theorem recvByteIsMostSignificantBitFirst : Obligations.RecvByteIsMostSignificantBitFirst := by
  intro k s hf hs
  obtain ⟨es, bs, hdid, hlen, hshift⟩ := Did.recvByte s
  have hlines := fun l => refRecvByte_lines l s
  exact ⟨refRecvByte s, es, (RunsTo.recvByte k s ⟨hf, hs⟩).2, hdid.moved, hdid.trace, by rw [hdid.got, hshift],
    hdid.sent, hdid.presented, hdid.dinReads_length.trans hlen, hdid.reads, hdid.writes,
    hlines .clk, hlines .dir, hlines .dout, hlines .csN, hlines .cap⟩

/-- Bytes sent, at least one: the first switches DIR where it was 0, the others find it 1. -/
theorem Did.sendBytes_cons (v : Byte) (vs : List Byte) (s : State) :
    ∃ es, Did (lineOf s.params .csN s.ctrl) s (refSendBytes (v :: vs) s) es
      { sent := (v :: vs).flatMap wireBits, got := [], presented := 0, reads := 32 + 32 * vs.length
        writes := (if lineOf s.params .dir s.ctrl then 24 else 25) + 24 * vs.length } := by
  have hp : (refSendByte v s).params = s.params := refSendByte_params v s
  have hlines := fun l => refSendByte_lines v l s
  obtain ⟨e1, h1⟩ := Did.sendByte v s
  obtain ⟨e2, h2, -⟩ := Did.sendBytes vs (refSendByte v s) (by rw [hp, hlines])
  rw [hp, hlines] at h2
  exact ⟨e1 ++ e2, h1.trans h2⟩

/-- Settles O27: the address is its three bytes, sent one after another. -/
theorem sendAddrIsMostSignificantByteFirst : Obligations.SendAddrIsMostSignificantByteFirst := by
  intro a k s hf hs
  obtain ⟨es, hdid⟩ := Did.sendBytes_cons (a.extractLsb' 16 8) [a.extractLsb' 8 8, a.extractLsb' 0 8] s
  refine ⟨refSendBytes (addrBytes a) s, es, (RunsTo.sendBytes (addrBytes a) k s ⟨hf, hs⟩).2, hdid.moved, hdid.trace,
    ?_, List.eq_nil_of_length_eq_zero hdid.dinReads_length, hdid.reads, ?_⟩
  · rw [hdid.sent]
    simp
  · rw [hdid.writes]
    split <;> rfl

/-! ### The reference loopback device (R154, 92_eei_decisions.md D24) -/

/-- The loopback device's register with the bit `b` shifted in at the least significant end. -/
def shiftIn (l : Byte) (b : Bool) : Byte := l.extractLsb' 0 7 ++ BitVec.ofBool b

/-- Bit 0 is the bit shifted in, and every other bit comes from one place below. -/
theorem getLsbD_shiftIn (l : Byte) (b : Bool) (n : Nat) :
    (shiftIn l b).getLsbD n = if n = 0 then b else decide (n - 1 < 7) && l.getLsbD (n - 1) := by
  have hconcat : shiftIn l b = (l.extractLsb' 0 7).concat b := rfl
  rw [hconcat, BitVec.getLsbD_concat, BitVec.getLsbD_extractLsb', Nat.zero_add]

/-- The bits the loopback device presents at the next `n` edges with DIR = 0, its register being `l`: it rotates. -/
def presentedBits : Nat → Byte → List Bool
  | 0, _ => []
  | n + 1, l => l.getLsbD 7 :: presentedBits n (shiftIn l (l.getLsbD 7))

/-- Eight bits shifted in leave nothing of what the register held. -/
theorem foldl_shiftIn_wireBits (v l : Byte) : (wireBits v).foldl shiftIn l = v := by
  refine BitVec.eq_of_getLsbD_eq fun i hi => ?_
  simp only [wireBits, bitOrder, List.map_cons, List.map_nil, List.foldl_cons, List.foldl_nil]
  interval_cases i <;> simp [getLsbD_shiftIn, -BitVec.getLsbD_eq_getElem]

/-- A full turn of the register presents its bits most significant first. -/
theorem presentedBits_eight (v : Byte) : presentedBits 8 v = wireBits v := by
  revert v; decide

/-- The model's rotation shifts the top bit in. -/
theorem rotate_eq_shiftIn (l : Byte) : l.extractLsb' 0 7 ++ l.extractLsb' 7 1 = shiftIn l (l.getLsbD 7) := by
  revert l; decide

section
variable {p : Params} {old new : Byte} (d : Byte) (x : Bool)

/-- A write that does not take CLK from 0 to 1 leaves the loopback device as it was. -/
theorem deviceAfterWrite_of_no_edge (h : (lineOf p .clk old || !lineOf p .clk new) = true) :
    deviceAfterWrite p old new (.loopback d x) = .loopback d x := by
  rw [deviceAfterWrite, if_pos h]

/-- At a rising edge the loopback device shifts DOUT in when DIR = 1, and presents its top bit and rotates when
DIR = 0. -/
theorem deviceAfterWrite_of_rising (hold : lineOf p .clk old = false) (hnew : lineOf p .clk new = true) :
    deviceAfterWrite p old new (.loopback d x) =
      if lineOf p .dir new then .loopback (shiftIn d (lineOf p .dout new)) x
      else .loopback (shiftIn d (d.getLsbD 7)) (d.getLsbD 7) := by
  rw [deviceAfterWrite, if_neg (by simp [hold, hnew]), rotate_eq_shiftIn]
  rfl

end

/-- Writing a line other than CLK is no edge. -/
theorem refSetBit_loopback {s : State} {d : Byte} {x : Bool} {l : Line} (hl : l ≠ .clk) (v : Bool)
    (h : s.device = .loopback d x) : (refSetBit l v s).device = .loopback d x := by
  have hclk : lineOf s.params .clk (setLine s.params l v s.ctrl) = lineOf s.params .clk s.ctrl := by
    rw [lineOf_setLine, if_neg hl.symm]
  rw [refSetBit_eq, h]
  exact deviceAfterWrite_of_no_edge d x (by rw [hclk, Bool.or_not_self])

theorem refDirOut_loopback {s : State} {d : Byte} {x : Bool} (h : s.device = .loopback d x) :
    (refDirOut s).device = .loopback d x := by
  unfold refDirOut
  split
  · exact h
  · exact refSetBit_loopback (by decide) true h

/-- A pulse is one rising edge to the loopback device, with DIR and DOUT as they were before it. -/
theorem refClock_loopback {s : State} {d : Byte} {x : Bool} (h : s.device = .loopback d x) :
    (refClock s).device =
      if lineOf s.params .dir s.ctrl then .loopback (shiftIn d (lineOf s.params .dout s.ctrl)) x
      else .loopback (shiftIn d (d.getLsbD 7)) (d.getLsbD 7) := by
  let low := setLine s.params .clk false s.ctrl
  let high := setLine s.params .clk true low
  have hlow : ∀ l, lineOf s.params l low = if l = .clk then false else lineOf s.params l s.ctrl :=
    fun l => lineOf_setLine s.params l .clk false s.ctrl
  have hhigh : ∀ l, lineOf s.params l high = if l = .clk then true else lineOf s.params l low :=
    fun l => lineOf_setLine s.params l .clk true low
  calc (refClock s).device
      = deviceAfterWrite s.params low high (deviceAfterWrite s.params s.ctrl low s.device) := rfl
    _ = deviceAfterWrite s.params low high (.loopback d x) := by
        rw [h, deviceAfterWrite_of_no_edge d x (by simp [hlow])]
    _ = _ := by
        rw [deviceAfterWrite_of_rising d x (hlow .clk) (hhigh .clk), hhigh, hhigh, hlow, hlow]
        rfl

/-- A bit sent is shifted into the loopback device's register. -/
theorem refSendBit_loopback {s : State} {d : Byte} {x : Bool} (i : Fin 8) (h : s.device = .loopback d x) :
    (refSendBit i s).device = .loopback (shiftIn d (s.shift.getLsbD i)) x := by
  let a := refSetBit .dout (s.shift.getLsbD i) (applyAssign (.bitIdx i) s)
  have ha : a.device = .loopback d x := refSetBit_loopback (by decide) _ h
  have hdout : lineOf a.params .dout a.ctrl = s.shift.getLsbD i := lineOf_setLine s.params .dout .dout _ s.ctrl
  rw [show refSendBit i s = refClock (refDirOut a) from rfl, refClock_loopback (refDirOut_loopback ha),
    refDirOut_params, refDirOut_lines, refDirOut_lines, hdout]
  rfl

theorem sendBits_loopback {s : State} {d : Byte} {x : Bool} (is : List (Fin 8)) (h : s.device = .loopback d x) :
    (is.foldl (fun t i => refSendBit i t) s).device =
      .loopback ((is.map (fun i : Fin 8 => s.shift.getLsbD i.val)).foldl shiftIn d) x := by
  induction is generalizing s d with
  | nil => exact h
  | cons i is ih => rw [List.foldl_cons, ih (refSendBit_loopback i h), refSendBit_shift]; rfl

/-- After a byte sent, the loopback device's register is that byte, whatever it held. -/
theorem refSendByte_loopback {s : State} {d : Byte} {x : Bool} (v : Byte) (h : s.device = .loopback d x) :
    (refSendByte v s).device = .loopback v x := by
  have hbits := sendBits_loopback (s := applyAssign (.shift v) s) bitOrder h
  exact hbits.trans (congrArg (Device.loopback · x) (foldl_shiftIn_wireBits v d))

/-- The loopback device answers the bit it presents. -/
theorem dinBit_dinAnswer_loopback {s : State} {d : Byte} {x : Bool} (h : s.device = .loopback d x) :
    dinBit (dinAnswer s) = x := by
  have hanswer : dinAnswer s = ((Config.deviceDin s.trace).extractLsb' 1 7).concat x := by
    rw [dinAnswer, h]; rfl
  rw [hanswer, dinBit, BitVec.getLsbD_concat, if_pos rfl]

/-- A bit received is the top bit of the loopback device's register, which rotates. -/
theorem refRecvBit_loopback {s : State} {d : Byte} {x : Bool} (i : Fin 8) (h : s.device = .loopback d x)
    (hdir : lineOf s.params .dir s.ctrl = false) :
    (refRecvBit i s).device = .loopback (shiftIn d (d.getLsbD 7)) (d.getLsbD 7) ∧
      (refRecvBit i s).shift = putBit s.shift i (d.getLsbD 7) := by
  let a := refClock (applyAssign (.bitIdx i) s)
  have ha : a.device = .loopback (shiftIn d (d.getLsbD 7)) (d.getLsbD 7) :=
    (refClock_loopback (s := applyAssign (.bitIdx i) s) h).trans (if_neg (by simpa using hdir))
  refine ⟨?_, ?_⟩
  · rw [show (refRecvBit i s).device = deviceAfterRead a.device from rfl, ha]; rfl
  · rw [show (refRecvBit i s).shift = putBit s.shift i (dinBit (dinAnswer a)) from rfl, dinBit_dinAnswer_loopback ha]

theorem recvBits_loopback {s : State} {d : Byte} {x : Bool} (is : List (Fin 8)) (h : s.device = .loopback d x)
    (hdir : lineOf s.params .dir s.ctrl = false) :
    (is.foldl (fun t i => refRecvBit i t) s).shift = putBits s.shift is (presentedBits is.length d) := by
  induction is generalizing s d x with
  | nil => rfl
  | cons i is ih =>
    obtain ⟨hdevice, hshift⟩ := refRecvBit_loopback i h hdir
    have hdir' : lineOf (refRecvBit i s).params .dir (refRecvBit i s).ctrl = false := by
      rw [refRecvBit_params, refRecvBit_lines]; exact hdir
    rw [List.foldl_cons, ih hdevice hdir', hshift]
    rfl

/-- A byte received from the loopback device is its register. -/
theorem refRecvByte_loopback {s : State} {d : Byte} {x : Bool} (h : s.device = .loopback d x) :
    (refRecvByte s).shift = d := by
  let a := applyAssign (.shift 0x00#8) (refSetBit .dir false s)
  have ha : a.device = .loopback d x := refSetBit_loopback (by decide) false h
  have hdir : lineOf a.params .dir a.ctrl = false := lineOf_setLine s.params .dir .dir false s.ctrl
  calc (refRecvByte s).shift = putBits 0x00#8 bitOrder (presentedBits 8 d) := recvBits_loopback bitOrder ha hdir
    _ = byteOfBits (wireBits d) := by rw [presentedBits_eight, putBits_bitOrder _ rfl]
    _ = d := byteOfBits_wireBits d

/-- Settles O28: the byte sent becomes the loopback device's register, and the byte received is that register. -/
theorem loopbackReturnsTheByteSent : Obligations.LoopbackReturnsTheByteSent := by
  intro b l x k s hf hs hdevice
  have hruns := ((RunsTo.sendByte b).append RunsTo.recvByte) k s ⟨hf, hs⟩
  rw [List.append_assoc] at hruns
  exact ⟨refRecvByte (refSendByte b s), hruns.2, refRecvByte_loopback (refSendByte_loopback b hdevice)⟩

end Sys2Proof.Machine
end

section
/-!
The statements of 43_transactions.md: chip-select bracketing (R176, R177), what the call of a frame does, and the
accesses and the capture mode of each frame shape (R170 to R175, R178).
-/

namespace Sys2Proof.Machine

/-! ### CS_N along the phase (R176, R177) -/

theorem deselectedAtCalls_cons {c : Bool} {m : Micro} {k : List Micro} :
    deselectedAtCalls c (m :: k) = true ↔
      (asksDeselected m = true → c = true) ∧ deselectedAtCalls (csNAfter c m) k = true := by
  simp [deselectedAtCalls, imp_iff_not_or]

/-- Code that never asks for CS_N = 1 only hands on the value it leaves CS_N with. -/
theorem deselectedAtCalls_append {d : List Micro} (hd : d.all (!asksDeselected ·) = true) (c : Bool)
    (k : List Micro) : deselectedAtCalls c (d ++ k) = deselectedAtCalls (d.foldl csNAfter c) k := by
  induction d generalizing c with
  | nil => rfl
  | cons m d ih =>
    rw [List.all_cons, Bool.and_eq_true] at hd
    rw [List.cons_append, deselectedAtCalls, hd.1, ih hd.2]
    rfl

theorem not_asksDeselected_of_isFrameItem (m : Micro) (h : isFrameItem m = true) : (!asksDeselected m) = true := by
  cases m with
  | assign a => rfl
  | prim p =>
    cases p with
    | pollTime sop mask => cases h
    | respond r => cases h
    | _ => rfl
  | _ => cases h

/-- Every frame ends with a deselect. -/
theorem frameCode_ends_deselected {i : Instr} {f : Frame} (he : encode i = .wireFrame f) :
    ∃ d, frameCode i = d ++ deselectCode := by
  cases i with
  | callerOpcode op shape => cases shape <;> exact ⟨_, rfl⟩
  | opWren => exact ⟨_, rfl⟩
  | opRdsr => exact ⟨_, rfl⟩
  | opRfsr => exact ⟨_, rfl⟩
  | _ => cases he

/-- A frame asks nothing of CS_N on its way, and what follows it runs deselected. -/
theorem deselectedAtCalls_frameCode {i : Instr} {f : Frame} (he : encode i = .wireFrame f) (c : Bool)
    (k : List Micro) : deselectedAtCalls c (frameCode i ++ k) = deselectedAtCalls true k := by
  rw [deselectedAtCalls_append (frameCode_all not_asksDeselected_of_isFrameItem i)]
  obtain ⟨d, hd⟩ := frameCode_ends_deselected he
  rw [hd, List.foldl_append]
  rfl

/-- OPEN sets CS_N itself; every other operation needs it to be 1 at its start, and then it is 1 wherever it has to be.
-/
theorem deselectedAtCalls_operationCode (i : Instr) {c : Bool} (h : i = .hostOpen ∨ c = true) :
    deselectedAtCalls c (operationCode i) = true := by
  obtain rfl | rfl := h
  · rfl
  · cases i <;> rfl

/-- CS_N is 1 wherever the phase of `s` asks for it, and at its end. -/
def DeselectedWhereAsked (s : State) : Prop :=
  deselectedAtCalls (lineOf s.params .csN s.ctrl) s.phase = true

theorem DeselectedWhereAsked.bracketed {s : State} (h : DeselectedWhereAsked s) (hop : s.req.op ≠ tagClose) :
    Bracketed s := by
  refine ⟨fun hp _ => ?_, fun hc => absurd hc hop, fun _ _ => h⟩
  rw [DeselectedWhereAsked, hp] at h
  exact h

theorem Bracketed.deselected_of_phase {s : State} {m : Micro} {k : List Micro} (hb : Bracketed s)
    (hop : s.req.op ≠ tagClose) (hp : s.phase = m :: k) :
    deselectedAtCalls (lineOf s.params .csN s.ctrl) (m :: k) = true := by
  obtain ⟨-, -, hphase⟩ := hb
  rw [← hp]
  exact hphase (by simp [hp]) hop

/-- No frame is called in CLOSE, and where one is called the device is deselected. -/
theorem Bracketed.of_frame {s : State} {i : Instr} {k : List Micro} (hb : Bracketed s)
    (hp : s.phase = .frame i :: k) :
    s.req.op ≠ tagClose ∧ lineOf s.params .csN s.ctrl = true ∧ deselectedAtCalls true k = true := by
  have hop : s.req.op ≠ tagClose := fun h => by
    obtain ⟨-, hclose, -⟩ := hb
    obtain hc | ⟨hc, -⟩ | hc := hclose h <;> rw [hp] at hc <;> cases hc
  obtain ⟨hask, hk⟩ := deselectedAtCalls_cons.1 (hb.deselected_of_phase hop hp)
  exact ⟨hop, hask rfl, hk⟩

/-! ### What settling and the primitives leave of it -/

/-- Settling writes no line, and what it puts in front of the phase it puts where CS_N is 1 already. -/
theorem settle_deselectedWhereAsked {k : List Micro} {s : State}
    (h : deselectedAtCalls (lineOf s.params .csN s.ctrl) k = true) : DeselectedWhereAsked (settle k s) := by
  unfold DeselectedWhereAsked
  rw [settle_params, settle_ctrl]
  refine settle_phase_of (P := fun k => deselectedAtCalls _ k = true) ?_ ?_ ?_ k s h
  · intro a k h
    exact (deselectedAtCalls_cons.1 h).2
  · intro sop mask k h
    obtain ⟨hask, hk⟩ := deselectedAtCalls_cons.1 h
    exact ⟨hk, deselectedAtCalls_cons.2 ⟨hask, hk⟩⟩
  · intro k h
    obtain ⟨hask, hk⟩ := deselectedAtCalls_cons.1 h
    exact ⟨hk, deselectedAtCalls_cons.2 ⟨hask, hask rfl⟩⟩

/-- CS_N after a primitive is what `csNAfterPrim` says, except for the read half of a `setBit`, whose write follows. -/
theorem runPrim_deselectedWhereAsked {p : Prim} {k : List Micro} {s : State}
    (hw : pendingWriteCurrent s.ctrl (.prim p :: k) = true)
    (h : deselectedAtCalls (lineOf s.params .csN s.ctrl) (.prim p :: k) = true) :
    DeselectedWhereAsked (runPrim p k s) := by
  obtain ⟨hask, hk⟩ := deselectedAtCalls_cons.1 h
  cases p with
  | setRead l v => exact settle_deselectedWhereAsked h
  | setWrite l v r =>
    obtain rfl : r = s.ctrl := by simpa [pendingWriteCurrent] using hw
    refine settle_deselectedWhereAsked ?_
    rw [ctrlWrite_params, ctrlWrite_ctrl, lineOf_setLine]
    simpa only [csNAfter, csNAfterPrim, eq_comm] using hk
  | dataRead => exact settle_deselectedWhereAsked (s := ctrlRead s) h
  | dirRead =>
    simp only [runPrim]
    split
    · exact settle_deselectedWhereAsked (s := ctrlRead s) hk
    · exact settle_deselectedWhereAsked (s := ctrlRead s) h
  | pollTime sop mask =>
    have hc : lineOf s.params .csN s.ctrl = true := hask rfl
    simp only [runPrim]
    split
    · exact settle_deselectedWhereAsked hk
    · refine settle_deselectedWhereAsked (s := now s) ?_
      simp only [csNAfter, csNAfterPrim, hc] at hk
      simpa [pollCode, deselectedAtCalls, asksDeselected, csNAfter, hc] using hk
  | respond r => exact hask rfl
  | _ => exact settle_deselectedWhereAsked hk

@[simp] theorem runPrim_req (p : Prim) (k : List Micro) (s : State) : (runPrim p k s).req = s.req := by
  cases p with
  | dirRead => simp only [runPrim]; split <;> simp
  | pollTime sop mask => simp only [runPrim]; split <;> simp
  | _ => simp [runPrim]

/-- CLOSE runs its own pseudocode to the end, and ends with LIFE = CLOSED (45_facade.md R222). -/
theorem runPrim_bracketed_of_close {p : Prim} {k : List Micro} {s : State} (hop : s.req.op = tagClose)
    (hc : closePhase s) (hp : s.phase = .prim p :: k) : Bracketed (runPrim p k s) := by
  obtain hc | ⟨hc, hlife⟩ | hc := hc <;> rw [hp] at hc <;> cases hc
  · exact ⟨nofun, fun _ => .inr (.inl ⟨rfl, rfl⟩), fun _ h => absurd hop h⟩
  · exact ⟨fun _ h => (nomatch hlife.symm.trans h), fun _ => .inr (.inr rfl), fun _ h => absurd hop h⟩

/-- A primitive keeps the bracketing: in CLOSE by its own phase, in any other operation by what the phase asks. -/
theorem runPrim_bracketed {p : Prim} {k : List Micro} {s : State} (hw : pendingWriteCurrent s.ctrl s.phase = true)
    (hb : Bracketed s) (hp : s.phase = .prim p :: k) : Bracketed (runPrim p k s) := by
  by_cases hop : s.req.op = tagClose
  · obtain ⟨-, hclose, -⟩ := hb
    exact runPrim_bracketed_of_close hop (hclose hop) hp
  · rw [hp] at hw
    exact (runPrim_deselectedWhereAsked hw (hb.deselected_of_phase hop hp)).bracketed (by simpa using hop)

/-- Settling leaves a bracketed state as it is in IDLE and in CLOSE, and any other operation deselected where asked. -/
theorem settle_bracketed {s : State} (hb : Bracketed s) : Bracketed (settle s.phase s) := by
  have ⟨_, hclose, hphase⟩ := hb
  have hstays : ∀ k, s.phase = k → settle k s = { s with phase := k } → Bracketed (settle s.phase s) := by
    rintro _ rfl h
    rw [h]
    exact hb
  by_cases hop : s.req.op = tagClose
  · obtain hc | ⟨hc, -⟩ | hc := hclose hop <;> exact hstays _ hc rfl
  · by_cases hp : s.phase = []
    · exact hstays [] hp rfl
    · exact (settle_deselectedWhereAsked (hphase hp hop)).bracketed (by simpa using hop)

/-! ### Acceptance (45_facade.md R220) -/

theorem decodeRequest_of_encode {i : Instr} {q : Request} (he : encode i = .hostReq q) : decodeRequest q = i := by
  cases i <;> cases he <;> rfl

theorem decodeRequest_of_open {q : Request} (hop : q.op = tagOpen) : decodeRequest q = .hostOpen := if_pos hop

theorem decodeRequest_of_close {q : Request} (hop : q.op = tagClose) : decodeRequest q = .hostClose := by
  rw [decodeRequest, hop]
  rfl

/-- A data operation is accepted in an open block only, whose device is deselected; OPEN and CLOSE in any. -/
theorem accepted_bracketed {i : Instr} {q : Request} {s : State} (he : encode i = .hostReq q)
    (ha : acceptFault q s = none) (hcs : s.life = .opened → lineOf s.params .csN s.ctrl = true) :
    Bracketed (settle (operationCode i) { emit (.req q) s with req := q }) := by
  obtain ⟨-, -, hlife, -⟩ := acceptFault_eq_none.1 ha
  obtain rfl := decodeRequest_of_encode he
  by_cases hclose : q.op = tagClose
  · rw [decodeRequest_of_close hclose]
    exact ⟨nofun, fun _ => .inl rfl, fun _ h => absurd hclose h⟩
  · have hstart : decodeRequest q = .hostOpen ∨ lineOf s.params .csN s.ctrl = true := by
      refine hlife.imp (fun hl => decodeRequest_of_open ?_) hcs
      simpa [isLifecycle, hclose] using hl
    exact (settle_deselectedWhereAsked (s := { emit (.req q) s with req := q })
      (deselectedAtCalls_operationCode _ hstart)).bracketed (by simpa using hclose)

/-- Settles O55: by the forms of a step. A called frame starts and ends deselected, an operation other than OPEN and
CLOSE is accepted deselected, and a primitive and settling move CS_N as the phase says. -/
theorem everyStepKeepsBracketing : Obligations.EveryStepKeepsBracketing := by
  rintro s t ⟨hw, -⟩ hb h
  have ⟨hidle, _, _⟩ := hb
  cases (step_stepped h).2 with
  | @faulted i x q r hi =>
    obtain ⟨q', -, -, rfl⟩ | ⟨-, hp⟩ := hi
    · exact hb
    · obtain ⟨hop, hcs, hx⟩ := hb.of_frame hp
      refine DeselectedWhereAsked.bracketed ?_ hop
      exact (congrArg (deselectedAtCalls · x) hcs).trans hx
  | @accepted i x q hi he ha =>
    refine accepted_bracketed he ha ?_
    obtain ⟨q', -, -, rfl⟩ | ⟨-, hp⟩ := hi
    · obtain ⟨hp, -⟩ := acceptFault_eq_none.1 ha
      exact hidle hp
    · obtain ⟨-, hcs, -⟩ := hb.of_frame hp
      exact fun _ => hcs
  | @called i x f v c ho hp he hc =>
    obtain ⟨hop, -, hx⟩ := hb.of_frame hp
    refine (runPrim_deselectedWhereAsked rfl ?_).bracketed hop
    rw [← List.cons_append, ← hc, deselectedAtCalls_frameCode he]
    exact hx
  | primitive ho hp => exact runPrim_bracketed (s := { s with host := hostNext s }) hw hb hp
  | settled => exact settle_bracketed (s := { s with host := hostNext s }) hb

/-- Settles O56: of the forms of a step only the `respond` primitive appends a response, and the phase asks CS_N = 1
there. -/
theorem respondsWithDeviceDeselected : Obligations.RespondsWithDeviceDeselected := by
  intro s t r hb hop h ht
  cases (step_stepped h).2 with
  | faulted => simp at ht
  | accepted => simp at ht
  | called => simp [primEvent] at ht
  | @primitive p k ho hp =>
    cases p with
    | respond reply =>
      obtain ⟨hask, -⟩ := deselectedAtCalls_cons.1 (hb.deselected_of_phase hop hp)
      exact ⟨hask rfl, rfl⟩
    | _ => simp [primEvent] at ht
  | settled => simp at ht

/-! ### The call of a frame, its accesses and its capture mode (R170 to R175, R178) -/

/-- Settles O18: the first primitive of every frame is the read half of a `setBit`. -/
theorem frameCallChangesOnlyTraceAndPhase : Obligations.FrameCallChangesOnlyTraceAndPhase := by
  intro i f s hf he
  obtain ⟨v, c, hc⟩ := frameCode_head he
  refine ⟨runPrim (.setRead .csN v) (c ++ s.phase) s, ?_, rfl⟩
  rw [exec_of_wireFrame he, hc]
  exact callFrame_prim hf _ _ s.phase

/-- Settles O30: the accesses are the totals of the frame on the wire, and its last lines give CAP. -/
theorem frameCountsAndCapture : Obligations.FrameCountsAndCapture := by
  intro i f k s hf hs he
  obtain ⟨u, t, es, bs, hexec, hreach, hdid, -, -, hends⟩ := exec_carriesFrame he ⟨hf, hs⟩ k
  exact ⟨u, t, es, hexec, hreach, hdid.trace, ⟨hdid.reads, hdid.writes⟩, hends.cap⟩

end Sys2Proof.Machine
end

section
/-!
The waits of 44_busy_poll.md: the flag test and the time read after a poll, and for the loop of the pseudocode what one
poll of it decides, the times it reads, and when it ends.
-/

namespace Sys2Proof.Machine

/-! ### The flag test (R200) -/

theorem flagClear_iff {pstat mask : Byte} : flagClear pstat mask = true ↔ pstat &&& mask = 0x00#8 := by
  simp [flagClear]

theorem settle_test_of_clear {sop mask : Byte} {s : State} (h : flagClear s.pstat mask = true) (k : List Micro) :
    settle (.test sop mask :: k) s = settle k { s with wres := .ok } := by
  rw [settle, if_pos h]

theorem settle_test_of_set {sop mask : Byte} {s : State} (h : flagClear s.pstat mask = false) (k : List Micro) :
    settle (.test sop mask :: k) s = settle (.prim (.pollTime sop mask) :: k) s := by
  simp only [settle, h, Bool.false_eq_true, if_false]

/-- Where the flag is set, the next step reads the time. -/
theorem step_test_of_set {sop mask : Byte} {s : State} (hq : Quiet s) (h : flagClear s.pstat mask = false)
    (k : List Micro) : step (settle (.test sop mask :: k) s) = .next (runPrim (.pollTime sop mask) k s) := by
  rw [settle_test_of_set h]
  exact step_settle_prim hq _ k

/-- Settles O31: a clear flag settles on the spot, a set one puts the time read next, whose two ends are `runPrim`'s. -/
theorem pollTestsThenReadsTime : Obligations.PollTestsThenReadsTime := by
  intro sop mask k s hf hs
  refine ⟨fun hclear => settle_test_of_clear (flagClear_iff.2 hclear) k, fun hset => ?_⟩
  have hflag : flagClear s.pstat mask = false := Bool.eq_false_iff.2 (mt flagClear_iff.1 hset)
  simp only [stepN, step_test_of_set ⟨hf, hs⟩ hflag, runPrim]

/-! ### One turn of the loop (R200) -/

/-- From the start of a poll the machine comes to the flag test with the poll of the pseudocode done. -/
theorem reaches_test {s : State} (hq : Quiet s) (sop mask : Byte) (k : List Micro) :
    Quiet (refPoll sop s) ∧
      Reaches (settle (pollCode sop mask ++ k) s) (settle (.test sop mask :: k) (refPoll sop s)) :=
  RunsTo.poll sop (.test sop mask :: k) s hq

theorem Quiet.now {s : State} (hq : Quiet s) : Quiet (Machine.now s) := hq

/-- A wait that finds the flag set and the time past DEADLINE goes on to what follows it, with TIMEOUT. -/
theorem reaches_of_late {s : State} (hq : Quiet s) {sop mask : Byte} (h : flagClear s.pstat mask = false)
    (hlate : nowAnswer s > s.deadline) (k : List Micro) :
    Reaches (settle (.test sop mask :: k) s) (settle k { now s with wres := .timeout }) :=
  Reaches.head (step_test_of_set hq h k) (by rw [runPrim, if_pos hlate]; exact .refl _)

/-- A wait that finds the flag set and the time not past DEADLINE polls again. -/
theorem reaches_of_early {s : State} (hq : Quiet s) {sop mask : Byte} (h : flagClear s.pstat mask = false)
    (hearly : nowAnswer s ≤ s.deadline) (k : List Micro) :
    Reaches (settle (.test sop mask :: k) s) (settle (pollCode sop mask ++ k) (now s)) :=
  Reaches.head (step_test_of_set hq h k) (by rw [runPrim, if_neg (Nat.not_lt.2 hearly)]; exact .refl _)

/-- What the first poll of the pseudocode's loop decides: OK, TIMEOUT, or the rest of the loop. -/
theorem refWaitLoop_succ_cases (sop mask : Byte) (polls : Nat) (s : State) :
    (flagClear (refPoll sop s).pstat mask = true ∧
      refWaitLoop sop mask (polls + 1) s = some { refPoll sop s with wres := .ok }) ∨
    (flagClear (refPoll sop s).pstat mask = false ∧ nowAnswer (refPoll sop s) > (refPoll sop s).deadline ∧
      refWaitLoop sop mask (polls + 1) s = some { now (refPoll sop s) with wres := .timeout }) ∨
    (flagClear (refPoll sop s).pstat mask = false ∧ nowAnswer (refPoll sop s) ≤ (refPoll sop s).deadline ∧
      refWaitLoop sop mask (polls + 1) s = refWaitLoop sop mask polls (now (refPoll sop s))) := by
  simp only [refWaitLoop]
  cases hflag : flagClear (refPoll sop s).pstat mask with
  | true => exact .inl ⟨rfl, rfl⟩
  | false =>
    by_cases hlate : nowAnswer (refPoll sop s) > (refPoll sop s).deadline
    · exact .inr (.inl ⟨rfl, hlate, by simp [hlate]⟩)
    · exact .inr (.inr ⟨rfl, Nat.not_lt.1 hlate, by simp [hlate]⟩)

/-! ### The machine's wait and the pseudocode's (R200, R201) -/

theorem refWaitLoop_reaches {sop mask : Byte} {polls : Nat} {s t : State} (hq : Quiet s)
    (h : refWaitLoop sop mask polls s = some t) (k : List Micro) :
    Reaches (settle (pollCode sop mask ++ k) s) (settle k t) := by
  induction polls generalizing s with
  | zero => cases h
  | succ polls ih =>
    obtain ⟨hp, hpoll⟩ := reaches_test hq sop mask k
    refine hpoll.trans ?_
    obtain ⟨hclear, he⟩ | ⟨hset, hlate, he⟩ | ⟨hset, hearly, he⟩ := refWaitLoop_succ_cases sop mask polls s <;>
      rw [he] at h
    · cases h
      rw [settle_test_of_clear hclear]
      exact .refl _
    · cases h
      exact reaches_of_late hp hset hlate k
    · exact (reaches_of_early hp hset hearly k).trans (ih hp.now h)

/-- The times `ts` a loop with deadline `d` read before it ended in `t` with TIMEOUT, only the last past the deadline, or
with OK, none past it (R200, R203). -/
def LoopTimes (d : Nat) (mask : Byte) (t : State) (ts : List Nat) : Prop :=
  (t.wres = .timeout ∧ ∃ before last, ts = before ++ [last] ∧ last > d ∧ ∀ x ∈ before, x ≤ d) ∨
    (t.wres = .ok ∧ t.pstat &&& mask = 0x00#8 ∧ ∀ x ∈ ts, x ≤ d)

theorem LoopTimes.cons {d x : Nat} {mask : Byte} {t : State} {ts : List Nat} (hx : x ≤ d)
    (h : LoopTimes d mask t ts) : LoopTimes d mask t (x :: ts) := by
  obtain ⟨hw, before, last, rfl, hlast, hbefore⟩ | ⟨hw, hclear, hts⟩ := h
  · exact .inl ⟨hw, x :: before, last, rfl, hlast, List.forall_mem_cons.2 ⟨hx, hbefore⟩⟩
  · exact .inr ⟨hw, hclear, List.forall_mem_cons.2 ⟨hx, hts⟩⟩

/-- What the loop did until it ended: DEADLINE is kept, and the times read are `LoopTimes`. -/
theorem refWaitLoop_saw {sop mask : Byte} {polls : Nat} {s t : State} (h : refWaitLoop sop mask polls s = some t) :
    ∃ es bits ts, Saw s t es bits ts ∧ t.deadline = s.deadline ∧ LoopTimes s.deadline mask t ts := by
  induction polls generalizing s with
  | zero => cases h
  | succ polls ih =>
    obtain ⟨es, hpoll, -, -, hd, -⟩ := Saw.poll sop s
    obtain ⟨hclear, he⟩ | ⟨-, hlate, he⟩ | ⟨-, hearly, he⟩ := refWaitLoop_succ_cases sop mask polls s <;>
      rw [he] at h
    · cases h
      exact ⟨_, _, _, hpoll.trans (Saw.setWres _ .ok), hd, .inr ⟨rfl, flagClear_iff.1 hclear, by simp⟩⟩
    · cases h
      exact ⟨_, _, _, hpoll.trans (Saw.timedOut _ .timeout), hd, .inl ⟨rfl, [], _, rfl, hd ▸ hlate, by simp⟩⟩
    · obtain ⟨es', bits, ts, hrest, hd', hts⟩ := ih h
      rw [now_deadline, hd] at hd' hts
      exact ⟨_, _, _, (hpoll.trans (Saw.timedOut _ (refPoll sop s).wres)).trans hrest, hd', hts.cons (hd ▸ hearly)⟩

/-- A wait that ended read the time at its entry, set DEADLINE from it, and ran its loop. -/
theorem refWait_saw {polls : Nat} {w : WaitForm} {s t : State} (h : refWait polls w s = some t) :
    ∃ es bits ts, Saw s t es bits (nowAnswer s :: ts) ∧ t.deadline = nowAnswer s + w.ms ∧
      LoopTimes (nowAnswer s + w.ms) w.mask t ts := by
  obtain ⟨es, bits, ts, hloop, hd, hts⟩ := refWaitLoop_saw h
  exact ⟨_, _, ts, (Saw.entry s (nowAnswer s + w.ms)).trans hloop, hd, hts⟩

/-- Settles O32: the entry's time read is a step, and the loop follows by induction on the number of polls. -/
theorem waitFollowsItsPseudocode : Obligations.WaitFollowsItsPseudocode := by
  intro polls w k s t hf hs h
  obtain ⟨hq, hentry⟩ := RunsTo.waitEntry w.ms (pollCode w.sop w.mask ++ k) s ⟨hf, hs⟩
  obtain ⟨es, bits, ts, hsaw, -, -⟩ := refWait_saw h
  exact ⟨hentry.trans (refWaitLoop_reaches hq h k), hsaw.moved⟩

/-- Settles O33: the times of the wait are the entry's and then those of its loop. -/
theorem timeoutAtTheFirstTimePastTheDeadline : Obligations.TimeoutAtTheFirstTimePastTheDeadline := by
  intro polls w s t h
  obtain ⟨es, bits, ts, hsaw, hd, hts⟩ := refWait_saw h
  refine ⟨es, nowAnswer s, ts, hsaw.trace, hsaw.times, hd, fun hw => ?_, fun hw => ?_⟩ <;>
    obtain ⟨hw', hlast⟩ | ⟨hw', hnone⟩ := hts
  · exact hlast
  · cases hw.symm.trans hw'
  · cases hw.symm.trans hw'
  · exact hnone

/-! ### A wait ends (R205) -/

@[simp] theorem refPoll_time (sop : Byte) (s : State) : (refPoll sop s).time = s.time := by
  obtain ⟨_, _, _, h, _⟩ := Saw.poll sop s
  exact h

@[simp] theorem refPoll_deadline (sop : Byte) (s : State) : (refPoll sop s).deadline = s.deadline := by
  obtain ⟨_, _, _, _, h, _⟩ := Saw.poll sop s
  exact h

theorem nowAnswer_of_advance {s : State} {a : Nat} {as : List Nat} (h : s.time.advances = a :: as) :
    nowAnswer s = s.time.last + a := by
  rw [nowAnswer, h]

/-- A loop whose coming advances pass DEADLINE makes at most one poll for each of them. -/
theorem refWaitLoop_ends_of_advances {sop mask : Byte} {s : State} {advances later : List Nat}
    (ha : s.time.advances = advances ++ later) (hlast : s.time.last ≤ s.deadline)
    (hsum : s.time.last + advances.sum > s.deadline) : ∃ t, refWaitLoop sop mask advances.length s = some t := by
  induction advances generalizing s with
  | nil => simp at hsum; omega
  | cons a as ih =>
    obtain ⟨-, he⟩ | ⟨-, -, he⟩ | ⟨-, hearly, he⟩ := refWaitLoop_succ_cases sop mask as.length s
    · exact ⟨_, he⟩
    · exact ⟨_, he⟩
    · have hnow : nowAnswer (refPoll sop s) = s.time.last + a := by
        rw [nowAnswer_of_advance (by rw [refPoll_time]; exact ha), refPoll_time]
      rw [hnow, refPoll_deadline] at hearly
      rw [List.sum_cons] at hsum
      rw [List.length_cons, he]
      refine ih ?_ ?_ ?_
      · simp [ha]
      · simpa [hnow] using hearly
      · simp only [now_time, now_deadline, refPoll_deadline, hnow]
        omega

/-- Settles O34: the entry takes the first advance, and the others add up to more than `ms`. -/
theorem waitEndsWhenTimePassesTheDeadline : Obligations.WaitEndsWhenTimePassesTheDeadline := by
  intro w s a advances later ha hsum
  exact refWaitLoop_ends_of_advances (s := { now s with deadline := nowAnswer s + w.ms }) (later := later)
    (by simp [ha]) (Nat.le_add_right _ _) (Nat.add_lt_add_left hsum _)

/-- A device that answers any bytes and then one with the flag clear ends the loop at that byte at the latest. -/
theorem refWaitLoop_ends_of_answers {sop mask last : Byte} {later busyBytes : List Byte} {s : State}
    (hd : s.device = .scripted (deviceAnswers (busyBytes ++ [last]) ++ later)) (hlast : last &&& mask = 0x00#8) :
    ∃ t, refWaitLoop sop mask (busyBytes.length + 1) s = some t := by
  induction busyBytes generalizing s with
  | nil =>
    obtain ⟨-, hpstat⟩ := refPoll_scripted sop hd
    obtain ⟨-, he⟩ | ⟨-, -, he⟩ | ⟨hset, -, -⟩ := refWaitLoop_succ_cases sop mask 0 s
    · exact ⟨_, he⟩
    · exact ⟨_, he⟩
    · rw [hpstat, flagClear_iff.2 hlast] at hset
      cases hset
  | cons v vs ih =>
    have hv : s.device = .scripted (deviceAnswers [v] ++ (deviceAnswers (vs ++ [last]) ++ later)) := by
      rw [hd]
      simp [deviceAnswers]
    obtain ⟨hdev, -⟩ := refPoll_scripted sop hv
    obtain ⟨-, he⟩ | ⟨-, -, he⟩ | ⟨-, -, he⟩ := refWaitLoop_succ_cases sop mask (vs.length + 1) s
    · exact ⟨_, he⟩
    · exact ⟨_, he⟩
    · rw [List.length_cons, he]
      exact ih (s := now (refPoll sop s)) hdev

/-- Settles O35: the entry reads the time only, and the loop ends by induction on the bytes answered. -/
theorem waitEndsWhenTheFlagClears : Obligations.WaitEndsWhenTheFlagClears := by
  intro w s busyBytes later last hd hlast
  exact refWaitLoop_ends_of_answers (s := { now s with deadline := nowAnswer s + w.ms }) hd hlast

end Sys2Proof.Machine
end

section
/-!
Endless runs and responses (44_busy_poll.md R205, 45_facade.md R229): an operation's code is items that run to the next
item without a response, flag tests whose loop the fairness of time ends, and a response; so a fair run that comes to it
comes to the response.
-/

namespace Sys2Proof.Machine

/-! ### Runs -/

/-- The run comes to the state `u`. -/
def Visits (run : Nat → State) (u : State) : Prop := ∃ n, run n = u

theorem IsRun.stepN {run : Nat → State} (hrun : IsRun run) (m n : Nat) :
    Machine.stepN m (run n) = .next (run (n + m)) := by
  induction m generalizing n with
  | zero => rfl
  | succ m ih => rw [Machine.stepN, hrun n]; exact (ih (n + 1)).trans (by rw [Nat.add_right_comm, Nat.add_assoc])

/-- A run that comes to a state comes to all it leads to: a step has one next state. -/
theorem Visits.reaches {run : Nat → State} {u v : State} (hrun : IsRun run) (h : Visits run u) (huv : Reaches u v) :
    Visits run v := by
  obtain ⟨n, rfl⟩ := h
  obtain ⟨m, hm⟩ := huv
  exact ⟨n + m, Host.Outcome.next.inj ((hrun.stepN m n).symm.trans hm)⟩

/-- No step takes the time source's last answer back (10_state.md R41). -/
theorem step_time_last_le {s t : State} (h : step s = .next t) : s.time.last ≤ t.time.last := by
  obtain ⟨-, ht⟩ := step_stepped h
  cases ht with
  | faulted => exact le_rfl
  | accepted => simp
  | called => simp [runPrim]
  | @primitive p k ho hp =>
    obtain ⟨-, htime⟩ | ⟨-, hlast⟩ := runPrim_time p k { s with host := hostNext s }
    · rw [htime]
    · rw [hlast]; exact last_le_nowAnswer _
  | settled => simp

theorem IsRun.time_last_mono {run : Nat → State} (hrun : IsRun run) : Monotone fun n => (run n).time.last :=
  monotone_nat_of_le_succ fun n => step_time_last_le (hrun n)

/-- How many times have been read is monotone along a run, because TRACE only grows. -/
theorem IsRun.timeReads_length_mono {run : Nat → State} (hrun : IsRun run) :
    Monotone fun n => (timeReads (run n).trace).length :=
  monotone_nat_of_le_succ fun n => by
    obtain ⟨es, hes⟩ := (stepsExtendTheTrace (run n) (run (n + 1)) (hrun n)).2
    simp [← hes]

/-- A fair run does not read the time again and again without the time ever passing `d`. -/
theorem TimeUnbounded.not_bounded {run : Nat → State} (hfair : TimeUnbounded run) (hrun : IsRun run) (d : Nat) :
    ¬ ∀ j, ∃ n, j ≤ (timeReads (run n).trace).length ∧ (run n).time.last ≤ d := by
  intro h
  obtain ⟨n, hn⟩ := hfair (fun j => (h j).imp fun _ hj => hj.1) d
  obtain ⟨m, hreads, hlast⟩ := h ((timeReads (run n).trace).length + 1)
  obtain hle | hle := le_total n m
  · exact absurd (hrun.time_last_mono hle) (by simp only; omega)
  · exact absurd (hrun.timeReads_length_mono hle) (by simp only; omega)

/-! ### No response -/

/-- From `s` to `t` the block gave no response. -/
def Unanswered (s t : State) : Prop := ∃ es, t.trace = s.trace ++ es ∧ responses es = []

theorem Unanswered.of_trace_eq {s t : State} (h : t.trace = s.trace) : Unanswered s t := ⟨[], by simp [h], rfl⟩

theorem Unanswered.trans {s t u : State} : Unanswered s t → Unanswered t u → Unanswered s u
  | ⟨es, hs, hes⟩, ⟨fs, ht, hfs⟩ =>
    ⟨es ++ fs, by rw [ht, hs, List.append_assoc], by rw [responses_append, hes, hfs]; rfl⟩

theorem Saw.unanswered {s t : State} {es : List Event} {sent : List Bool} {times : List Nat}
    (h : Saw s t es sent times) : Unanswered s t := ⟨es, h.trace, h.noReply⟩

/-- What the run makes of `s`: events without a response, one response, and an idle block without a fault (R229). -/
def Answered (run : Nat → State) (s : State) : Prop :=
  ∃ n es r, Ready (run n) ∧ (run n).trace = s.trace ++ (es ++ [.rsp r]) ∧ responses es = []

theorem Answered.of_unanswered {run : Nat → State} {s t : State} (h : Unanswered s t) (ht : Answered run t) :
    Answered run s := by
  obtain ⟨es, hs, hes⟩ := h
  obtain ⟨n, fs, r, hr, htr, hfs⟩ := ht
  exact ⟨n, es ++ fs, r, hr, by rw [htr, hs]; simp, by rw [responses_append, hes, hfs]; rfl⟩

/-! ### Polling again -/

/-- From the flag test of a wait to that of a later poll: DEADLINE is the same, more times have been read, none of them
past DEADLINE, and there was no response. -/
structure Repolled (u v : State) : Prop where
  quiet : Quiet v
  unanswered : Unanswered u v
  deadline : v.deadline = u.deadline
  last : v.time.last ≤ u.deadline
  reads : (timeReads u.trace).length < (timeReads v.trace).length

theorem Repolled.trans {u v w : State} (h : Repolled u v) (g : Repolled v w) : Repolled u w where
  quiet := g.quiet
  unanswered := h.unanswered.trans g.unanswered
  deadline := g.deadline.trans h.deadline
  last := h.deadline ▸ g.last
  reads := h.reads.trans g.reads

/-- The time read that finds DEADLINE not passed, and the poll after it. -/
theorem repolled_of_early {s : State} (hq : Quiet s) (sop : Byte) (hearly : nowAnswer s ≤ s.deadline) :
    Repolled s (refPoll sop (now s)) := by
  obtain ⟨es, hpoll, -⟩ := Saw.poll sop (now s)
  have hsaw := (Saw.timedOut s s.wres).trans hpoll
  refine ⟨(reaches_test hq.now sop 0 []).1, hsaw.unanswered, by simp, by simpa using hearly, ?_⟩
  rw [hsaw.trace, timeReads_append, hsaw.times]
  simp

/-! ### Code from which a run always answers -/

/-- Wherever the run comes to the code `k`, it comes to one response with none before it. -/
def AlwaysAnswers (run : Nat → State) (k : List Micro) : Prop :=
  ∀ s, Quiet s → Visits run (settle k s) → Answered run s

section
variable {run : Nat → State} {k : List Micro} (hrun : IsRun run)
include hrun

theorem alwaysAnswers_respond (r : Reply) (k : List Micro) : AlwaysAnswers run (.prim (.respond r) :: k) := by
  intro s hq hv
  obtain ⟨n, hn⟩ := hv.reaches hrun (Reaches.head (step_settle_prim hq (.respond r) k) (.refl _))
  refine ⟨n, [], replyOf s r, ?_, ?_, rfl⟩
  · rw [hn]; exact ⟨hq.1, rfl⟩
  · rw [hn]; rfl

/-- Code that runs to its end without a response, before code from which the run always answers. -/
theorem AlwaysAnswers.after {c : List Micro} {f : State → State} (hk : AlwaysAnswers run k) (hc : RunsTo c f)
    (hf : ∀ s, Unanswered s (f s)) : AlwaysAnswers run (c ++ k) := by
  intro s hq hv
  obtain ⟨hq', hreach⟩ := hc k s hq
  exact .of_unanswered (hf s) (hk _ hq' (hv.reaches hrun hreach))

/-- The caller's test of a wait's result responds TIMEOUT or goes on (45_facade.md R224, R226, R227). -/
theorem AlwaysAnswers.abortIfTimeout (hk : AlwaysAnswers run k) : AlwaysAnswers run (.abortIfTimeout :: k) := by
  intro s hq hv
  by_cases hw : s.wres = .timeout
  · exact alwaysAnswers_respond hrun .timeout [] s hq (by simpa only [settle, if_pos hw] using hv)
  · exact hk s hq (by simpa only [settle, if_neg hw] using hv)

/-- At the flag test of a wait the run answers, or it comes to the flag test of the next poll. -/
theorem AlwaysAnswers.repolls {sop mask : Byte} {s : State} (hk : AlwaysAnswers run k) (hq : Quiet s)
    (hv : Visits run (settle (.test sop mask :: k) s)) (hno : ¬ Answered run s) :
    ∃ u, Repolled s u ∧ Visits run (settle (.test sop mask :: k) u) := by
  cases hflag : flagClear s.pstat mask with
  | true =>
    rw [settle_test_of_clear hflag] at hv
    exact absurd (hk { s with wres := .ok } hq hv) hno
  | false =>
    by_cases hlate : nowAnswer s > s.deadline
    · have hout := hk { now s with wres := .timeout } hq (hv.reaches hrun (reaches_of_late hq hflag hlate k))
      exact absurd (hout.of_unanswered (Saw.timedOut s .timeout).unanswered) hno
    · have hearly := Nat.not_lt.1 hlate
      have hreach := (reaches_of_early hq hflag hearly k).trans (reaches_test hq.now sop mask k).2
      exact ⟨_, repolled_of_early hq sop hearly, hv.reaches hrun hreach⟩

/-- A wait's loop that is never answered polls for ever, and reads as many times as one likes up to its DEADLINE. -/
theorem AlwaysAnswers.repolls_forever {sop mask : Byte} {s : State} (hk : AlwaysAnswers run k) (hq : Quiet s)
    (hv : Visits run (settle (.test sop mask :: k) s)) (hno : ¬ Answered run s) (j : Nat) :
    ∃ u, Repolled s u ∧ j ≤ (timeReads u.trace).length ∧ Visits run (settle (.test sop mask :: k) u) := by
  induction j with
  | zero =>
    obtain ⟨u, hu, hvu⟩ := hk.repolls hrun hq hv hno
    exact ⟨u, hu, Nat.zero_le _, hvu⟩
  | succ j ih =>
    obtain ⟨u, hu, hj, hvu⟩ := ih
    obtain ⟨w, hw, hvw⟩ := hk.repolls hrun hu.quiet hvu fun h => hno (h.of_unanswered hu.unanswered)
    exact ⟨w, hu.trans hw, hj.trans_lt hw.reads, hvw⟩

/-- Under the fairness of time every wait's loop ends (R205). -/
theorem AlwaysAnswers.test (hfair : TimeUnbounded run) (sop mask : Byte) (hk : AlwaysAnswers run k) :
    AlwaysAnswers run (.test sop mask :: k) := by
  intro s hq hv
  by_contra hno
  refine hfair.not_bounded hrun s.deadline fun j => ?_
  obtain ⟨u, hu, hj, n, hn⟩ := hk.repolls_forever hrun hq hv hno j
  exact ⟨n, by simpa [hn] using hj, by simpa [hn] using hu.last⟩

end

/-! ### The code of an operation -/

theorem unanswered_refSetBit (l : Line) (v : Bool) (s : State) : Unanswered s (refSetBit l v s) :=
  ⟨[.cr s.ctrl, .cw (setLine s.params l v s.ctrl)], by simp [refSetBit], rfl⟩

/-- The call of a wire command runs its frame, which holds no response. -/
theorem runsTo_frame_unanswered {i : Instr} {f : Frame} (he : encode i = .wireFrame f) :
    ∃ g, RunsTo [.frame i] g ∧ ∀ s, Unanswered s (g s) := by
  obtain ⟨g, hruns, hcarries⟩ := frameCode_carriesFrame he
  refine ⟨g, hruns.runsTo_call (exec_of_wireFrame he), fun s => ?_⟩
  obtain ⟨es, bs, hc⟩ := hcarries s
  exact hc.did.saw.unanswered

/-- The item is a response. -/
def isRespond : Micro → Bool
  | .prim (.respond _) => true
  | _ => false

/-- An item of an operation's code is a flag test, the test of a wait's result, a response, or runs on without a
response. -/
theorem operationItem_cases {m : Micro} (hm : isOperationItem m = true) :
    (∃ sop mask, m = .test sop mask) ∨ m = .abortIfTimeout ∨ (∃ r, m = .prim (.respond r)) ∨
      (isRespond m = false ∧ ∃ f, RunsTo [m] f ∧ ∀ s, Unanswered s (f s)) := by
  cases m with
  | test sop mask => exact .inl ⟨sop, mask, rfl⟩
  | abortIfTimeout => exact .inr (.inl rfl)
  | assign a => exact .inr (.inr (.inr ⟨rfl, _, .assign a, fun s => .of_trace_eq (applyAssign_trace s a)⟩))
  | prim p =>
    cases p with
    | respond r => exact .inr (.inr (.inl ⟨r, rfl⟩))
    | setRead l v => exact .inr (.inr (.inr ⟨rfl, _, .setBit l v, unanswered_refSetBit l v⟩))
    | enWrite v => exact .inr (.inr (.inr ⟨rfl, _, .enWrite v, fun s => ⟨[.ew v], rfl, rfl⟩⟩))
    | waitEntry ms => exact .inr (.inr (.inr ⟨rfl, _, .waitEntry ms, fun s => (Saw.entry s _).unanswered⟩))
    | _ => cases hm
  | frame i =>
    obtain ⟨f, he⟩ : ∃ f, encode i = .wireFrame f := by
      cases i with
      | opWren | opRdsr | opRfsr | callerOpcode => exact ⟨_, rfl⟩
      | _ => cases hm
    exact .inr (.inr (.inr ⟨rfl, runsTo_frame_unanswered he⟩))

/-- From code made of operation items with a response among them a fair run always answers. -/
theorem alwaysAnswers_of_items {run : Nat → State} (hrun : IsRun run) (hfair : TimeUnbounded run) {k : List Micro}
    (hitems : k.all isOperationItem = true) (hreply : k.any isRespond = true) : AlwaysAnswers run k := by
  induction k with
  | nil => cases hreply
  | cons m k ih =>
    rw [List.all_cons, Bool.and_eq_true] at hitems
    obtain ⟨hm, hitems⟩ := hitems
    rw [List.any_cons] at hreply
    obtain ⟨sop, mask, rfl⟩ | rfl | ⟨r, rfl⟩ | ⟨hno, f, hruns, hf⟩ := operationItem_cases hm
    · exact (ih hitems hreply).test hrun hfair sop mask
    · exact (ih hitems hreply).abortIfTimeout hrun
    · exact alwaysAnswers_respond hrun r k
    · rw [hno] at hreply
      exact (ih hitems hreply).after hrun hruns hf

/-- An operation that can be accepted has a response in its code (R221 to R227). -/
theorem operationCode_any_isRespond {i : Instr} {q : Request} {s : State} (he : encode i = .hostReq q)
    (ha : acceptFault q s = none) : (operationCode i).any isRespond = true := by
  obtain ⟨-, hop, -⟩ := acceptFault_eq_none.1 ha
  cases i with
  | reserved => cases he; exact absurd rfl hop
  | opWren | opRdsr | opRfsr | callerOpcode => cases he
  | _ => rfl

/-- Settles O42: the accepted operation's code is operation items with a response among them. -/
theorem everyOperationResponds : Obligations.EveryOperationResponds := by
  intro i q s run hready hs he ha hexec hrun hfair
  rw [exec_of_hostReq he] at hexec
  obtain ⟨-, ⟨r, hr, -⟩ | ⟨-, hzero⟩⟩ := accept_cases hexec
  · rw [ha] at hr; cases hr
  · have hanswers := alwaysAnswers_of_items hrun hfair (operationCode_items i) (operationCode_any_isRespond he ha)
    obtain ⟨n, es, r, hn, htrace, hes⟩ := hanswers { emit (.req q) s with req := q } ⟨hready.1, hs⟩ ⟨0, hzero⟩
    exact ⟨n, es, r, hn, by rw [htrace]; simp, hes⟩

end Sys2Proof.Machine
end

section
/-!
One response for each request (45_facade.md R229): the phase of an operation in progress keeps its response at its end
through settling and through every primitive but the response itself.
-/

namespace Sys2Proof.Machine

/-! ### Code that ends with a response -/

theorem endsInRespond_cons {m : Micro} (hm : isRespond m = false) (k : List Micro) :
    endsInRespond (m :: k) = endsInRespond k := by
  cases k with
  | cons m' k => rfl
  | nil =>
    cases m with
    | prim p =>
      cases p with
      | respond r => cases hm
      | _ => rfl
    | _ => rfl

theorem endsInRespond_append (c : List Micro) {k : List Micro} (h : endsInRespond k = true) :
    endsInRespond (c ++ k) = true := by
  unfold endsInRespond at h ⊢
  split at h
  · rename_i hlast
    rw [List.getLast?_append, hlast]; rfl
  · cases h

theorem ne_nil_of_endsInRespond {k : List Micro} (h : endsInRespond k = true) : k ≠ [] := by
  rintro rfl
  cases h

/-- Every operation but the reserved tag's, which is never accepted, ends with its response. -/
theorem endsInRespond_operationCode {i : Instr} {q : Request} {s : State} (he : encode i = .hostReq q)
    (ha : acceptFault q s = none) : endsInRespond (operationCode i) = true := by
  obtain ⟨-, hop, -⟩ := acceptFault_eq_none.1 ha
  cases i with
  | reserved => cases he; exact absurd rfl hop
  | opWren | opRdsr | opRfsr | callerOpcode => cases he
  | _ => rfl

theorem settle_endsInRespond {k : List Micro} (h : endsInRespond k = true) (s : State) :
    endsInRespond (settle k s).phase = true := by
  refine settle_phase_of (P := fun k => endsInRespond k = true) ?_ ?_ ?_ k s h
  · intro a k h
    rwa [endsInRespond_cons rfl] at h
  · intro sop mask k h
    rw [endsInRespond_cons rfl] at h
    rw [endsInRespond_cons rfl]
    exact ⟨h, h⟩
  · intro k h
    rw [endsInRespond_cons rfl] at h
    exact ⟨h, rfl⟩

/-- A primitive other than the response leaves the response at the end of what follows it. -/
theorem runPrim_endsInRespond {p : Prim} (hp : isRespond (.prim p) = false) {k : List Micro}
    (h : endsInRespond k = true) (s : State) : endsInRespond (runPrim p k s).phase = true := by
  cases p with
  | respond r => cases hp
  | setRead l v => exact settle_endsInRespond (endsInRespond_append [_] h) _
  | dataRead => exact settle_endsInRespond (endsInRespond_append [_] h) _
  | dirRead =>
    simp only [runPrim]
    split
    · exact settle_endsInRespond h _
    · exact settle_endsInRespond (endsInRespond_append [_] h) _
  | pollTime sop mask =>
    simp only [runPrim]
    split
    · exact settle_endsInRespond h _
    · exact settle_endsInRespond (endsInRespond_append _ h) _
  | _ => exact settle_endsInRespond h _

/-! ### Requests and responses counted -/

/-- Every request in TRACE has its response but one, and that one's response is at the end of the phase. -/
def Owing (s : State) : Prop :=
  (requests s.trace).length = (responses s.trace).length + 1 ∧ endsInRespond s.phase = true

/-- Every request in TRACE has its response, and the block is IDLE. -/
def Settled (s : State) : Prop := (requests s.trace).length = (responses s.trace).length ∧ s.phase = []

/-- Without a fault the invariant is that the block owes one response or none. -/
theorem answeredOnce_iff {s : State} (hf : s.fault = none) : AnsweredOnce s ↔ Settled s ∨ Owing s := by
  constructor
  · intro h
    obtain ⟨hcount, hp | hp⟩ := h hf
    · exact .inl ⟨by rwa [busy_eq_false.2 hp] at hcount, hp⟩
    · exact .inr ⟨by rwa [busy_eq_true.2 (ne_nil_of_endsInRespond hp)] at hcount, hp⟩
  · rintro (⟨hcount, hp⟩ | ⟨hcount, hp⟩) -
    · exact ⟨by rwa [busy_eq_false.2 hp], .inl hp⟩
    · exact ⟨by rwa [busy_eq_true.2 (ne_nil_of_endsInRespond hp)], .inr hp⟩

theorem Owing.answeredOnce {s : State} (h : Owing s) : AnsweredOnce s := fun hf =>
  (answeredOnce_iff hf).2 (.inr h) hf

theorem Settled.answeredOnce {s : State} (h : Settled s) : AnsweredOnce s := fun hf =>
  (answeredOnce_iff hf).2 (.inl h) hf

/-- Where the phase holds anything, one response is owed, and it is at the end of what follows an item that is none. -/
theorem Owing.of_phase {s : State} {m : Micro} {k : List Micro} (h : Settled s ∨ Owing s) (hp : s.phase = m :: k) :
    (requests s.trace).length = (responses s.trace).length + 1 ∧ (isRespond m = false → endsInRespond k = true) := by
  obtain ⟨-, hidle⟩ | ⟨hcount, hends⟩ := h
  · rw [hp] at hidle; cases hidle
  · rw [hp] at hends
    exact ⟨hcount, fun hm => by rwa [endsInRespond_cons hm] at hends⟩

/-- The instruction a step accepts is the host's offer to an IDLE block: a host instruction called as a frame has the
operation's response behind it, so the block is BUSY. -/
theorem Settled.of_accepted {s : State} {i : Instr} {x : List Micro} {q : Request} (h : Settled s ∨ Owing s)
    (hi : RunsInstr s i x) (ha : acceptFault q { s with phase := x, host := hostNext s } = none) : Settled s := by
  obtain ⟨hx, -⟩ := acceptFault_eq_none.1 ha
  obtain rfl : x = [] := hx
  obtain ⟨-, -, -, hx⟩ | ⟨-, hp⟩ := hi
  · exact h.resolve_right fun ⟨_, hends⟩ => ne_nil_of_endsInRespond hends hx.symm
  · obtain ⟨-, hends⟩ := Owing.of_phase h hp
    cases hends rfl

/-- A primitive gives the owed response, or leaves it owed. -/
theorem runPrim_answeredOnce {p : Prim} {k : List Micro} {s : State}
    (hcount : (requests s.trace).length = (responses s.trace).length + 1)
    (hk : isRespond (.prim p) = false → endsInRespond k = true) : AnsweredOnce (runPrim p k s) := by
  cases p with
  | respond r => exact Settled.answeredOnce ⟨by simpa [runPrim, requests, responses] using hcount, rfl⟩
  | _ =>
    exact Owing.answeredOnce
      ⟨by simpa [primEvent, requests, responses] using hcount, runPrim_endsInRespond rfl (hk rfl) s⟩

/-- Settles O57: by the forms of a step. An acceptance finds nothing owed and puts a response at the end of the phase,
a called frame runs in front of it, a primitive is that response or leaves it there, and a fault ends the claim. -/
theorem everyStepKeepsAnsweredOnce : Obligations.EveryStepKeepsAnsweredOnce := by
  intro s t hs h
  obtain ⟨hf, ht⟩ := step_stepped h
  rw [answeredOnce_iff hf] at hs
  cases ht with
  | faulted => exact fun h => nomatch h
  | accepted hi he ha =>
    obtain ⟨hcount, -⟩ := Settled.of_accepted hs hi ha
    exact Owing.answeredOnce ⟨by simpa [requests, responses] using hcount,
      settle_endsInRespond (endsInRespond_operationCode he ha) _⟩
  | called ho hp =>
    obtain ⟨hcount, hends⟩ := Owing.of_phase hs hp
    exact runPrim_answeredOnce hcount fun _ => endsInRespond_append _ (hends rfl)
  | primitive ho hp =>
    obtain ⟨hcount, hends⟩ := Owing.of_phase hs hp
    exact runPrim_answeredOnce hcount hends
  | settled =>
    obtain ⟨hcount, hp⟩ | ⟨hcount, hends⟩ := hs
    · rw [hp]
      exact Settled.answeredOnce ⟨hcount, rfl⟩
    · exact Owing.answeredOnce ⟨by simpa using hcount, settle_endsInRespond hends _⟩

end Sys2Proof.Machine
end

section
/-!
Request acceptance (45_facade.md R220, R228): what an offered request runs, the checks as conditions on the request, and
what the host's step changes when it passes or fails them.
-/

namespace Sys2Proof.Machine

/-- Settles O8: the host's step is `exec` of the instruction the request decodes to. -/
theorem stepRunsTheOfferedRequest : Obligations.StepRunsTheOfferedRequest := by
  intro s q hf ho
  exact step_of_offer hf ho

/-! ### The two answers of acceptance (R220) -/

/-- The block right after it has accepted `q`: REQ and TRACE hold it, and its operation has not begun. -/
def accepted (q : Request) (s : State) : State := { s with req := q, trace := s.trace ++ [.req q] }

theorem exec_of_accepted {i : Instr} {q : Request} {s : State} (hf : s.fault = none) (he : encode i = .hostReq q)
    (ha : acceptFault q s = none) : exec i s = .next (settle (operationCode i) (accepted q s)) := by
  rw [exec_of_hostReq he]
  simp only [accept, hf, ha]
  rfl

theorem exec_of_acceptFault {i : Instr} {q : Request} {s : State} {r : FaultReason} (hf : s.fault = none)
    (he : encode i = .hostReq q) (ha : acceptFault q s = some r) :
    exec i s = .next { s with fault := some r, trace := s.trace ++ [.req q, .flt r] } := by
  rw [exec_of_hostReq he]
  simp [accept, hf, ha, raiseFault, emit]

/-- Settles O16: an idle block finds the reserved tag at the second check, and its operation is no code at all. -/
theorem reservedTagFaults : Obligations.ReservedTagFaults := by
  intro s ⟨hf, hp⟩
  have ha : acceptFault (bareRequest tagReserved) s = some .badOp := by
    rw [acceptFault, busy_eq_false.2 hp]
    rfl
  exact exec_of_acceptFault hf rfl ha

/-! ### A request that passes the checks -/

/-- The length acceptance checks is within MAX_LEN where the instruction is well formed (30_encoding.md R87). -/
theorem payloadLength_le_maxLen {i : Instr} {q : Request} {p : Params} (he : encode i = .hostReq q)
    (hw : i.WellFormed p) : payloadLength q ≤ p.maxLen := by
  cases i with
  | opWren | opRdsr | opRfsr | callerOpcode => cases he
  | readReg | writeReg | readData | program => cases he; exact hw
  | _ => cases he; exact Nat.zero_le _

theorem acceptFault_of_wellFormed {i : Instr} {q : Request} {s : State} (hr : Ready s) (he : encode i = .hostReq q)
    (hop : q.op ≠ tagReserved) (hlife : q.op = tagOpen ∨ q.op = tagClose ∨ s.life = .opened)
    (hw : i.WellFormed s.params) : acceptFault q s = none := by
  refine acceptFault_eq_none.2 ⟨hr.2, hop, ?_, payloadLength_le_maxLen he hw⟩
  rw [isLifecycle, Bool.or_eq_true, beq_iff_eq, beq_iff_eq, or_assoc]
  exact hlife

/-- A data operation is accepted in an idle open block where it is well formed. -/
theorem acceptFault_of_opened {i : Instr} {q : Request} {s : State} (hr : Ready s) (he : encode i = .hostReq q)
    (hi : i ≠ .reserved) (hlife : s.life = .opened) (hw : i.WellFormed s.params) : acceptFault q s = none := by
  refine acceptFault_of_wellFormed hr he (fun hop => hi ?_) (.inr (.inr hlife)) hw
  rw [← decodeRequest_of_encode he, decodeRequest, hop]
  rfl

/-- An operation's code starts with a primitive or a frame call, so settling only puts it in the phase. -/
theorem settle_operationCode (i : Instr) (s : State) :
    settle (operationCode i) s = { s with phase := operationCode i } := by
  cases i <;> rfl

/-- Settles O17: a request that passes the checks is accepted, and its operation's code, which ends with a response, is
the phase. -/
theorem acceptanceChangesOnlyRequestAndPhase : Obligations.AcceptanceChangesOnlyRequestAndPhase := by
  intro i q s hr he hop hlife hw
  have ha := acceptFault_of_wellFormed hr he hop hlife hw
  refine ⟨_, exec_of_accepted hr.1 he ha, ?_, ?_⟩
  · rw [settle_operationCode]
    exact ne_nil_of_endsInRespond (endsInRespond_operationCode he ha)
  · rw [settle_operationCode]
    rfl

end Sys2Proof.Machine
end

section
/-!
The operations of 45_facade.md (R221 to R227): code whose run may stop at a wait's TIMEOUT follows its pseudocode, so
every accepted operation does; and what a data operation leaves as it was.
-/

namespace Sys2Proof.Machine

/-! ### Code that runs to a response -/

/-- From a quiet block `c` runs to the state `g` ends in, where it ends, with the block IDLE and without a fault. -/
def Completes (c : List Micro) (g : State → Option State) : Prop :=
  ∀ s t, Quiet s → g s = some t → Reaches (settle c s) t ∧ Ready t

theorem reaches_respond {s : State} (hq : Quiet s) (r : Reply) (k : List Micro) :
    Reaches (settle (.prim (.respond r) :: k) s) (respond r s) ∧ Ready (respond r s) :=
  ⟨Reaches.head (step_settle_prim hq (.respond r) k) (.refl _), hq.1, rfl⟩

theorem Completes.respond (r : Reply) : Completes [.prim (.respond r)] (fun s => some (Machine.respond r s)) := by
  rintro s _ hq ⟨⟩
  exact reaches_respond hq r []

theorem Completes.after {c k : List Micro} {f : State → State} {g : State → Option State} (hk : Completes k g)
    (hc : RunsTo c f) : Completes (c ++ k) (fun s => g (f s)) := by
  intro s t hq h
  obtain ⟨hq', hreach⟩ := hc k s hq
  obtain ⟨hrest, hready⟩ := hk (f s) t hq' h
  exact ⟨hreach.trans hrest, hready⟩

theorem OnlyWaited.quiet {s t : State} (h : OnlyWaited s t) (hq : Quiet s) : Quiet t := by
  rw [h]
  exact hq

/-- A wait that ends in TIMEOUT ends the operation with its response, and any other goes on with what follows
(R224, R226, R227). -/
theorem refWaitOrStop_eq_some {polls : Nat} {w : WaitForm} {rest : State → Option State} {s t : State}
    (h : refWaitOrStop polls w rest s = some t) :
    ∃ u, refWait polls w s = some u ∧
      ((u.wres = .timeout ∧ t = respond .timeout u) ∨ (u.wres ≠ .timeout ∧ rest u = some t)) := by
  unfold refWaitOrStop at h
  split at h
  · cases h
  · rename_i u hu
    refine ⟨u, hu, ?_⟩
    split at h
    · rename_i hw; exact .inl ⟨hw, (Option.some.inj h).symm⟩
    · rename_i hw; exact .inr ⟨hw, h⟩

theorem Completes.waitOrStop {k : List Micro} {g : State → Option State} (hk : Completes k g) (polls : Nat)
    (w : WaitForm) : Completes (waitOrStopCode w ++ k) (refWaitOrStop polls w g) := by
  intro s t hq h
  obtain ⟨u, hu, hout⟩ := refWaitOrStop_eq_some h
  obtain ⟨hwait, hmoved⟩ := waitFollowsItsPseudocode polls w (.abortIfTimeout :: k) s u hq.1 hq.2 hu
  have hqu := hmoved.quiet hq
  rw [waitOrStopCode, List.append_assoc]
  obtain ⟨hw, rfl⟩ | ⟨hw, hrest⟩ := hout
  · obtain ⟨hreach, hready⟩ := reaches_respond hqu .timeout []
    exact ⟨hwait.trans (by simpa only [settle, if_pos hw] using hreach), hready⟩
  · obtain ⟨hreach, hready⟩ := hk u t hqu hrest
    exact ⟨hwait.trans (by simpa only [settle, if_neg hw] using hreach), hready⟩

/-! ### Every operation (R221 to R227) -/

theorem RunsTo.opWren : RunsTo [.frame .opWren] refWrenTxn := FrameRunsTo.wrenTxn.runsTo_call fun _ => rfl

theorem RunsTo.callerOpcode (op : Byte) (shape : FrameShape) :
    RunsTo [.frame (.callerOpcode op shape)] (refShape op shape) :=
  (FrameRunsTo.shape op shape).runsTo_call fun _ => rfl

theorem RunsTo.flagStatus : RunsTo flagStatusCode (refPoll rfsrByte) := RunsTo.poll rfsrByte

/-- The code of every operation completes as its pseudocode says; by the instruction, following the pseudocode from its
last line to its first. -/
theorem completes_operationCode (polls : Nat) (i : Instr) : Completes (operationCode i) (refOperation polls i) := by
  cases i with
  | hostOpen =>
    exact (((((Completes.respond .ok).after (.assign (.life .opened))).after (.enWrite enOn)).after
      (.setBit .cap false)).after (.setBit .csN true)).after (.setBit .clk false)
  | hostClose => exact ((Completes.respond .ok).after (.assign (.life .closed))).after (.enWrite enOff)
  | readReg op n => exact (Completes.respond .okData).after (.callerOpcode op (.statusRead n))
  | writeReg op data =>
    exact ((((Completes.respond .ok).waitOrStop polls waitShort).after
      (.callerOpcode op (.regWrite data))).waitOrStop polls waitShort).after .opWren
  | readData op a n => exact (Completes.respond .okData).after (.callerOpcode op (.dataRead a n))
  | program op a data =>
    exact (((((Completes.respond .program).after .flagStatus).waitOrStop polls waitShort).after
      (.callerOpcode op (.dataProgram a data))).waitOrStop polls waitShort).after .opWren
  | erase op a =>
    exact ((((((Completes.respond .erase).after .flagStatus).waitOrStop polls waitEraseWip).waitOrStop polls
      waitEraseBusy).after (.callerOpcode op (.dataErase a))).waitOrStop polls waitShort).after .opWren
  | reserved | opWren | opRdsr | opRfsr | callerOpcode => exact fun s t _ h => nomatch h

/-- An accepted operation's code settles in a quiet block, and completes as its pseudocode says. -/
theorem exec_completes {polls : Nat} {i : Instr} {q : Request} {s t : State} (hr : Ready s) (hs : SerialHost s)
    (he : encode i = .hostReq q) (ha : acceptFault q s = none) (h : refOperation polls i (accepted q s) = some t) :
    ∃ u, exec i s = .next u ∧ Reaches u t ∧ Ready t :=
  ⟨_, exec_of_accepted hr.1 he ha, completes_operationCode polls i (accepted q s) t ⟨hr.1, hs⟩ h⟩

/-- Settles O40: the state the pseudocode starts from is the one acceptance leaves. -/
theorem operationsFollowTheirPseudocode : Obligations.OperationsFollowTheirPseudocode :=
  fun _ _ _ _ _ hr hs he ha h => exec_completes hr hs he ha h

/-! ### What a data operation leaves as it was (R229, 10_state.md R45) -/

theorem OnlyWaited.phase {s t : State} (h : OnlyWaited s t) : t.phase = s.phase := by rw [h]

theorem onlyLinesMoved_respond {s : State} (hp : s.phase = []) (r : Reply) : OnlyLinesMoved s (respond r s) := by
  unfold OnlyLinesMoved
  rw [hp]
  rfl

theorem onlyLinesMoved_refShape (op : Byte) (shape : FrameShape) (s : State) :
    OnlyLinesMoved s (refShape op shape s) := by
  obtain ⟨es, bs, hc⟩ := CarriesFrame.shape op shape s
  exact hc.did.moved

theorem onlyLinesMoved_refWrenTxn (s : State) : OnlyLinesMoved s (refWrenTxn s) := by
  obtain ⟨es, bs, hc⟩ := CarriesFrame.wrenTxn s
  exact hc.did.moved

theorem onlyWaited_refPoll (sop : Byte) (s : State) : OnlyWaited s (refPoll sop s) := by
  obtain ⟨es, hpoll, -⟩ := Saw.poll sop s
  exact hpoll.moved

/-- From a state in IDLE, as the pseudocode leaves the phase alone, `g` moves no more than frames and waits move. -/
def KeepsFrame (g : State → Option State) : Prop := ∀ s t, s.phase = [] → g s = some t → OnlyWaited s t

theorem KeepsFrame.respond (r : Reply) : KeepsFrame (fun s => some (Machine.respond r s)) := by
  rintro s _ hp ⟨⟩
  exact (onlyLinesMoved_respond hp r).onlyWaited

theorem KeepsFrame.after {f : State → State} {g : State → Option State} (hg : KeepsFrame g)
    (hf : ∀ s, OnlyWaited s (f s)) : KeepsFrame (fun s => g (f s)) := fun s t hp h =>
  (hf s).trans (hg (f s) t ((hf s).phase.trans hp) h)

theorem KeepsFrame.waitOrStop {g : State → Option State} (hg : KeepsFrame g) (polls : Nat) (w : WaitForm) :
    KeepsFrame (refWaitOrStop polls w g) := by
  intro s t hp h
  obtain ⟨u, hu, hout⟩ := refWaitOrStop_eq_some h
  obtain ⟨es, bits, ts, hsaw, -, -⟩ := refWait_saw hu
  have hpu := hsaw.moved.phase.trans hp
  obtain ⟨-, rfl⟩ | ⟨-, hrest⟩ := hout
  · exact hsaw.moved.trans (onlyLinesMoved_respond hpu .timeout).onlyWaited
  · exact hsaw.moved.trans (hg u t hpu hrest)

/-- The pseudocode of every operation but OPEN and CLOSE is frames, waits and a response. -/
theorem keepsFrame_refOperation {i : Instr} {q : Request} (he : encode i = .hostReq q)
    (hop : q.op ∉ [tagOpen, tagClose]) (polls : Nat) : KeepsFrame (refOperation polls i) := by
  have hshape : ∀ op shape s, OnlyWaited s (refShape op shape s) := fun op shape s =>
    (onlyLinesMoved_refShape op shape s).onlyWaited
  have hwren : ∀ s, OnlyWaited s (refWrenTxn s) := fun s => (onlyLinesMoved_refWrenTxn s).onlyWaited
  have hflag : ∀ s, OnlyWaited s (refPoll rfsrByte s) := onlyWaited_refPoll rfsrByte
  cases i with
  | hostOpen => cases he; exact absurd (by decide) hop
  | hostClose => cases he; exact absurd (by decide) hop
  | readReg op n => exact (KeepsFrame.respond .okData).after (hshape op (.statusRead n))
  | writeReg op data =>
    exact ((((KeepsFrame.respond .ok).waitOrStop polls waitShort).after
      (hshape op (.regWrite data))).waitOrStop polls waitShort).after hwren
  | readData op a n => exact (KeepsFrame.respond .okData).after (hshape op (.dataRead a n))
  | program op a data =>
    exact (((((KeepsFrame.respond .program).after hflag).waitOrStop polls waitShort).after
      (hshape op (.dataProgram a data))).waitOrStop polls waitShort).after hwren
  | erase op a =>
    exact ((((((KeepsFrame.respond .erase).after hflag).waitOrStop polls waitEraseWip).waitOrStop polls
      waitEraseBusy).after (hshape op (.dataErase a))).waitOrStop polls waitShort).after hwren
  | reserved | opWren | opRdsr | opRfsr | callerOpcode => exact fun s t _ h => nomatch h

theorem onlyLinesMoved_accepted (q : Request) (s : State) : OnlyLinesMoved { s with req := q } (accepted q s) := rfl

/-- READ_REG and READ are one frame that receives, and the response with the bytes received (R223, R225). -/
theorem refOperation_of_read {i : Instr} {q : Request} (he : encode i = .hostReq q)
    (hop : q.op ∈ [tagReadReg, tagRead]) :
    ∃ op shape, ∀ polls s, refOperation polls i s = some (respond .okData (refShape op shape s)) := by
  obtain rfl := decodeRequest_of_encode he
  obtain hreg | hdata : q.op = tagReadReg ∨ q.op = tagRead := by simpa using hop
  · rw [decodeRequest, hreg]
    exact ⟨q.opcode, .statusRead q.len, fun _ _ => rfl⟩
  · rw [decodeRequest, hdata]
    exact ⟨q.opcode, .dataRead q.addr q.len, fun _ _ => rfl⟩

/-- Settles O41: the operation completes as its pseudocode says, which is frames, waits and a response, and that of
READ_REG and READ has no wait. -/
theorem dataOperationsFrame : Obligations.DataOperationsFrame := by
  intro polls i q s t hr hs he ha hop h
  obtain ⟨u, hexec, hreach, -⟩ := exec_completes hr hs he ha h
  have hstart := onlyLinesMoved_accepted q s
  refine ⟨u, hexec, hreach, ?_, fun hread => ?_⟩
  · exact hstart.onlyWaited.trans (keepsFrame_refOperation he hop polls (accepted q s) t hr.2 h)
  · obtain ⟨op, shape, hcode⟩ := refOperation_of_read he hread
    obtain rfl : respond .okData (refShape op shape (accepted q s)) = t :=
      Option.some.inj ((hcode polls (accepted q s)).symm.trans h)
    have hframe := onlyLinesMoved_refShape op shape (accepted q s)
    exact (hstart.trans hframe).trans (onlyLinesMoved_respond (hframe.onlyWaited.phase.trans hr.2) .okData)

end Sys2Proof.Machine
end

section
/-!
OPEN, CLOSE, READ_REG and READ from acceptance to response (45_facade.md R221, R222, R223, R225): the state and the
TRACE each of them ends with.
-/

namespace Sys2Proof.Machine

/-! ### OPEN and CLOSE (R221, R222) -/

/-- The CS_N line is bit 2 and the CAP line is bit 3, so OPEN writes the values R221 names. -/
theorem setLine_csN_true (p : Params) (r : Byte) : setLine p .csN true r = r ||| 0x04#8 := rfl

theorem setLine_cap_false (p : Params) (r : Byte) : setLine p .cap false r = r &&& 0xF7#8 := by
  have hmask : lineMask p .cap = 0x08#8 := rfl
  rw [setLine, if_neg Bool.false_ne_true, hmask, show ~~~(0x08#8) = 0xF7#8 by decide]

/-- OPEN's pseudocode, field by field. -/
theorem refOpen_eq (s : State) :
    let c1 := s.ctrl &&& 0xFE#8
    let c2 := c1 ||| 0x04#8
    let c3 := c2 &&& 0xF7#8
    refOpen s =
      { s with
        ctrl := c3, en := 0x01#8, lastEn := some 0x01#8, life := .opened, phase := []
        trace := s.trace ++
          [.cr s.ctrl, .cw c1, .cr c1, .cw c2, .cr c2, .cw c3, .ew 0x01#8,
            .rsp { status := .ok, rdata := [], count := 0, eerr := false }]
        device := (refOpen s).device } := by
  simp [refOpen, refSetBit_eq, setLine_clk_false, setLine_csN_true, setLine_cap_false, enWrite, applyAssign, respond,
    replyOf, emit, enOn]

/-- CLOSE's pseudocode, field by field. -/
theorem refClose_eq (s : State) :
    refClose s =
      { s with
        en := 0x00#8, lastEn := some 0x00#8, life := .closed, phase := []
        trace := s.trace ++ [.ew 0x00#8, .rsp { status := .ok, rdata := [], count := 0, eerr := false }] } := by
  simp [refClose, enWrite, applyAssign, respond, replyOf, emit, enOff]

/-- Settles O36: OPEN has no wait, so it runs to the state its pseudocode ends in. -/
theorem openCompletes : Obligations.OpenCompletes := by
  intro s hr hs
  have ha := acceptFault_of_wellFormed (i := .hostOpen) hr rfl (by decide) (.inl rfl) trivial
  obtain ⟨u, hexec, hreach, hready⟩ := exec_completes (polls := 0) (i := .hostOpen) hr hs rfl ha rfl
  have heq := refOpen_eq (accepted (bareRequest tagOpen) s)
  generalize refOpen (accepted (bareRequest tagOpen) s) = t at hreach hready heq
  have hctrl := congrArg State.ctrl heq
  have hen := congrArg State.en heq
  have hlast := congrArg State.lastEn heq
  have hlife := congrArg State.life heq
  have htrace := congrArg State.trace heq
  refine ⟨u, hexec, t, hreach, hctrl, hen, hlast, hlife, hready, htrace.trans (List.append_assoc ..), ?_⟩
  rw [hr.2, hctrl, hen, hlast, hlife, htrace]
  exact heq

/-- Settles O37: CLOSE has no wait either. -/
theorem closeCompletes : Obligations.CloseCompletes := by
  intro s hr hs
  have ha := acceptFault_of_wellFormed (i := .hostClose) hr rfl (by decide) (.inr (.inl rfl)) trivial
  obtain ⟨u, hexec, hreach, -⟩ := exec_completes (polls := 0) (i := .hostClose) hr hs rfl ha rfl
  refine ⟨u, hexec, ?_⟩
  rw [hr.2]
  simp only [refClose_eq, accepted, List.append_assoc] at hreach
  exact hreach

/-! ### READ_REG and READ (R223, R225) -/

/-- An operation that is one receiving frame and the response with its bytes, from acceptance to response: the bits read
are those of the frame, and the response holds the bytes they make (30_encoding.md R92, R97). -/
theorem read_completes {i : Instr} {q : Request} {op : Byte} {shape : FrameShape} {s : State} (hr : Ready s)
    (hs : SerialHost s) (he : encode i = .hostReq q) (ha : acceptFault q s = none)
    (hcode : ∀ s, refOperation 0 i s = some (respond .okData (refShape op shape s)))
    (hin : Receives (shapeFrame op shape)) :
    let f := shapeFrame op shape
    ∃ u t es, exec i s = .next u ∧ Reaches u t ∧ Ready t ∧
      t.trace = s.trace ++ (Event.req q :: (es ++
        [Event.rsp { status := .ok, rdata := bytesOfBits f.nIn (dataBits es), count := 0, eerr := false }])) ∧
      sentBits s.params s.ctrl (ctrlWrites es) = f.out.flatMap wireBits ∧
      (dinReads es).length = 8 * f.nIn ∧ timeReads es = [] ∧ responses es = [] ∧
      lineOf s.params .csN t.ctrl = true ∧ lineOf s.params .cap t.ctrl = true ∧
      OnlyLinesMoved { s with req := q } t := by
  intro f
  obtain ⟨v, hexec, hreach, hready⟩ := exec_completes hr hs he ha (hcode (accepted q s))
  obtain ⟨es, bs, hdid, hlen, hrbuf, hends⟩ := CarriesFrame.shape op shape (accepted q s)
  generalize refShape op shape (accepted q s) = u at hreach hready hdid hrbuf hends
  rw [if_pos hin] at hrbuf hends
  have hbits : dataBits es = bs := hdid.got
  have hreads : (dinReads es).length = 8 * f.nIn := hdid.dinReads_length.trans hlen
  have hreply : replyOf u .okData =
      { status := .ok, rdata := bytesOfBits f.nIn (dataBits es), count := 0, eerr := false } := by
    rw [hbits, ← hrbuf]
    rfl
  have htrace : (respond .okData u).trace = s.trace ++ (Event.req q :: (es ++ [Event.rsp (replyOf u .okData)])) := by
    simp [hdid.trace, accepted]
  rw [hreply] at htrace
  have hmoved : OnlyLinesMoved { s with req := q } (respond .okData u) :=
    ((onlyLinesMoved_accepted q s).trans hdid.moved).trans
      (onlyLinesMoved_respond (hdid.moved.onlyWaited.phase.trans hr.2) .okData)
  exact ⟨v, respond .okData u, es, hexec, hreach, hready, htrace, hdid.sent, hreads, hdid.noTime,
    hdid.noReply, hends.csN, hends.cap, hmoved⟩

/-- Settles O38: the frame is a status read of `len` bytes, whose only byte out is the opcode. -/
theorem readRegCompletes : Obligations.ReadRegCompletes := by
  intro opcode len s hr hs hlife hlen
  have ha := acceptFault_of_opened (i := .readReg opcode len) hr rfl nofun hlife hlen
  obtain ⟨u, t, es, hexec, hreach, hready, htrace, hsent, hrest⟩ :=
    read_completes (i := .readReg opcode len) (shape := .statusRead len) hr hs rfl ha (fun _ => rfl) (.inl rfl)
  exact ⟨u, t, es, hexec, hreach, hready, htrace, hsent.trans (List.flatMap_singleton ..), hrest⟩

/-- Settles O39: the frame is a data read of `len` bytes, whose bytes out are the opcode and the address. -/
theorem readCompletes : Obligations.ReadCompletes := by
  intro opcode addr len s hr hs hlife hlen
  have ha := acceptFault_of_opened (i := .readData opcode addr len) hr rfl nofun hlife hlen
  exact read_completes (i := .readData opcode addr len) (shape := .dataRead addr len) hr hs rfl ha (fun _ => rfl)
    (.inr rfl)

end Sys2Proof.Machine
end

section
/-!
WRITE_REG, PROGRAM and ERASE with a device that ends each wait at its first poll (45_facade.md R224, R226, R227): what
has gone out, how often the time was read and what the device has left to answer, frame by frame and wait by wait.
-/

namespace Sys2Proof.Machine

/-! ### A scripted device, byte by byte -/

theorem deviceAnswers_cons_append (v : Byte) (vs xs : List Byte) :
    deviceAnswers (v :: vs) ++ xs = deviceAnswers [v] ++ (deviceAnswers vs ++ xs) := by
  simp [deviceAnswers]

/-- A frame that receives nothing leaves the answers of a scripted device as they are. -/
theorem refShape_scripted {op : Byte} {shape : FrameShape} {s : State} {xs : List Byte}
    (hout : ¬ Receives (shapeFrame op shape)) (h : s.device = .scripted xs) :
    (refShape op shape s).device = .scripted xs := by
  cases shape with
  | statusRead n => exact absurd (.inl rfl) hout
  | regWrite data => exact refRegWriteTxn_scripted op data h
  | dataRead a n => exact absurd (.inr rfl) hout
  | dataProgram a data => exact refProgTxn_scripted op a data h
  | dataErase a => exact refEraseTxn_scripted op a h

/-- A clear bit of a status byte is a clear flag of its mask (30_encoding.md R90). -/
theorem and_mask_eq_zero {v : Byte} {n : Nat} (h : v.getLsbD n = false) : v &&& BitVec.twoPow 8 n = 0x00#8 := by
  rw [BitVec.and_twoPow, h]
  rfl

/-! ### From acceptance on -/

/-- From `s` to `t` the block sent `bytes` and read the time `reads` times, gave no response, and moved no more than
frames and waits move; the device is deselected and has `xs` left to answer. -/
def Went (s t : State) (bytes : List Byte) (reads : Nat) (xs : List Byte) : Prop :=
  ∃ es times, Saw s t es (bytes.flatMap wireBits) times ∧ times.length = reads ∧ t.device = .scripted xs ∧
    lineOf s.params .csN t.ctrl = true

section
variable {s t u : State} {bytes : List Byte} {reads : Nat} {v : Byte} {vs xs : List Byte}

theorem Went.trans {more : List Byte} {n : Nat} (h : Went s t bytes reads vs) (g : Went t u more n xs) :
    Went s u (bytes ++ more) (reads + n) xs := by
  obtain ⟨es, times, hsaw, hlen, -, -⟩ := h
  obtain ⟨es', times', hsaw', hlen', hdev, hcs⟩ := g
  have hboth := hsaw.trans hsaw'
  rw [← List.flatMap_append] at hboth
  rw [hsaw.moved.params] at hcs
  exact ⟨_, _, hboth, by rw [List.length_append, hlen, hlen'], hdev, hcs⟩

/-- The write-enable frame, first of every operation with waits. -/
theorem Went.wren (h : s.device = .scripted xs) : Went s (refWrenTxn s) [wrenByte] 0 xs := by
  obtain ⟨es, bs, hc⟩ := CarriesFrame.wrenTxn s
  exact ⟨es, [], hc.did.saw, rfl, refWrenTxn_scripted h, hc.ends.csN⟩

/-- The frame of the request's opcode, which receives nothing. -/
theorem Went.shape {op : Byte} {shape : FrameShape} (h : Went s t bytes reads xs)
    (hout : ¬ Receives (shapeFrame op shape)) :
    Went s (refShape op shape t) (bytes ++ (shapeFrame op shape).out) reads xs := by
  have ⟨_, _, _, _, hdev, _⟩ := h
  obtain ⟨es, bs, hc⟩ := CarriesFrame.shape op shape t
  exact h.trans ⟨es, [], hc.did.saw, rfl, refShape_scripted hout hdev, hc.ends.csN⟩

/-- A wait whose first poll answers `v` with the flag clear: one byte out, one time read, and what follows it runs. -/
theorem Went.wait (h : Went s t bytes reads (deviceAnswers (v :: vs) ++ xs)) (w : WaitForm)
    (hv : v &&& w.mask = 0x00#8) :
    ∃ u, (∀ rest, refWaitOrStop 1 w rest t = rest u) ∧
      Went s u (bytes ++ [w.sop]) (reads + 1) (deviceAnswers vs ++ xs) := by
  have ⟨_, _, _, _, hdev, _⟩ := h
  rw [deviceAnswers_cons_append] at hdev
  obtain ⟨u, es, n, hwait, hsaw, hok, hdev', hcs, -⟩ := refWait_firstClear 0 w hdev hv
  refine ⟨u, fun rest => ?_, h.trans ⟨es, [n], ?_, rfl, hdev', hcs⟩⟩
  · simp only [refWaitOrStop, hwait, hok, reduceCtorEq, if_false]
  · rwa [List.flatMap_singleton]

/-- The flag-status read of PROGRAM and ERASE: its byte is PSTAT. -/
theorem Went.flagStatus (h : Went s t bytes reads (deviceAnswers [v] ++ xs)) :
    Went s (refPoll rfsrByte t) (bytes ++ [rfsrByte]) reads xs ∧ (refPoll rfsrByte t).pstat = v := by
  have ⟨_, _, _, _, hdev, _⟩ := h
  obtain ⟨es, hsaw, hcs, -⟩ := Saw.poll rfsrByte t
  obtain ⟨hdev', hpstat⟩ := refPoll_scripted rfsrByte hdev
  exact ⟨h.trans ⟨es, [], by rwa [List.flatMap_singleton], rfl, hdev', hcs⟩, hpstat⟩

theorem Went.req (h : Went s t bytes reads xs) : t.req = s.req := by
  obtain ⟨_, _, hsaw, -⟩ := h
  exact hsaw.moved.req

/-- An accepted operation whose pseudocode went on to its response, from acceptance to response. -/
theorem Went.completes {i : Instr} {q : Request} {r : Reply} (h : Went (accepted q s) u bytes reads xs) (hr : Ready s)
    (hs : SerialHost s) (he : encode i = .hostReq q) (ha : acceptFault q s = none)
    (ho : refOperation 1 i (accepted q s) = some (respond r u)) :
    ∃ v t es, exec i s = .next v ∧ Reaches v t ∧ Ready t ∧
      t.trace = s.trace ++ (Event.req q :: (es ++ [Event.rsp (replyOf u r)])) ∧
      sentBits s.params s.ctrl (ctrlWrites es) = bytes.flatMap wireBits ∧
      (timeReads es).length = reads ∧ responses es = [] ∧ lineOf s.params .csN t.ctrl = true ∧
      OnlyWaited { s with req := q } t ∧ t.device = .scripted xs := by
  obtain ⟨v, hexec, hreach, hready⟩ := exec_completes hr hs he ha ho
  obtain ⟨es, times, hsaw, hlen, hdev, hcs⟩ := h
  have htrace : (respond r u).trace = s.trace ++ (Event.req q :: (es ++ [Event.rsp (replyOf u r)])) := by
    simp [hsaw.trace, accepted]
  have hmoved : OnlyWaited { s with req := q } (respond r u) :=
    ((onlyLinesMoved_accepted q s).onlyWaited.trans hsaw.moved).trans
      (onlyLinesMoved_respond (hsaw.moved.phase.trans hr.2) r).onlyWaited
  exact ⟨v, respond r u, es, hexec, hreach, hready, htrace, hsaw.sent, hsaw.times ▸ hlen, hsaw.noReply, hcs, hmoved,
    hdev⟩

end

/-! ### The three operations (R224, R226, R227) -/

/-- Settles O44: write-enable, a wait, the register write, a wait. -/
theorem writeRegCompletes : Obligations.WriteRegCompletes := by
  intro opcode data sr1 sr2 later s hr hs hlife hlen hdev hsr1 hsr2
  have ha := acceptFault_of_opened (i := .writeReg opcode data) hr rfl nofun hlife hlen
  have hwren := Went.wren (s := accepted (writeRegRequest opcode data) s) hdev
  obtain ⟨u1, h1, hwait1⟩ := hwren.wait waitShort (and_mask_eq_zero hsr1)
  have hframe := hwait1.shape (op := opcode) (shape := .regWrite data) nofun
  obtain ⟨u2, h2, hwait2⟩ := hframe.wait waitShort (and_mask_eq_zero hsr2)
  have hcode : refOperation 1 (.writeReg opcode data) (accepted (writeRegRequest opcode data) s) =
      some (respond .ok u2) := (h1 _).trans (h2 _)
  exact hwait2.completes hr hs rfl ha hcode

/-- PROGRAM's response, by bit 4 of the flag-status byte (60_exceptions.md R252). -/
theorem replyOf_program {s : State} {fsr : Byte} {data : List Byte} (hfsr : s.pstat = fsr)
    (hdata : s.req.data = data) :
    replyOf s .program =
      if fsr.getLsbD 4 then { status := .programError, rdata := [], count := 0, eerr := false }
      else { status := .ok, rdata := [], count := data.length, eerr := false } := by
  rw [replyOf, hfsr, hdata]
  rfl

/-- ERASE's response, with bit 5 of the flag-status byte (60_exceptions.md R253). -/
theorem replyOf_erase {s : State} {fsr : Byte} (hfsr : s.pstat = fsr) :
    replyOf s .erase = { status := .ok, rdata := [], count := 0, eerr := fsr.getLsbD 5 } := by
  rw [replyOf, hfsr]
  rfl

/-- Settles O45: write-enable, a wait, the program frame, a wait, and the flag-status read that chooses the response. -/
theorem programCompletes : Obligations.ProgramCompletes := by
  intro opcode addr data sr1 sr2 fsr later s hr hs hlife hlen hdev hsr1 hsr2
  have ha := acceptFault_of_opened (i := .program opcode addr data) hr rfl nofun hlife hlen
  have hwren := Went.wren (s := accepted (programRequest opcode addr data) s) hdev
  obtain ⟨u1, h1, hwait1⟩ := hwren.wait waitShort (and_mask_eq_zero hsr1)
  have hframe := hwait1.shape (op := opcode) (shape := .dataProgram addr data) nofun
  obtain ⟨u2, h2, hwait2⟩ := hframe.wait waitShort (and_mask_eq_zero hsr2)
  obtain ⟨hflag, hpstat⟩ := hwait2.flagStatus
  have hcode : refOperation 1 (.program opcode addr data) (accepted (programRequest opcode addr data) s) =
      some (respond .program (refPoll rfsrByte u2)) := (h1 _).trans (h2 _)
  obtain ⟨v, t, es, hexec, hreach, hready, htrace, hsent, hreads, hreply, hcs, hmoved, -⟩ :=
    hflag.completes hr hs rfl ha hcode
  rw [replyOf_program hpstat (congrArg Request.data hflag.req)] at htrace
  refine ⟨v, t, es, hexec, hreach, hready, htrace, hsent.trans ?_, hreads, hreply, hcs, hmoved⟩
  simp [shapeFrame, waitShort, wrenByte, rdsrByte, rfsrByte]

/-- Settles O46: write-enable, a wait, the erase frame, the two long waits, the flag-status read. -/
theorem eraseCompletes : Obligations.EraseCompletes := by
  intro opcode addr sr1 busyByte sr2 fsr later s hr hs hlife hdev hsr1 hbusy hsr2
  have ha := acceptFault_of_opened (i := .erase opcode addr) hr rfl nofun hlife trivial
  have hwren := Went.wren (s := accepted (eraseRequest opcode addr) s) hdev
  obtain ⟨u1, h1, hwait1⟩ := hwren.wait waitShort (and_mask_eq_zero hsr1)
  have hframe := hwait1.shape (op := opcode) (shape := .dataErase addr) nofun
  obtain ⟨u2, h2, hwait2⟩ := hframe.wait waitEraseBusy (and_mask_eq_zero hbusy)
  obtain ⟨u3, h3, hwait3⟩ := hwait2.wait waitEraseWip (and_mask_eq_zero hsr2)
  obtain ⟨hflag, hpstat⟩ := hwait3.flagStatus
  have hcode : refOperation 1 (.erase opcode addr) (accepted (eraseRequest opcode addr) s) =
      some (respond .erase (refPoll rfsrByte u3)) := (h1 _).trans ((h2 _).trans (h3 _))
  obtain ⟨v, t, es, hexec, hreach, hready, htrace, hsent, hreads, hreply, hcs, hmoved, -⟩ :=
    hflag.completes hr hs rfl ha hcode
  rw [replyOf_erase hpstat] at htrace
  exact ⟨v, t, es, hexec, hreach, hready, htrace, hsent, hreads, hreply, hcs, hmoved⟩

end Sys2Proof.Machine
end

section
/-!
The faults of 60_exceptions.md: which one request acceptance raises and what it leaves of the block, that no other step
raises one, and how a TIMEOUT in the first wait ends WRITE_REG, PROGRAM and ERASE.
-/

namespace Sys2Proof.Machine

/-! ### The record in REQ and the checks of acceptance (R256, 45_facade.md R220) -/

/-- The tags of 30_encoding.md R85 are all there are. -/
theorem tag_cases (op : BitVec 3) :
    op = tagOpen ∨ op = tagClose ∨ op = tagReadReg ∨ op = tagWriteReg ∨ op = tagRead ∨ op = tagProgram ∨
      op = tagErase ∨ op = tagReserved := by
  revert op
  decide

/-- Acceptance reads the tag and the length of a request, and no operation's encoding drops them (30_encoding.md
R86). -/
theorem usedFields_op_payloadLength (q : Request) :
    (usedFields q).op = q.op ∧ payloadLength (usedFields q) = payloadLength q := by
  obtain ⟨op, opcode, addr, len, data⟩ := q
  obtain rfl | rfl | rfl | rfl | rfl | rfl | rfl | rfl := tag_cases op <;> exact ⟨rfl, rfl⟩

theorem acceptFault_usedFields (q : Request) (s : State) : acceptFault (usedFields q) s = acceptFault q s := by
  obtain ⟨hop, hlen⟩ := usedFields_op_payloadLength q
  rw [acceptFault, isLifecycle, hop, hlen]
  rfl

/-- The host's step for a request that fails the checks. -/
theorem hostStep_of_acceptFault {q : Request} {s : State} {r : FaultReason} (hf : s.fault = none)
    (ha : acceptFault q s = some r) :
    hostStep q s = .next { s with fault := some r, trace := s.trace ++ [.req (usedFields q), .flt r] } :=
  exec_of_acceptFault hf (encode_decodeRequest q) ((acceptFault_usedFields q s).trans ha)

/-! ### The order of the checks (R256) -/

theorem acceptFault_of_busy {q : Request} {s : State} (hp : s.phase ≠ []) : acceptFault q s = some .busy :=
  if_pos (busy_eq_true.2 hp)

/-- An idle block begins with the second check. -/
theorem acceptFault_of_idle {q : Request} {s : State} (hp : s.phase = []) :
    acceptFault q s =
      if q.op = tagReserved then some .badOp
      else if !isLifecycle q && decide (s.life = .closed) then some .notOpen
      else if payloadLength q > s.params.maxLen then some .len
      else none :=
  if_neg (by simp [hp])

theorem isLifecycle_eq_false {q : Request} : isLifecycle q = false ↔ q.op ≠ tagOpen ∧ q.op ≠ tagClose := by
  simp [isLifecycle]

theorem acceptFault_of_badOp {q : Request} {s : State} (hp : s.phase = []) (hop : q.op = tagReserved) :
    acceptFault q s = some .badOp := by
  rw [acceptFault_of_idle hp, if_pos hop]

theorem acceptFault_of_closed {q : Request} {s : State} (hp : s.phase = []) (hop : q.op ≠ tagReserved)
    (hdata : isLifecycle q = false) (hlife : s.life = .closed) : acceptFault q s = some .notOpen := by
  rw [acceptFault_of_idle hp, if_neg hop, hdata, hlife]
  rfl

theorem acceptFault_of_length {q : Request} {s : State} (hp : s.phase = []) (hop : q.op ≠ tagReserved)
    (hlife : s.life = .opened) (hlen : payloadLength q > s.params.maxLen) : acceptFault q s = some .len := by
  rw [acceptFault_of_idle hp, if_neg hop, if_neg (by simp [hlife]), if_pos hlen]

/-- The length acceptance checks, by the operations that use `len` and those that use `data` (30_encoding.md R87). -/
theorem payloadLength_gt {q : Request} {n : Nat}
    (h : (q.op = tagReadReg ∨ q.op = tagRead) ∧ q.len > n ∨
      (q.op = tagWriteReg ∨ q.op = tagProgram) ∧ q.data.length > n) : payloadLength q > n := by
  obtain ⟨hop, hlen⟩ | ⟨hop, hlen⟩ := h
  · rwa [payloadLength, if_pos hop]
  · have hnot : ¬(q.op = tagReadReg ∨ q.op = tagRead) := by obtain hop | hop := hop <;> rw [hop] <;> decide
    rwa [payloadLength, if_neg hnot, if_pos hop]

/-- Settles O15: each clause is one check of acceptance, with those before it passed. -/
theorem faultsAtAcceptanceInOrder : Obligations.FaultsAtAcceptanceInOrder := by
  intro q s hf faulted
  refine ⟨fun hp => ?_, fun hp hop => ?_, fun hp hop hopen hclose hlife => ?_, fun hp hlife hlong => ?_⟩
  · exact hostStep_of_acceptFault hf (acceptFault_of_busy hp)
  · exact hostStep_of_acceptFault hf (acceptFault_of_badOp hp hop)
  · exact hostStep_of_acceptFault hf (acceptFault_of_closed hp hop (isLifecycle_eq_false.2 ⟨hopen, hclose⟩) hlife)
  · have hop : q.op ≠ tagReserved := by
      obtain ⟨hop | hop, -⟩ | ⟨hop | hop, -⟩ := hlong <;> rw [hop] <;> decide
    exact hostStep_of_acceptFault hf (acceptFault_of_length hp hop hlife (payloadLength_gt hlong))

/-! ### No other step raises a fault (R255) -/

/-- Settles O60: of the forms of a step only a fault at acceptance sets FAULT, and what it runs encodes to a request:
not offered by the host, it would stand in the phase in the place of a frame. -/
theorem faultsOnlyAtAcceptance : Obligations.FaultsOnlyAtAcceptance := by
  intro s t h ho hframes
  obtain ⟨hf, ht⟩ := step_stepped h
  cases ht with
  | faulted hi he =>
    obtain ⟨q, hoffer, -⟩ | ⟨-, hp⟩ := hi
    · cases ho.symm.trans hoffer
    · obtain ⟨f, hwire⟩ := hframes _ _ hp
      cases he.symm.trans hwire
  | accepted => simpa using hf
  | called => simpa using hf
  | primitive => simpa using hf
  | settled => simpa using hf

/-! ### A TIMEOUT in the first wait (R251, R258) -/

/-- A set bit of a status byte is a set flag of its mask (30_encoding.md R90). -/
theorem and_mask_ne_zero {v : Byte} {n : Nat} (hn : n < 8) (h : v.getLsbD n = true) :
    v &&& BitVec.twoPow 8 n ≠ 0x00#8 := by
  rw [BitVec.and_twoPow, if_pos h]
  exact fun hzero => by simpa [hn] using congrArg (BitVec.getLsbD · n) hzero

/-- WRITE_REG, PROGRAM and ERASE begin with the write-enable frame and W_SHORT (45_facade.md R224, R226, R227). -/
theorem refOperation_of_write {i : Instr} {q : Request} (he : encode i = .hostReq q)
    (hop : q.op ∈ [tagWriteReg, tagProgram, tagErase]) (polls : Nat) :
    ∃ rest, ∀ s, refOperation polls i s = refWaitOrStop polls waitShort rest (refWrenTxn s) := by
  obtain rfl := decodeRequest_of_encode he
  obtain hop | hop | hop : q.op = tagWriteReg ∨ q.op = tagProgram ∨ q.op = tagErase := by simpa using hop
  all_goals
    rw [decodeRequest, hop]
    exact ⟨_, fun _ => rfl⟩

theorem refWaitOrStop_of_timeout {polls : Nat} {w : WaitForm} {rest : State → Option State} {s u : State}
    (h : refWait polls w s = some u) (hw : u.wres = .timeout) :
    refWaitOrStop polls w rest s = some (respond .timeout u) := by
  simp only [refWaitOrStop, h, hw, if_true]

/-- Settles O47: the pseudocode of each of the three stops at the first wait, which ends at its first poll, and an
accepted operation follows its pseudocode. -/
theorem firstWaitTimeoutEndsTheOperation : Obligations.FirstWaitTimeoutEndsTheOperation := by
  intro i q sr later a b advances s hr hs hlife he hop hwf hdev hsr hadv hb
  have hbad : q.op ≠ tagReserved := fun h => absurd (h ▸ hop) (by decide)
  have ha := acceptFault_of_wellFormed hr he hbad (.inr (.inr hlife)) hwf
  obtain ⟨es, bs, hwren⟩ := CarriesFrame.wrenTxn (accepted q s)
  have htime : (refWrenTxn (accepted q s)).time = s.time := hwren.did.moved.time
  obtain ⟨u, es', hwait, hsaw, hw, hcs⟩ := refWait_firstTimeout (s := refWrenTxn (accepted q s)) 0 waitShort
    (refWrenTxn_scripted hdev) (and_mask_ne_zero (n := 0) (by decide) hsr) (by rw [htime, hadv]) hb
  obtain ⟨rest, hcode⟩ := refOperation_of_write he hop 1
  obtain ⟨v, hexec, hreach, hready⟩ :=
    exec_completes hr hs he ha ((hcode _).trans (refWaitOrStop_of_timeout hwait hw))
  have hall := hwren.did.saw.trans hsaw
  rw [htime] at hall
  rw [hwren.did.moved.params] at hcs
  have hmoved : OnlyWaited { s with req := q } (respond .timeout u) :=
    ((onlyLinesMoved_accepted q s).onlyWaited.trans hall.moved).trans
      (onlyLinesMoved_respond (hall.moved.phase.trans hr.2) .timeout).onlyWaited
  exact ⟨v, respond .timeout u, es ++ es', hexec, hreach, hready, by simp [hall.trace, accepted, replyOf], hall.sent,
    hall.times, hall.noReply, hcs, hmoved⟩

end Sys2Proof.Machine
end

section
/-!
The statements of 70_reset_and_hazards.md: the power-on state, and that OPEN and CLOSE each leave the block where a
second run of the same operation finds nothing to change.
-/

namespace Sys2Proof.Machine

/-- Settles O6: each field of the power-on state is the value R280 gives it, and BUSY is false because the phase is
IDLE. -/
theorem powerOnState : Obligations.PowerOnState :=
  have hbusy : busy State.reset = false := busy_eq_false.2 rfl
  ⟨rfl, rfl, hbusy, rfl, rfl, rfl, rfl⟩

/-! ### OPEN after OPEN and CLOSE after CLOSE (R285) -/

/-- What the three line writes of OPEN make of CTRL (45_facade.md R221). -/
def openCtrl (c : Byte) : Byte := ((c &&& 0xFE#8) ||| 0x04#8) &&& 0xF7#8

/-- The writes force bits 0, 2 and 3 to constants and keep the other bits. -/
theorem openCtrl_openCtrl (c : Byte) : openCtrl (openCtrl c) = openCtrl c := by
  have hbit : ∀ x a b d : Bool, ((((((x && a) || b) && d) && a) || b) && d) = (((x && a) || b) && d) := by decide
  ext i hi
  simpa only [openCtrl, BitVec.getElem_and, BitVec.getElem_or] using hbit ..

/-- OPEN and CLOSE run from every ready block to a state in which EN, LAST_EN, LIFE and REQ are constants of the
operation, CTRL is an idempotent function of what it was, and only TRACE and the device differ besides. -/
theorem lifecycle_ends {i : Instr} (hi : i = .hostOpen ∨ i = .hostClose) :
    ∃ (f : Byte → Byte) (v : Byte) (l : Life) (q : Request), (∀ c, f (f c) = f c) ∧
      ∀ s, Ready s → SerialHost s → ∃ u t es d, exec i s = .next u ∧ Reaches u t ∧
        t = { s with
          ctrl := f s.ctrl, en := v, lastEn := some v, life := l, req := q, trace := es, device := d } := by
  obtain rfl | rfl := hi
  · refine ⟨openCtrl, 0x01#8, .opened, bareRequest tagOpen, openCtrl_openCtrl, fun s hr hs => ?_⟩
    obtain ⟨u, hexec, t, hreach, hctrl, hen, hlast, hlife, -, -, ht⟩ := openCompletes s hr hs
    rw [hctrl, hen, hlast, hlife] at ht
    exact ⟨u, t, t.trace, t.device, hexec, hreach, ht⟩
  · refine ⟨id, 0x00#8, .closed, bareRequest tagClose, fun _ => rfl, fun s hr hs => ?_⟩
    obtain ⟨u, hexec, hreach⟩ := closeCompletes s hr hs
    exact ⟨u, _, _, s.device, hexec, hreach, rfl⟩

/-- Settles O43: the operation runs from the state it ends in, which is ready again, and writes every register with the
value it holds. -/
theorem openAndCloseAreIdempotent : Obligations.OpenAndCloseAreIdempotent := by
  intro i s hi hr hs
  obtain ⟨f, v, l, q, hidem, hends⟩ := lifecycle_ends (by simpa using hi)
  obtain ⟨u, t, es, d, hexec, hreach, ht⟩ := hends s hr hs
  have hready : Ready t := by rw [ht]; exact hr
  have hserial : SerialHost t := by rw [ht]; exact hs
  obtain ⟨u', t', es', d', hexec', hreach', ht'⟩ := hends t hready hserial
  refine ⟨u, t, u', t', hexec, hreach, hready, hexec', hreach', ?_⟩
  rw [ht', ht, hidem]

end Sys2Proof.Machine
end
